-- ==== Sys2Proof/Word.lean ====
section
/-! DEFINITION. The words of CTP-BRE: the widths that spec/ fixes for its ports and its datapath. -/

namespace Sys2Proof

/-- A word of the command port, of the response port and of every register (R24, R66, R67). -/
abbrev Word := BitVec 32

/-- One byte of a packet payload (R64). -/
abbrev Byte := BitVec 8

/-- One 80-bit word of the Bit-Word Assembler (R6 WORD_BITS, R111). -/
abbrev Word80 := BitVec 80

/-- A 96-bit view: a trigger-pattern mask (R31) or a digit's mask as it is read out (R93). -/
abbrev Bits96 := BitVec 96

/-- A payload chunk. Its width `N[ch]` is set by a register, so, as R8 has it, a chunk of width `N` is a
natural number below `2^N`. -/
abbrev Chunk := Nat

end Sys2Proof
end

