-- ==== Sys2Proof/Machine/Assembler.lean ====
section
/-! DEFINITION. The Bit-Word Assembler, operation ASSEMBLE (41_word_assembler.md). -/

namespace Sys2Proof.Machine

/-- R113: the loop of ASSEMBLE over the bytes that are left, with the group position `pos`, the number `nw` of
data bytes written and the word `acc` under way. The answer holds the words and whether the last one is a
trailing partial group (R115). -/
def assembleLoop (W : Nat) : List Byte → Nat → Nat → Word80 → List Word80 × Bool
  | [], _, nw, acc => if nw > 0 then ([acc], true) else ([], false)
  | b :: bs, pos, nw, acc =>
    let next := if pos + 1 = W then 0 else pos + 1
    if pos < 10 then
      let acc := acc + (b.setWidth 80 <<< (8 * pos))
      if nw + 1 = 10 then
        let r := assembleLoop W bs next 0 0#80
        (acc :: r.1, r.2)
      else assembleLoop W bs next (nw + 1) acc
    else assembleLoop W bs next nw acc

/-- R113: `ASSEMBLE(b[0..LEN-1], W)`; nothing is carried from packet to packet (R118). -/
def assemble (W : Nat) (bytes : List Byte) : List Word80 × Bool := assembleLoop W bytes 0 0 0#80

end Sys2Proof.Machine
end

