-- ==== Sys2Proof/Syntax.lean ====
section
/-! DEFINITION. The commands of CTP-BRE: one constructor per row of spec/opcode_table.json (R87). -/

namespace Sys2Proof

/-- The command set v1 (R2). The operands are the fields of 30_encoding.md, all unsigned (R92). -/
inductive Instr where
  /-- NOP, format Z (R182). -/
  | nop
  /-- BEGIN, format Z (R183). -/
  | beginInterval
  /-- END, format Z (R184). -/
  | endInterval
  /-- CSRW, format C2 (R84, R186): register index and the value to write. -/
  | csrw (csr : BitVec 8) (v : Word)
  /-- CSRR, format C1 (R84, R187): register index. -/
  | csrr (csr : BitVec 8)
  /-- PKT, format P (R85, R185): the flags, the byte length, the header operands and the data words as
  they stand in the command stream (R64: the unused high bytes of the last one included). -/
  | pkt (pad herr : Bool) (len linkId seq : BitVec 16) (orbit trig : Word) (data : List Word)
  /-- RDDIG, format I (R86, R188): digit index. -/
  | rddig (idx : Word)
  /-- RDLUMI, format I (R86, R189): sample index. -/
  | rdlumi (idx : Word)
  /-- SRST, format Z (R190). -/
  | srst
  deriving DecidableEq, Repr

end Sys2Proof
end

