-- ==== Sys2Proof/WellFormed.lean ====
section
/-! DEFINITION. Which terms of `Instr` a command stream can carry. -/

namespace Sys2Proof

/-- R85: a PKT carries exactly `ceil(LEN/4)` data words; every other operand is bounded by its type. -/
def Instr.wellFormed : Instr → Bool
  | .nop => true
  | .beginInterval => true
  | .endInterval => true
  | .csrw _ _ => true
  | .csrr _ => true
  | .pkt _ _ len _ _ _ _ data => data.length == (len.toNat + 3) / 4
  | .rddig _ => true
  | .rdlumi _ => true
  | .srst => true

end Sys2Proof
end

