-- ==== Sys2Proof/Decode.lean ====
section
/-! DEFINITION. The command decoder of 30_encoding.md (R88), the encoder of the same formats (R83 to R87),
the assembler's packing and pseudo-instructions (R94, R95), and the opcode table's numbering of a command's
bits. -/

namespace Sys2Proof

/-! ## The header word (R81) -/

/-- R81: OPC, bits 31:24. -/
def hdrOpc (h : Word) : BitVec 8 := h.extractLsb' 24 8

/-- R81: A, bits 23:16. -/
def hdrA (h : Word) : BitVec 8 := h.extractLsb' 16 8

/-- R81: B, bits 15:0. -/
def hdrB (h : Word) : BitVec 16 := h.extractLsb' 0 16

/-- R81: a header word from its three fields. -/
def header (opc a : BitVec 8) (b : BitVec 16) : Word := opc ++ a ++ b

/-- R82: `ceil(B/4)`, the number of data words of a PKT. -/
def dataWords (len : BitVec 16) : Nat := (len.toNat + 3) / 4

/-- R82: the length in words of a command. -/
def Instr.length : Instr → Nat
  | .nop => 1
  | .beginInterval => 1
  | .endInterval => 1
  | .csrw _ _ => 2
  | .csrr _ => 1
  | .pkt _ _ len _ _ _ _ _ => 4 + dataWords len
  | .rddig _ => 2
  | .rdlumi _ => 2
  | .srst => 1

/-- R89: the header words that are legal. -/
def headerLegal (h : Word) : Bool :=
  match (hdrOpc h).toNat with
  | 0x00 | 0x01 | 0x02 | 0x0F | 0x06 | 0x07 => hdrA h == 0#8 && hdrB h == 0#16
  | 0x03 | 0x04 => hdrB h == 0#16
  | 0x05 => (hdrA h).extractLsb' 2 6 == 0#6
  | _ => false

/-- R82: a command's length, decided from its header word alone; an illegal header has length 1. -/
def headerLength (h : Word) : Nat :=
  if headerLegal h then
    match (hdrOpc h).toNat with
    | 0x03 | 0x06 | 0x07 => 2
    | 0x05 => 4 + dataWords (hdrB h)
    | _ => 1
  else 1

/-! ## The decoder (R88) -/

/-- Why the words of the stream give no command. The first two are the illegal verdict of R89, the last two
a stream on which the engine waits (R66, R241). -/
inductive Reject where
  /-- R89: the opcode is unassigned. -/
  | unassignedOpcode
  /-- R89: a field that the format reserves is nonzero. -/
  | reservedField
  /-- R66: no word is available where a header is due. -/
  | noHeader
  /-- R241: the stream ends inside a command. -/
  | truncated
  deriving DecidableEq, Repr

/-- The first `n` words and the rest; nothing where fewer have arrived. -/
def takeWords (n : Nat) (ws : List Word) : Option (List Word × List Word) :=
  if n ≤ ws.length then some (ws.take n, ws.drop n) else none

/-- Format Z (R83): no operand word; A and B are reserved. -/
def decodeZ (h : Word) (i : Instr) (rest : List Word) : Except Reject (Instr × List Word) :=
  if hdrA h = 0#8 ∧ hdrB h = 0#16 then .ok (i, rest) else .error .reservedField

/-- Format I (R86): one operand word; A and B are reserved. -/
def decodeI (h : Word) (mk : Word → Instr) (rest : List Word) : Except Reject (Instr × List Word) :=
  if hdrA h = 0#8 ∧ hdrB h = 0#16 then
    match rest with
    | idx :: rest => .ok (mk idx, rest)
    | [] => .error .truncated
  else .error .reservedField

/-- Format C2 (R84): A is the register index, B is reserved, one operand word. -/
def decodeC2 (h : Word) (rest : List Word) : Except Reject (Instr × List Word) :=
  if hdrB h = 0#16 then
    match rest with
    | v :: rest => .ok (.csrw (hdrA h) v, rest)
    | [] => .error .truncated
  else .error .reservedField

/-- Format C1 (R84): A is the register index, B is reserved. -/
def decodeC1 (h : Word) (rest : List Word) : Except Reject (Instr × List Word) :=
  if hdrB h = 0#16 then .ok (.csrr (hdrA h), rest) else .error .reservedField

/-- Format P (R85): A[0] is PAD, A[1] is HERR, A[7:2] is reserved, B is LEN; then H0 = SEQ above LINK_ID,
H1 = ORBIT, H2 = TRIG and the data words. -/
def decodeP (h : Word) (rest : List Word) : Except Reject (Instr × List Word) :=
  if (hdrA h).extractLsb' 2 6 = 0#6 then
    match rest with
    | h0 :: h1 :: h2 :: rest =>
      match takeWords (dataWords (hdrB h)) rest with
      | some (data, rest) =>
        .ok (.pkt ((hdrA h).getLsbD 0) ((hdrA h).getLsbD 1) (hdrB h)
          (h0.extractLsb' 0 16) (h0.extractLsb' 16 16) h1 h2 data, rest)
      | none => .error .truncated
    | _ => .error .truncated
  else .error .reservedField

/-- R88: the command at the front of the stream and the words after it, or why there is none. -/
def decode : List Word → Except Reject (Instr × List Word)
  | [] => .error .noHeader
  | h :: rest =>
    match (hdrOpc h).toNat with
    | 0x00 => decodeZ h .nop rest
    | 0x01 => decodeZ h .beginInterval rest
    | 0x02 => decodeZ h .endInterval rest
    | 0x03 => decodeC2 h rest
    | 0x04 => decodeC1 h rest
    | 0x05 => decodeP h rest
    | 0x06 => decodeI h .rddig rest
    | 0x07 => decodeI h .rdlumi rest
    | 0x0F => decodeZ h .srst rest
    | _ => .error .unassignedOpcode

/-! ## The encoder (R83 to R87) -/

/-- The words of a command, from the formats of R83 to R86 and the opcodes of R87. -/
def encode : Instr → List Word
  | .nop => [header 0x00#8 0#8 0#16]
  | .beginInterval => [header 0x01#8 0#8 0#16]
  | .endInterval => [header 0x02#8 0#8 0#16]
  | .csrw csr v => [header 0x03#8 csr 0#16, v]
  | .csrr csr => [header 0x04#8 csr 0#16]
  | .pkt pad herr len linkId seq orbit trig data =>
    header 0x05#8 (0#6 ++ BitVec.ofBool herr ++ BitVec.ofBool pad) len
      :: (seq ++ linkId) :: orbit :: trig :: data
  | .rddig idx => [header 0x06#8 0#8 0#16, idx]
  | .rdlumi idx => [header 0x07#8 0#8 0#16, idx]
  | .srst => [header 0x0F#8 0#8 0#16]

/-! ## The opcode table's numbering of bits -/

/-- `n` words of the number `w`, the least significant 32 bits first. -/
def splitWords : Nat → Nat → List Word
  | 0, _ => []
  | n + 1, w => BitVec.ofNat 32 w :: splitWords n (w / 2 ^ 32)

/-- The stream words of a table row's `nbits` bits `w`, followed by the zero operand words that its header
calls for (R82). -/
def tableStream (nbits w : Nat) : List Word :=
  match splitWords ((nbits + 31) / 32) (w % 2 ^ nbits) with
  | [] => []
  | h :: ws => h :: (ws ++ List.replicate (headerLength h - 1 - ws.length) 0#32)

/-- The command that the decoder reads from a table row's bits. -/
def decodeTableWord (nbits w : Nat) : Option Instr :=
  match decode (tableStream nbits w) with
  | .ok (i, _) => some i
  | .error _ => none

/-! ## Assembler packing and pseudo-instructions (R94, R95) -/

/-- R64, R94: payload bytes packed four to a word, the first byte lowest, the last word filled up with 0. -/
def packBytes : List Byte → List Word
  | [] => []
  | [b0] => [0#8 ++ 0#8 ++ 0#8 ++ b0]
  | [b0, b1] => [0#8 ++ 0#8 ++ b1 ++ b0]
  | [b0, b1, b2] => [0#8 ++ b2 ++ b1 ++ b0]
  | b0 :: b1 :: b2 :: b3 :: bs => (b3 ++ b2 ++ b1 ++ b0) :: packBytes bs

/-- R94: the PKT that the assembler emits for a list of payload bytes; LEN is the number of bytes listed. -/
def asmPkt (linkId seq : BitVec 16) (orbit trig : Word) (pad herr : Bool) (bytes : List Byte) : Instr :=
  .pkt pad herr (BitVec.ofNat 16 bytes.length) linkId seq orbit trig (packBytes bytes)

/-- R95: `CFG digits=<d>, lumi=<l>`. -/
def pseudoCfg (digits lumi : Bool) : List Instr :=
  [.csrw 0x01#8 (0#30 ++ BitVec.ofBool lumi ++ BitVec.ofBool digits)]

/-- R95: `SETMASK A, <v96>`. -/
def pseudoSetMaskA (v : Bits96) : List Instr :=
  [.csrw 0x09#8 (v.extractLsb' 0 32), .csrw 0x0A#8 (v.extractLsb' 32 32), .csrw 0x0B#8 (v.extractLsb' 64 32)]

/-- R95: `SETMASK B, <v96>`. -/
def pseudoSetMaskB (v : Bits96) : List Instr :=
  [.csrw 0x0C#8 (v.extractLsb' 0 32), .csrw 0x0D#8 (v.extractLsb' 32 32), .csrw 0x0E#8 (v.extractLsb' 64 32)]

/-- R95: `RDSTATUS`. -/
def pseudoRdStatus : List Instr := [.csrr 0x10#8]

/-- R95 step 1: the bit stream `sum_k c_k * 2^(k*N)`. -/
def chunkStream (n : Nat) : List Chunk → Nat
  | [] => 0
  | c :: cs => c + 2 ^ n * chunkStream n cs

/-- R95 step 2: `w` 80-bit words of a bit stream, word t being `s[80t+79 : 80t]`. -/
def streamWords : Nat → Nat → List Word80
  | 0, _ => []
  | w + 1, s => BitVec.ofNat 80 s :: streamWords w (s / 2 ^ 80)

/-- R95 step 3: an 80-bit word as 10 bytes, the least significant first. -/
def wordBytes80 (w : Word80) : List Byte :=
  (List.range 10).map fun k => w.extractLsb' (8 * k) 8

/-- R95 steps 1 to 3: the payload that PKTC computes from its chunks. -/
def pktcData (pad : Bool) (n : Nat) (chunks : List Chunk) : List Byte :=
  (streamWords ((chunks.length * n + 79) / 80) (chunkStream n chunks)).flatMap fun w =>
    wordBytes80 w ++ (if pad then List.replicate 6 0#8 else [])

/-- R95: `PKTC link=…, seq=…, orbit=…, trig=…, pad=<p>, n=<N>, chunks=[…]`. -/
def pseudoPktc (linkId seq : BitVec 16) (orbit trig : Word) (pad : Bool) (n : Nat) (chunks : List Chunk) :
    List Instr :=
  [asmPkt linkId seq orbit trig pad false (pktcData pad n chunks)]

end Sys2Proof
end

