-- ==== Sys2Proof/Config.lean ====
section
/-! DEFINITION. The constants of the block that no register holds (R2, R6), and the two model parameters'
values in the reset state of this model (R46, D27; log entry 2). -/

namespace Sys2Proof.Config

/-- R2, R27: the identity value. -/
def idValue : Word := 0x43545001#32

/-- DESIGN CHOICE (log entry 2), unsafe: MAP_CAP in `State.reset`; the spec leaves the parameter OPEN (D27). -/
def mapCapAtReset : Word := 1024#32

/-- DESIGN CHOICE (log entry 2), unsafe: LUMI_CAP in `State.reset`; the spec leaves the parameter OPEN (D27). -/
def lumiCapAtReset : Word := 1024#32

end Sys2Proof.Config
end

