-- ==== Sys2Proof/Machine/State.lean ====
section
/-! DEFINITION. The state of the engine (10_state.md), its reset value (R232), and the reasons a step can stop.
Every field is plain data. -/

namespace Sys2Proof.Machine

/-- R11: the interaction-record channel and the class-record channel. -/
inductive Channel where
  | ir
  | cl
  deriving DecidableEq, Repr

/-- R23: STATE. -/
inductive EngineState where
  /-- 0: no interval has been started since reset. -/
  | idle
  /-- 1: an interval is open. -/
  | active
  /-- 2: the interval ended normally. -/
  | done
  /-- 3: a fatal error ended the interval. -/
  | aborted
  deriving DecidableEq, Repr

/-- R35, R202: FATAL_CAUSE; codes 4 to 15 are never produced. -/
inductive FatalCause where
  /-- 0 NONE. -/
  | none
  /-- 1 HDR_ERR. -/
  | hdrErr
  /-- 2 CFG_INVALID. -/
  | cfgInvalid
  /-- 3 ILLCMD. -/
  | illCmd
  deriving DecidableEq, Repr

/-- R33, R208: the sticky interval error bits, bit 0 first. -/
inductive IErrBit where
  | noframe | padmix | partialWord | unkch | dup | bcrange | timerange | clarify | mapfull | lumifull | cntovf
  deriving DecidableEq, Repr

/-- R34, R210: the sticky global error bits, bit 0 first. -/
inductive GErrBit where
  | illcmd | seq | cfglock | badcsr
  deriving DecidableEq, Repr

/-- R31: a 96-bit trigger-pattern mask, held as three words; `w0` holds bits 31:0. -/
structure Mask96 where
  w0 : Word
  w1 : Word
  w2 : Word
  deriving DecidableEq, Repr

/-- The configuration registers (class CFG of R47), each holding only its field bits (R193). -/
structure CfgRegs where
  /-- CTRL[0] (R25). -/
  digitsEn : Bool
  /-- CTRL[1] (R25). -/
  lumiEn : Bool
  /-- R26. -/
  npldIr : BitVec 7
  /-- R26. -/
  npldCl : BitVec 7
  /-- R28. -/
  offC : BitVec 16
  /-- R28. -/
  lat1 : BitVec 16
  /-- R28. -/
  lat2 : BitVec 16
  /-- R29. -/
  fsMask : Word
  /-- CHSEL[3:0] (R30). -/
  irCode : BitVec 4
  /-- CHSEL[7:4] (R30). -/
  clCode : BitVec 4
  /-- R31. -/
  lmaskA : Mask96
  /-- R31. -/
  lmaskB : Mask96
  deriving DecidableEq, Repr

/-- The session state that each channel has for itself (R37 to R40). -/
structure ChanState where
  /-- FOPEN[ch] (R37). -/
  fopen : Bool
  /-- FRAME_ORBIT[ch] (R37). -/
  frameOrbit : Word
  /-- LAST_ORBIT[ch] (R38). -/
  lastOrbit : Word
  /-- REM_VAL[ch] (R39: up to 78 bits). -/
  remVal : BitVec 78
  /-- REM_CNT[ch] (R39). -/
  remCnt : BitVec 7
  /-- REJ[ch] (R40). -/
  rej : Word
  /-- DUP[ch] (R40). -/
  dup : Word
  deriving DecidableEq, Repr

/-- R42: a key of the digit map; the bunch-crossing id is 0 to 3563. -/
structure Key where
  orbit : Word
  bc : Fin 3564
  deriving DecidableEq, Repr

/-- R42, D50: an entry of the digit map. Both masks are held 96 bits wide, as they are read out (R93). -/
structure Entry where
  iset : Bool
  imask : Bits96
  cset : Bool
  cmask : Bits96
  deriving DecidableEq, Repr

/-- R43: a sample of the lumi buffer. -/
structure LumiSample where
  orbit : Word
  r1 : Word
  r2 : Word
  countA : Word
  countB : Word
  deriving DecidableEq, Repr

/-- The session state that BEGIN clears (R33, R36 to R43, R234), but for the fatal cause and position. -/
structure Session where
  /-- IERR[10:0] (R33); bits 31:11 read 0. -/
  ierr : BitVec 11
  /-- R36. -/
  wLatched : Bool
  /-- R36: 1 means 16 bytes per word. -/
  w16 : Bool
  /-- R36. -/
  ioLatched : Bool
  /-- R36. -/
  intervalOrbit : Word
  /-- The IR channel's own state. -/
  ir : ChanState
  /-- The CL channel's own state. -/
  cl : ChanState
  /-- R40. -/
  unkCh : Word
  /-- R41. -/
  lcntA : Word
  /-- R41. -/
  lcntB : Word
  /-- R42: the digit map, its keys strictly rising in (orbit, bc) order, so equal maps are equal lists. -/
  map : List (Key × Entry)
  /-- R43: the lumi sample buffer in emission order. -/
  lumi : List LumiSample
  deriving DecidableEq, Repr

/-- R46, R6: the model parameters. No command and no reset changes them. -/
structure Params where
  mapCap : Word
  lumiCap : Word
  deriving DecidableEq, Repr

/-- The state that 10_state.md gives the engine, without what R51 says is not state. -/
structure Engine where
  /-- R23. -/
  engine : EngineState
  /-- R22. -/
  cpos : Word
  /-- The configuration registers. -/
  cfg : CfgRegs
  /-- GERR[3:0] (R34); bits 31:4 read 0. -/
  gerr : BitVec 4
  /-- R35. -/
  fatalCause : FatalCause
  /-- R35. -/
  fatalCpos : Word
  /-- The session state. -/
  ses : Session
  /-- R44: the response stream, oldest word first. -/
  resp : List Word
  deriving DecidableEq, Repr

/-- The closed machine: the engine's state, and beside it the arguments of its step relation (R51), since a step takes
nothing but its state here. -/
structure State extends Engine where
  /-- R46, R51: an argument of the step relation (log entry 2). -/
  params : Params
  /-- R51: an argument of the step relation (log entry 1): the command-stream words supplied and not yet consumed,
  oldest first (R66). -/
  input : List Word
  /-- An input of the block (log entry 4): the hardware reset is asserted (R231). -/
  resetPin : Bool
  deriving DecidableEq, Repr

/-- R51: the engine's state with the arguments of its step relation put beside it. -/
def Engine.withArgs (prm : Params) (words : List Word) (rst : Bool) (e : Engine) : State where
  toEngine := e
  params := prm
  input := words
  resetPin := rst

/-- Reasons the machine stops where it stands. `step` alone raises them, never `exec`; both are safe, because
the spec says that the engine waits (R66, R241; log entry 3). -/
inductive Fault where
  /-- Raised by `step` when no word is left at a command boundary: the engine waits for a header, and the
  run has ended cleanly (R241). Safe. -/
  | waitingForHeader
  /-- Raised by `step` when the stream ends inside a command: the command has no effect and the engine is
  stuck (R241). Safe. -/
  | waitingForOperand
  deriving DecidableEq, Repr

/-- Reasons the model gives an instruction no meaning. -/
inductive Refusal where
  /-- Raised only by an arm of `exec` that has no meaning yet; no arm of this model raises it. Safe. -/
  | notModelled (mnemonic : String)
  deriving DecidableEq, Repr

/-- R232: the configuration registers after reset. -/
def CfgRegs.reset : CfgRegs where
  digitsEn := false
  lumiEn := false
  npldIr := 60#7
  npldCl := 76#7
  offC := 0#16
  lat1 := 0#16
  lat2 := 0#16
  fsMask := 0x00000802#32
  irCode := 0#4
  clCode := 1#4
  lmaskA := ⟨0#32, 0#32, 0#32⟩
  lmaskB := ⟨0#32, 0#32, 0#32⟩

/-- R37 to R40: a channel's state at reset and after BEGIN. -/
def ChanState.clear : ChanState where
  fopen := false
  frameOrbit := 0#32
  lastOrbit := 0#32
  remVal := 0#78
  remCnt := 0#7
  rej := 0#32
  dup := 0#32

/-- R33, R36 to R43: the session state at reset and after BEGIN. -/
def Session.clear : Session where
  ierr := 0#11
  wLatched := false
  w16 := false
  ioLatched := false
  intervalOrbit := 0#32
  ir := ChanState.clear
  cl := ChanState.clear
  unkCh := 0#32
  lcntA := 0#32
  lcntB := 0#32
  map := []
  lumi := []

/-- R232: the engine's state after reset, with no response pushed yet (log entry 9). No model parameter stands in
it. -/
def Engine.reset : Engine where
  engine := .idle
  cpos := 0#32
  cfg := CfgRegs.reset
  gerr := 0#4
  fatalCause := .none
  fatalCpos := 0#32
  ses := Session.clear
  resp := []

/-- The machine right after reset: the engine's reset state, the parameters of log entry 2, no command word supplied
(log entry 1) and the reset input released (log entry 4). -/
def State.reset : State :=
  Engine.reset.withArgs ⟨Config.mapCapAtReset, Config.lumiCapAtReset⟩ [] false

end Sys2Proof.Machine
end

