-- ==== Sys2Proof/Machine/Operands.lean ====
section
/-! DEFINITION. Bit fields (R8), the packet's operands (R64, R92, R161, R165), and the per-channel views of the
configuration (R11, R31, R135). -/

namespace Sys2Proof.Machine

/-- R8: `v[hi:lo]`; the empty field where `hi < lo`. -/
def slice (hi lo v : Nat) : Nat := if hi < lo then 0 else (v >>> lo) % 2 ^ (hi - lo + 1)

/-- R64: the four bytes of a data word, the low byte first. -/
def wordBytes (w : Word) : List Byte :=
  [w.extractLsb' 0 8, w.extractLsb' 8 8, w.extractLsb' 16 8, w.extractLsb' 24 8]

/-- R64: the LEN payload bytes carried by the data words, in packet order. -/
def payloadBytes (len : BitVec 16) (data : List Word) : List Byte :=
  (data.flatMap wordBytes).take len.toNat

/-- R11: `N[ch]`, the chunk width. -/
def CfgRegs.width (cfg : CfgRegs) : Channel → Nat
  | .ir => cfg.npldIr.toNat
  | .cl => cfg.npldCl.toNat

/-- R31: a mask as one 96-bit value. -/
def Mask96.value (m : Mask96) : Bits96 := m.w2 ++ m.w1 ++ m.w0

/-- R135: `OFFSET(ch)`, an integer; -1 is possible for CL. -/
def CfgRegs.offset (cfg : CfgRegs) : Channel → Int
  | .ir => cfg.offC.toNat
  | .cl => (cfg.offC.toNat : Int) + cfg.lat1.toNat + cfg.lat2.toNat - 1

/-- R161: `CHAN(LINK_ID)`; nothing where the channel is unrecognized. -/
def CfgRegs.chan (cfg : CfgRegs) (linkId : BitVec 16) : Option Channel :=
  let code : BitVec 4 := linkId.extractLsb' 8 4
  if code = cfg.irCode then some .ir
  else if code = cfg.clCode then some .cl
  else none

/-- R165: `IS_FRAME_START(TRIG, SEQ)`. -/
def CfgRegs.isFrameStart (cfg : CfgRegs) (trig : Word) (seq : BitVec 16) : Bool :=
  (trig &&& cfg.fsMask) != 0#32 && seq == 0#16

/-- R183: the configuration that BEGIN accepts. -/
def CfgRegs.legal (cfg : CfgRegs) : Bool :=
  13 ≤ cfg.width .ir && cfg.width .ir ≤ 79 && 13 ≤ cfg.width .cl && cfg.width .cl ≤ 79
    && cfg.irCode != cfg.clCode

end Sys2Proof.Machine
end

