-- ==== Sys2Proof/Machine/Flags.lean ====
section
/-! DEFINITION. The sticky error bits (R33, R34, R208, R210), the 32-bit counters (R45) and the codes of STATE
and FATAL_CAUSE (R23, R35). -/

namespace Sys2Proof.Machine

/-- R33: the bit of IERR. -/
def IErrBit.index : IErrBit → Nat
  | .noframe => 0
  | .padmix => 1
  | .partialWord => 2
  | .unkch => 3
  | .dup => 4
  | .bcrange => 5
  | .timerange => 6
  | .clarify => 7
  | .mapfull => 8
  | .lumifull => 9
  | .cntovf => 10

/-- R34: the bit of GERR. -/
def GErrBit.index : GErrBit → Nat
  | .illcmd => 0
  | .seq => 1
  | .cfglock => 2
  | .badcsr => 3

/-- R10: `flag(IERR.X)`. -/
def Session.flag (b : IErrBit) (ses : Session) : Session :=
  { ses with ierr := ses.ierr ||| (1#11 <<< b.index) }

/-- R10: `flag(GERR.X)`. -/
def State.gflag (b : GErrBit) (s : State) : State :=
  { s with gerr := s.gerr ||| (1#4 <<< b.index) }

/-- Whether an IERR bit is set. -/
def Session.hasFlag (b : IErrBit) (ses : Session) : Bool := ses.ierr.getLsbD b.index

/-- Whether a GERR bit is set. -/
def State.hasGflag (b : GErrBit) (s : State) : Bool := s.gerr.getLsbD b.index

/-- R45: what `inc` does beside the addition: a counter whose new value `c` is 0 wrapped. -/
def Session.noteWrap (c : Word) (ses : Session) : Session :=
  if c = 0#32 then ses.flag .cntovf else ses

/-- R23: the code of STATE. -/
def EngineState.code : EngineState → BitVec 2
  | .idle => 0#2
  | .active => 1#2
  | .done => 2#2
  | .aborted => 3#2

/-- R35: the code of FATAL_CAUSE. -/
def FatalCause.code : FatalCause → BitVec 4
  | .none => 0#4
  | .hdrErr => 1#4
  | .cfgInvalid => 2#4
  | .illCmd => 3#4

end Sys2Proof.Machine
end

