-- ==== Sys2Proof/Machine/Ops.lean ====
section
/-! DEFINITION. The shared operations over the state: the channels' fields, the counters (R45), the response
stream (R67), the command position (R22, R66), taking the engine's one exception (R203), leaving it (R205),
reset (R231) and the illegal command (R191). -/

namespace Sys2Proof.Machine

/-! ## Channel fields -/

/-- The fields `f[ch]` of a channel (R11). -/
def Session.chan (ses : Session) : Channel → ChanState
  | .ir => ses.ir
  | .cl => ses.cl

/-- Write the fields `f[ch]` of a channel. -/
def Session.setChan (ch : Channel) (c : ChanState) (ses : Session) : Session :=
  match ch with
  | .ir => { ses with ir := c }
  | .cl => { ses with cl := c }

/-- Write the remnant of a channel (R39). -/
def Session.setRemnant (ch : Channel) (val cnt : Nat) (ses : Session) : Session :=
  ses.setChan ch { ses.chan ch with remVal := BitVec.ofNat 78 val, remCnt := BitVec.ofNat 7 cnt }

/-! ## Counters (R40, R41, R45) -/

/-- `inc(S.REJ[ch])`. -/
def Session.incRej (ch : Channel) (ses : Session) : Session :=
  let c := (ses.chan ch).rej + 1#32
  (ses.setChan ch { ses.chan ch with rej := c }).noteWrap c

/-- `inc(S.DUP[ch])`. -/
def Session.incDup (ch : Channel) (ses : Session) : Session :=
  let c := (ses.chan ch).dup + 1#32
  (ses.setChan ch { ses.chan ch with dup := c }).noteWrap c

/-- `inc(S.UNK_CH)`. -/
def Session.incUnkCh (ses : Session) : Session :=
  let c := ses.unkCh + 1#32
  { ses with unkCh := c }.noteWrap c

/-- `inc(S.LCNT_A)`. -/
def Session.incLcntA (ses : Session) : Session :=
  let c := ses.lcntA + 1#32
  { ses with lcntA := c }.noteWrap c

/-- `inc(S.LCNT_B)`. -/
def Session.incLcntB (ses : Session) : Session :=
  let c := ses.lcntB + 1#32
  { ses with lcntB := c }.noteWrap c

/-! ## The two streams -/

/-- R22, R66: the CPOS advance of a command of `n` words. Until it runs, CPOS holds the position of the
command's header word, which is what the command sees. -/
def State.retire (n : Nat) (s : State) : State := { s with cpos := s.cpos + BitVec.ofNat 32 n }

/-- R67: `RespPush`, for the words of one command in push order. -/
def State.respPush (ws : List Word) (s : State) : State := { s with resp := s.resp ++ ws }

/-! ## The exception and the ways out of it -/

/-- R203: `abort(cause)`, called by the command whose header word is at CPOS. -/
def State.abort (cause : FatalCause) (s : State) : State :=
  { s with engine := .aborted, fatalCause := cause, fatalCpos := s.cpos }

/-- R183, R234: BEGIN's clear of the per-session state. Together with BEGIN's write of STATE it is the return
from ABORTED (R205). -/
def State.clearSession (s : State) : State :=
  { s with ses := Session.clear, fatalCause := .none, fatalCpos := 0#32 }

/-- R231: reset sets every field of the engine's state to its reset value, but for the responses already pushed; the
model parameters and the words not yet consumed stay (log entry 5), and so does the reset input itself. -/
def State.resetFields (s : State) : State :=
  { s with toEngine := { Engine.reset with resp := s.resp } }

/-- R231, R233: one assertion of the hardware reset input is one atomic reset (log entry 4). -/
def State.hwReset (s : State) : State := { s.resetFields with resetPin := false }

/-- R191: the effect of an illegal header word, one word long. -/
def State.illCmd (s : State) : State :=
  let s := s.gflag .illcmd
  (if s.engine = .active then s.abort .illCmd else s).retire 1

end Sys2Proof.Machine
end

