-- ==== Sys2Proof/Machine/Builder.lean ====
section
/-! DEFINITION. The Record Builder and the digit map: BUILD and MERGE (43_record_builder.md). -/

namespace Sys2Proof.Machine

/-- R42: the order of keys, orbit first. -/
def Key.lt (a b : Key) : Bool := a.orbit.ult b.orbit || (a.orbit == b.orbit && decide (a.bc < b.bc))

/-- R136: the point of the linear timeline that a key names. -/
def Key.time (k : Key) : Nat := k.orbit.toNat * 3564 + k.bc.val

/-- The entry of a key. -/
def lookupKey (k : Key) : List (Key × Entry) → Option Entry
  | [] => none
  | (k', e) :: m => if k' = k then some e else lookupKey k m

/-- Write the entry of a key, in its place in the order (R42). -/
def putKey (k : Key) (e : Entry) : List (Key × Entry) → List (Key × Entry)
  | [] => [(k, e)]
  | (k', e') :: m =>
    if k' = k then (k, e) :: m
    else if k.lt k' then (k, e) :: (k', e') :: m
    else (k', e') :: putKey k e m

/-- R139: SET[ch] of an entry. -/
def Entry.isSet (e : Entry) : Channel → Bool
  | .ir => e.iset
  | .cl => e.cset

/-- R139: MASK[ch] of an entry. -/
def Entry.mask (e : Entry) : Channel → Bits96
  | .ir => e.imask
  | .cl => e.cmask

/-- R139: write MASK[ch] and SET[ch]. -/
def Entry.fill (ch : Channel) (pay : Nat) (e : Entry) : Entry :=
  match ch with
  | .ir => { e with iset := true, imask := BitVec.ofNat 96 pay }
  | .cl => { e with cset := true, cmask := BitVec.ofNat 96 pay }

/-- R42: an entry with no mask written. -/
def Entry.empty : Entry := ⟨false, 0#96, false, 0#96⟩

/-- R139: `MERGE(ch, key, pay)`. -/
def merge (prm : Params) (ch : Channel) (key : Key) (pay : Nat) (ses : Session) : Session :=
  match lookupKey key ses.map with
  | some e =>
    if e.isSet ch then (ses.incDup ch).flag .dup
    else { ses with map := putKey key (e.fill ch pay) ses.map }
  | none =>
    if ses.map.length = prm.mapCap.toNat then ses.flag .mapfull
    else { ses with map := putKey key (Entry.empty.fill ch pay) ses.map }

/-- R132: the payload of a chunk of width `N`. -/
def chunkPay (N : Nat) (c : Chunk) : Nat := slice (N - 1) 12 c

/-- R132: the bunch-crossing id of a chunk. -/
def chunkBc (c : Chunk) : Nat := slice 11 0 c

/-- R131: `BUILD(ch, chunk, orbit)`. -/
def build (cfg : CfgRegs) (prm : Params) (ch : Channel) (c : Chunk) (orbit : Word) (ses : Session) : Session :=
  let bc := chunkBc c
  let pay := chunkPay (cfg.width ch) c
  if pay = 0 then ses
  else if bc ≥ 3564 then ses.flag .bcrange
  else
    let off := cfg.offset ch
    let io : Int := ses.intervalOrbit.toNat
    let t : Int := orbit.toNat * 3564 + bc
    let tc := t - off
    let rejA : Bool := decide (orbit.toNat ≤ ses.intervalOrbit.toNat) && decide ((bc : Int) < off)
    let rejB : Bool := decide (tc < io * 3564)
    if rejA || rejB then
      let ses := ses.incRej ch
      if rejA then ses else ses.flag .clarify
    else
      let o := tc / 3564
      let b := tc % 3564
      if o ≥ 2 ^ 32 then ses.flag .timerange
      else merge prm ch ⟨BitVec.ofNat 32 o.toNat, Fin.ofNat 3564 b.toNat⟩ pay ses

end Sys2Proof.Machine
end

