-- ==== Sys2Proof/Machine/Lumi.lean ====
section
/-! DEFINITION. The Luminosity Accumulator: LUMI_COUNT and LUMI_EMIT (44_lumi_accumulator.md). -/

namespace Sys2Proof.Machine

/-- R153: the payload and the mask share a set bit below `PW[IR]`. -/
def patternMatches (mask : Mask96) (pw pay : Nat) : Bool := (pay &&& (mask.value.toNat % 2 ^ pw)) != 0

/-- R151: `LUMI_COUNT(chunk)`. -/
def lumiCount (cfg : CfgRegs) (c : Chunk) (ses : Session) : Session :=
  let N := cfg.width .ir
  let pay := chunkPay N c
  let ses := if patternMatches cfg.lmaskA (N - 12) pay then ses.incLcntA else ses
  if patternMatches cfg.lmaskB (N - 12) pay then ses.incLcntB else ses

/-- R155: `LUMI_EMIT()`. -/
def lumiEmit (prm : Params) (ses : Session) : Session :=
  let ses :=
    if ses.lumi.length = prm.lumiCap.toNat then ses.flag .lumifull
    else { ses with lumi := ses.lumi ++ [⟨ses.ir.frameOrbit, 0#32, 0#32, ses.lcntA, ses.lcntB⟩] }
  { ses with lcntA := 0#32, lcntB := 0#32 }

end Sys2Proof.Machine
end

