-- ==== Sys2Proof/Machine/Unpacker.lean ====
section
/-! DEFINITION. The Chunk Unpacker, operation UNPACK (42_chunk_unpacker.md). -/

namespace Sys2Proof.Machine

/-- R121: the loop `while n >= N` over the `n` valid bits of `s`, with a bound on its turns. The answer holds the
chunks, the lowest first, and the value and number of the bits left over. -/
def cutLoop (N : Nat) : Nat → Nat → Nat → List Chunk × Nat × Nat
  | 0, s, n => ([], s, n)
  | turns + 1, s, n =>
    if n ≥ N then
      let r := cutLoop N turns (s >>> N) (n - N)
      (s % 2 ^ N :: r.1, r.2)
    else ([], s, n)

/-- R121: `UNPACK(ch, word)` on a remnant `(val, cnt)`. The loop takes one bit at least at every turn where
`N ≥ 1`, so `cnt + 80` turns are enough (log entry 11). -/
def unpack (N val cnt : Nat) (word : Word80) : List Chunk × Nat × Nat :=
  cutLoop N (cnt + 80) (val + word.toNat * 2 ^ cnt) (cnt + 80)

end Sys2Proof.Machine
end

