-- ==== Sys2Proof/Machine/Frame.lean ====
section
/-! DEFINITION. The Frame Orchestrator (45_frame_orchestrator.md). Its operations read the configuration and the
model parameters and write the session state, and nothing else. -/

namespace Sys2Proof.Machine

/-- R170: `DISPATCH_CHUNK(ch, c, orbit)`. -/
def dispatchChunk (cfg : CfgRegs) (prm : Params) (ch : Channel) (orbit : Word) (ses : Session) (c : Chunk) :
    Session :=
  let ses := if ch = .ir ∧ cfg.lumiEn then lumiCount cfg c ses else ses
  if cfg.digitsEn then build cfg prm ch c orbit ses else ses

/-- R169: UNPACK of one word and the dispatch of its chunks, in order. -/
def unpackWord (cfg : CfgRegs) (prm : Params) (ch : Channel) (orbit : Word) (ses : Session) (w : Word80) :
    Session :=
  let r := unpack (cfg.width ch) (ses.chan ch).remVal.toNat (ses.chan ch).remCnt.toNat w
  r.1.foldl (dispatchChunk cfg prm ch orbit) (ses.setRemnant ch r.2.1 r.2.2)

/-- R166: `FRAME_START(ch, ORBIT)`. -/
def frameStart (cfg : CfgRegs) (prm : Params) (ch : Channel) (orbit : Word) (ses : Session) : Session :=
  let ses :=
    match ch with
    | .ir =>
      let ses := if cfg.lumiEn && ses.ir.fopen then lumiEmit prm ses else ses
      { ses with lcntA := 0#32, lcntB := 0#32 }
    | .cl => ses
  let ses := ses.setRemnant ch 0 0
  ses.setChan ch { ses.chan ch with frameOrbit := orbit, fopen := true }

/-- R163: the padding latch. -/
def latchPadding (pad : Bool) (ses : Session) : Session :=
  if ses.wLatched then (if pad = ses.w16 then ses else ses.flag .padmix)
  else { ses with w16 := pad, wLatched := true }

/-- R164: the interval-start orbit latch. -/
def latchOrbit (orbit : Word) (ses : Session) : Session :=
  if ses.ioLatched then ses else { ses with intervalOrbit := orbit, ioLatched := true }

/-- R36: the working value W. -/
def Session.groupBytes (ses : Session) : Nat := if ses.w16 then 16 else 10

/-- R166, R167: the frame-start step of a processed packet. -/
def frameStep (cfg : CfgRegs) (prm : Params) (ch : Channel) (seq : BitVec 16) (orbit trig : Word)
    (ses : Session) : Session :=
  if cfg.isFrameStart trig seq then frameStart cfg prm ch orbit ses
  else if (ses.chan ch).fopen then ses
  else ses.flag .noframe

/-- R168: LAST_ORBIT of a processed packet. -/
def Session.setLastOrbit (ch : Channel) (orbit : Word) (ses : Session) : Session :=
  ses.setChan ch { ses.chan ch with lastOrbit := orbit }

/-- R169: the steps of a processed packet before its payload is assembled. -/
def packetHead (cfg : CfgRegs) (prm : Params) (ch : Channel) (seq : BitVec 16) (orbit trig : Word) (pad : Bool)
    (ses : Session) : Session :=
  (frameStep cfg prm ch seq orbit trig (latchOrbit orbit (latchPadding pad ses))).setLastOrbit ch orbit

/-- R169: the payload of a processed packet. ASSEMBLE flags a trailing partial group (R113). -/
def packetBody (cfg : CfgRegs) (prm : Params) (ch : Channel) (orbit : Word) (bytes : List Byte)
    (ses : Session) : Session :=
  let r := assemble ses.groupBytes bytes
  let ses := if r.2 then ses.flag .partialWord else ses
  r.1.foldl (unpackWord cfg prm ch orbit) ses

/-- R169: `PROCESS_PACKET`. -/
def processPacket (cfg : CfgRegs) (prm : Params) (ch : Channel) (seq : BitVec 16) (orbit trig : Word)
    (pad : Bool) (bytes : List Byte) (ses : Session) : Session :=
  packetBody cfg prm ch orbit bytes (packetHead cfg prm ch seq orbit trig pad ses)

/-- R162, R173: `PKT_DATAPATH`. -/
def pktDatapath (cfg : CfgRegs) (prm : Params) (linkId seq : BitVec 16) (orbit trig : Word) (pad : Bool)
    (bytes : List Byte) (ses : Session) : Session :=
  match cfg.chan linkId with
  | none => ses.incUnkCh.flag .unkch
  | some .ir => processPacket cfg prm .ir seq orbit trig pad bytes ses
  | some .cl => if cfg.digitsEn then processPacket cfg prm .cl seq orbit trig pad bytes ses else ses

/-- R171: `FLUSH(ch)`. -/
def flush (cfg : CfgRegs) (prm : Params) (ch : Channel) (ses : Session) : Session :=
  if (ses.chan ch).remCnt = 0#7 then ses
  else
    dispatchChunk cfg prm ch (ses.chan ch).lastOrbit (ses.setRemnant ch 0 0) (ses.chan ch).remVal.toNat

/-- R172: `END_INTERVAL()`. -/
def endIntervalOps (cfg : CfgRegs) (prm : Params) (ses : Session) : Session :=
  let ses := flush cfg prm .cl (flush cfg prm .ir ses)
  if cfg.lumiEn && ses.ir.fopen then lumiEmit prm ses else ses

end Sys2Proof.Machine
end

