-- ==== Sys2Proof/Machine/Control.lean ====
section
/-! DEFINITION. The commands NOP, BEGIN, END and SRST (46_commands.md R182, R183, R184, R190). -/

namespace Sys2Proof.Machine

/-- R183: BEGIN. -/
def beginOp (s : State) : State :=
  if s.engine = .active then s.gflag .seq
  else
    let s := s.clearSession
    if s.cfg.legal then { s with engine := .active } else s.abort .cfgInvalid

/-- R184: END. -/
def endOp (s : State) : State :=
  match s.engine with
  | .active => { s with ses := endIntervalOps s.cfg s.params s.ses, engine := .done }
  | .aborted => s
  | .idle | .done => s.gflag .seq

/-- NOP (R182). -/
def execNop (s : State) : Host.Outcome State Fault Refusal := .next (s.retire 1)

/-- BEGIN (R183). -/
def execBegin (s : State) : Host.Outcome State Fault Refusal := .next ((beginOp s).retire 1)

/-- END (R184). -/
def execEnd (s : State) : Host.Outcome State Fault Refusal := .next ((endOp s).retire 1)

/-- SRST (R190): CPOS is 0 when it completes. -/
def execSrst (s : State) : Host.Outcome State Fault Refusal := .next s.resetFields

end Sys2Proof.Machine
end

