-- ==== Sys2Proof/Machine/Packet.lean ====
section
/-! DEFINITION. The command PKT (46_commands.md R185). -/

namespace Sys2Proof.Machine

/-- R185: the checks of PKT in the order of R211, and its datapath. -/
def pktOp (pad herr : Bool) (len linkId seq : BitVec 16) (orbit trig : Word) (data : List Word) (s : State) :
    State :=
  match s.engine with
  | .active =>
    if herr then s.abort .hdrErr
    else
      { s with ses := pktDatapath s.cfg s.params linkId seq orbit trig pad (payloadBytes len data) s.ses }
  | .aborted => s
  | .idle | .done => s.gflag .seq

/-- PKT (R185): its words are consumed in every state. -/
def execPkt (pad herr : Bool) (len linkId seq : BitVec 16) (orbit trig : Word) (data : List Word) (s : State) :
    Host.Outcome State Fault Refusal :=
  .next ((pktOp pad herr len linkId seq orbit trig data s).retire (4 + dataWords len))

end Sys2Proof.Machine
end

