-- ==== Sys2Proof/Machine/Readout.lean ====
section
/-! DEFINITION. The readout commands RDDIG and RDLUMI (46_commands.md R188, R189) and their response words
(R93). -/

namespace Sys2Proof.Machine

/-- R93: the eight words of a valid RDDIG response. -/
def digitWords (k : Key) (e : Entry) : List Word :=
  [1#1 ++ BitVec.ofBool e.iset ++ BitVec.ofBool e.cset ++ 0#17 ++ BitVec.ofNat 12 k.bc.val,
   k.orbit,
   e.imask.extractLsb' 0 32, e.imask.extractLsb' 32 32, e.imask.extractLsb' 64 32,
   e.cmask.extractLsb' 0 32, e.cmask.extractLsb' 32 32, e.cmask.extractLsb' 64 32]

/-- R93: the six words of a valid RDLUMI response. -/
def sampleWords (x : LumiSample) : List Word :=
  [0x80000000#32, x.orbit, x.r1, x.r2, x.countA, x.countB]

/-- R188: what RDDIG pushes. The map is kept in ascending (orbit, bc) order (R62). -/
def digitResponse (idx : Word) (s : State) : List Word :=
  match s.engine, s.ses.map[idx.toNat]? with
  | .done, some (k, e) => digitWords k e
  | _, _ => List.replicate 8 0#32

/-- R189: what RDLUMI pushes. -/
def sampleResponse (idx : Word) (s : State) : List Word :=
  match s.engine, s.ses.lumi[idx.toNat]? with
  | .done, some x => sampleWords x
  | _, _ => List.replicate 6 0#32

/-- RDDIG (R188). -/
def execRddig (idx : Word) (s : State) : Host.Outcome State Fault Refusal :=
  .next ((s.respPush (digitResponse idx s)).retire 2)

/-- RDLUMI (R189). -/
def execRdlumi (idx : Word) (s : State) : Host.Outcome State Fault Refusal :=
  .next ((s.respPush (sampleResponse idx s)).retire 2)

end Sys2Proof.Machine
end

