-- ==== Sys2Proof/Machine/Csr.lean ====
section
/-! DEFINITION. The register space: the register map of R47, the classes of R24, what a read gives (R48) and what a
write keeps (R193). -/

namespace Sys2Proof.Machine

/-- R47: the assigned registers. -/
inductive Csr where
  | id | ctrl | npldIr | npldCl | offC | lat1 | lat2 | fsMask | chsel
  | lmaskA0 | lmaskA1 | lmaskA2 | lmaskB0 | lmaskB1 | lmaskB2
  | status | ierr | gerr | fatalCpos | cpos | intervalOrbit
  | frameOrbitIr | frameOrbitCl | lastOrbitIr | lastOrbitCl | remCntIr | remCntCl
  | remValIr0 | remValIr1 | remValIr2 | remValCl0 | remValCl1 | remValCl2
  | rejIr | rejCl | dupIr | dupCl | unkCh | lcntA | lcntB
  | digitCount | lumiCount | mapCap | lumiCap
  deriving DecidableEq, Repr

/-- R24: the classes of an index. -/
inductive CsrClass where
  | cfg | ro | roSticky | unassigned
  deriving DecidableEq, Repr

/-- R47: the register at an index; nothing where the index is unassigned. -/
def csrAt (idx : BitVec 8) : Option Csr :=
  match idx.toNat with
  | 0x00 => some .id
  | 0x01 => some .ctrl
  | 0x02 => some .npldIr
  | 0x03 => some .npldCl
  | 0x04 => some .offC
  | 0x05 => some .lat1
  | 0x06 => some .lat2
  | 0x07 => some .fsMask
  | 0x08 => some .chsel
  | 0x09 => some .lmaskA0
  | 0x0A => some .lmaskA1
  | 0x0B => some .lmaskA2
  | 0x0C => some .lmaskB0
  | 0x0D => some .lmaskB1
  | 0x0E => some .lmaskB2
  | 0x10 => some .status
  | 0x11 => some .ierr
  | 0x12 => some .gerr
  | 0x13 => some .fatalCpos
  | 0x14 => some .cpos
  | 0x15 => some .intervalOrbit
  | 0x16 => some .frameOrbitIr
  | 0x17 => some .frameOrbitCl
  | 0x18 => some .lastOrbitIr
  | 0x19 => some .lastOrbitCl
  | 0x1A => some .remCntIr
  | 0x1B => some .remCntCl
  | 0x1C => some .remValIr0
  | 0x1D => some .remValIr1
  | 0x1E => some .remValIr2
  | 0x1F => some .remValCl0
  | 0x20 => some .remValCl1
  | 0x21 => some .remValCl2
  | 0x22 => some .rejIr
  | 0x23 => some .rejCl
  | 0x24 => some .dupIr
  | 0x25 => some .dupCl
  | 0x26 => some .unkCh
  | 0x27 => some .lcntA
  | 0x28 => some .lcntB
  | 0x29 => some .digitCount
  | 0x2A => some .lumiCount
  | 0x2B => some .mapCap
  | 0x2C => some .lumiCap
  | _ => none

/-- R47: the class of a register. -/
def Csr.cls : Csr → CsrClass
  | .ctrl | .npldIr | .npldCl | .offC | .lat1 | .lat2 | .fsMask | .chsel
  | .lmaskA0 | .lmaskA1 | .lmaskA2 | .lmaskB0 | .lmaskB1 | .lmaskB2 => .cfg
  | .ierr | .gerr => .roSticky
  | .id | .status | .fatalCpos | .cpos | .intervalOrbit
  | .frameOrbitIr | .frameOrbitCl | .lastOrbitIr | .lastOrbitCl | .remCntIr | .remCntCl
  | .remValIr0 | .remValIr1 | .remValIr2 | .remValCl0 | .remValCl1 | .remValCl2
  | .rejIr | .rejCl | .dupIr | .dupCl | .unkCh | .lcntA | .lcntB
  | .digitCount | .lumiCount | .mapCap | .lumiCap => .ro

/-- R24: the class of an index. -/
def csrClass (idx : BitVec 8) : CsrClass :=
  match csrAt idx with
  | some r => r.cls
  | none => .unassigned

/-- R32: the value of STATUS. -/
def State.status (s : State) : Word :=
  0#20 ++ s.fatalCause.code ++ 0#1 ++ BitVec.ofBool s.ses.cl.fopen ++ BitVec.ofBool s.ses.ir.fopen
    ++ BitVec.ofBool s.ses.ioLatched ++ BitVec.ofBool s.ses.w16 ++ BitVec.ofBool s.ses.wLatched ++ s.engine.code

/-- R48: the value a read of a register gives; reserved and unused high bits read 0. -/
def Csr.value (s : State) : Csr → Word
  | .id => Config.idValue
  | .ctrl => 0#30 ++ BitVec.ofBool s.cfg.lumiEn ++ BitVec.ofBool s.cfg.digitsEn
  | .npldIr => s.cfg.npldIr.setWidth 32
  | .npldCl => s.cfg.npldCl.setWidth 32
  | .offC => s.cfg.offC.setWidth 32
  | .lat1 => s.cfg.lat1.setWidth 32
  | .lat2 => s.cfg.lat2.setWidth 32
  | .fsMask => s.cfg.fsMask
  | .chsel => 0#24 ++ s.cfg.clCode ++ s.cfg.irCode
  | .lmaskA0 => s.cfg.lmaskA.w0
  | .lmaskA1 => s.cfg.lmaskA.w1
  | .lmaskA2 => s.cfg.lmaskA.w2
  | .lmaskB0 => s.cfg.lmaskB.w0
  | .lmaskB1 => s.cfg.lmaskB.w1
  | .lmaskB2 => s.cfg.lmaskB.w2
  | .status => s.status
  | .ierr => s.ses.ierr.setWidth 32
  | .gerr => s.gerr.setWidth 32
  | .fatalCpos => s.fatalCpos
  | .cpos => s.cpos
  | .intervalOrbit => s.ses.intervalOrbit
  | .frameOrbitIr => s.ses.ir.frameOrbit
  | .frameOrbitCl => s.ses.cl.frameOrbit
  | .lastOrbitIr => s.ses.ir.lastOrbit
  | .lastOrbitCl => s.ses.cl.lastOrbit
  | .remCntIr => s.ses.ir.remCnt.setWidth 32
  | .remCntCl => s.ses.cl.remCnt.setWidth 32
  | .remValIr0 => (s.ses.ir.remVal.setWidth 96).extractLsb' 0 32
  | .remValIr1 => (s.ses.ir.remVal.setWidth 96).extractLsb' 32 32
  | .remValIr2 => (s.ses.ir.remVal.setWidth 96).extractLsb' 64 32
  | .remValCl0 => (s.ses.cl.remVal.setWidth 96).extractLsb' 0 32
  | .remValCl1 => (s.ses.cl.remVal.setWidth 96).extractLsb' 32 32
  | .remValCl2 => (s.ses.cl.remVal.setWidth 96).extractLsb' 64 32
  | .rejIr => s.ses.ir.rej
  | .rejCl => s.ses.cl.rej
  | .dupIr => s.ses.ir.dup
  | .dupCl => s.ses.cl.dup
  | .unkCh => s.ses.unkCh
  | .lcntA => s.ses.lcntA
  | .lcntB => s.ses.lcntB
  | .digitCount => BitVec.ofNat 32 s.ses.map.length
  | .lumiCount => BitVec.ofNat 32 s.ses.lumi.length
  | .mapCap => s.params.mapCap
  | .lumiCap => s.params.lumiCap

/-- R193: the fields of a CFG register that a write of `v` sets; a register of another class keeps
everything. -/
def CfgRegs.write (cfg : CfgRegs) (v : Word) : Csr → CfgRegs
  | .ctrl => { cfg with digitsEn := v.getLsbD 0, lumiEn := v.getLsbD 1 }
  | .npldIr => { cfg with npldIr := v.extractLsb' 0 7 }
  | .npldCl => { cfg with npldCl := v.extractLsb' 0 7 }
  | .offC => { cfg with offC := v.extractLsb' 0 16 }
  | .lat1 => { cfg with lat1 := v.extractLsb' 0 16 }
  | .lat2 => { cfg with lat2 := v.extractLsb' 0 16 }
  | .fsMask => { cfg with fsMask := v }
  | .chsel => { cfg with irCode := v.extractLsb' 0 4, clCode := v.extractLsb' 4 4 }
  | .lmaskA0 => { cfg with lmaskA := { cfg.lmaskA with w0 := v } }
  | .lmaskA1 => { cfg with lmaskA := { cfg.lmaskA with w1 := v } }
  | .lmaskA2 => { cfg with lmaskA := { cfg.lmaskA with w2 := v } }
  | .lmaskB0 => { cfg with lmaskB := { cfg.lmaskB with w0 := v } }
  | .lmaskB1 => { cfg with lmaskB := { cfg.lmaskB with w1 := v } }
  | .lmaskB2 => { cfg with lmaskB := { cfg.lmaskB with w2 := v } }
  | .id | .status | .ierr | .gerr | .fatalCpos | .cpos | .intervalOrbit
  | .frameOrbitIr | .frameOrbitCl | .lastOrbitIr | .lastOrbitCl | .remCntIr | .remCntCl
  | .remValIr0 | .remValIr1 | .remValIr2 | .remValCl0 | .remValCl1 | .remValCl2
  | .rejIr | .rejCl | .dupIr | .dupCl | .unkCh | .lcntA | .lcntB
  | .digitCount | .lumiCount | .mapCap | .lumiCap => cfg

end Sys2Proof.Machine
end

