-- ==== Sys2Proof/Machine/Registers.lean ====
section
/-! DEFINITION. The register commands CSRW and CSRR (46_commands.md R186, R187). -/

namespace Sys2Proof.Machine

/-- R186 with R24, R49, R193. -/
def csrWrite (csr : BitVec 8) (v : Word) (s : State) : State :=
  match csrAt csr with
  | some r =>
    if r.cls = .cfg then
      if s.engine = .active then s.gflag .cfglock
      else { s with cfg := s.cfg.write v r }
    else s.gflag .badcsr
  | none => s.gflag .badcsr

/-- R187 with R48, R24. -/
def csrRead (csr : BitVec 8) (s : State) : State :=
  match csrAt csr with
  | some r => s.respPush [r.value s]
  | none => (s.respPush [0#32]).gflag .badcsr

/-- CSRW (R186). -/
def execCsrw (csr : BitVec 8) (v : Word) (s : State) : Host.Outcome State Fault Refusal :=
  .next ((csrWrite csr v s).retire 2)

/-- CSRR (R187); CSRR of CPOS pushes the position of the CSRR itself. -/
def execCsrr (csr : BitVec 8) (s : State) : Host.Outcome State Fault Refusal :=
  .next ((csrRead csr s).retire 1)

end Sys2Proof.Machine
end

