-- ==== Sys2Proof/Machine/Dispatch.lean ====
section
/-! DEFINITION. One command: which meaning each constructor of Instr has (46_commands.md). -/

namespace Sys2Proof.Machine

def exec (i : Instr) (s : State) : Host.Outcome State Fault Refusal :=
  match i with
  | .nop => Sys2Proof.Machine.execNop s
  | .beginInterval => Sys2Proof.Machine.execBegin s
  | .endInterval => Sys2Proof.Machine.execEnd s
  | .csrw csr v => Sys2Proof.Machine.execCsrw csr v s
  | .csrr csr => Sys2Proof.Machine.execCsrr csr s
  | .pkt pad herr len linkId seq orbit trig data => Sys2Proof.Machine.execPkt pad herr len linkId seq orbit trig data s
  | .rddig idx => Sys2Proof.Machine.execRddig idx s
  | .rdlumi idx => Sys2Proof.Machine.execRdlumi idx s
  | .srst => Sys2Proof.Machine.execSrst s

end Sys2Proof.Machine
end

