-- ==== Sys2Proof/Machine/Step.lean ====
section
/-! DEFINITION. The command step (46_commands.md R181) and where it takes its next command from. -/

namespace Sys2Proof.Machine

/-- R181, R231, R241: a pending hardware reset is one step; else the next command of the stream runs, with CPOS at
its header word; an illegal header word runs ILLCMD; without a whole command the engine waits. -/
def step (s : State) : Host.Outcome State Fault Refusal :=
  if s.resetPin then .next s.hwReset
  else
    match decode s.input with
    | .ok (i, rest) => exec i { s with input := rest }
    | .error .unassignedOpcode => .next { s with input := s.input.tail }.illCmd
    | .error .reservedField => .next { s with input := s.input.tail }.illCmd
    | .error .noHeader => .fault .waitingForHeader
    | .error .truncated => .fault .waitingForOperand

/-- R51: the step relation as the spec has it, with the command words, the model parameters and the reset input as
arguments and none of them in the engine's state. -/
def Engine.stepWith (prm : Params) (words : List Word) (rst : Bool) (e : Engine) : Host.Outcome State Fault Refusal :=
  step (e.withArgs prm words rst)

/-- The words of one command of the opcode table put at the front of the command stream, and the reset input
released (log entry 1, log entry 4): the very next step runs that command. -/
def State.withFetchWord (s : State) (nbits w : Nat) : State :=
  { s with input := tableStream nbits w ++ s.input, resetPin := false }

end Sys2Proof.Machine
end

