-- ==== Sys2Proof/Safety.lean ====
section
/-! DEFINITION. What a claim about an interval's outputs takes as its premise (R218), and the invariants of the
engine that the claims name. -/

namespace Sys2Proof.Machine

/-- spec/opcode_table.json: the mask and the match value of each command's header word. -/
def opcodeRow : Instr → Word × Word
  | .nop => (0xFFFFFFFF#32, 0x00000000#32)
  | .beginInterval => (0xFFFFFFFF#32, 0x01000000#32)
  | .endInterval => (0xFFFFFFFF#32, 0x02000000#32)
  | .csrw _ _ => (0xFF00FFFF#32, 0x03000000#32)
  | .csrr _ => (0xFF00FFFF#32, 0x04000000#32)
  | .pkt _ _ _ _ _ _ _ _ => (0xFFFC0000#32, 0x05000000#32)
  | .rddig _ => (0xFFFFFFFF#32, 0x06000000#32)
  | .rdlumi _ => (0xFFFFFFFF#32, 0x07000000#32)
  | .srst => (0xFFFFFFFF#32, 0x0F000000#32)

/-- R193: the index of every CFG register and the mask of the bits it keeps. -/
def cfgFieldMasks : List (BitVec 8 × Word) :=
  [(0x01#8, 0x00000003#32), (0x02#8, 0x0000007F#32), (0x03#8, 0x0000007F#32), (0x04#8, 0x0000FFFF#32),
   (0x05#8, 0x0000FFFF#32), (0x06#8, 0x0000FFFF#32), (0x07#8, 0xFFFFFFFF#32), (0x08#8, 0x000000FF#32),
   (0x09#8, 0xFFFFFFFF#32), (0x0A#8, 0xFFFFFFFF#32), (0x0B#8, 0xFFFFFFFF#32), (0x0C#8, 0xFFFFFFFF#32),
   (0x0D#8, 0xFFFFFFFF#32), (0x0E#8, 0xFFFFFFFF#32)]

/-- What a read of an index gives (R48); nothing where the index is unassigned. -/
def State.readCsr (s : State) (idx : BitVec 8) : Option Word := (csrAt idx).map fun r => r.value s

/-- R218: the IERR bits that mark a case resting on a decision of the spec; DUP and UNKCH are not among them. -/
def faultClassBits : List IErrBit :=
  [.noframe, .padmix, .partialWord, .bcrange, .timerange, .clarify, .mapfull, .lumifull, .cntovf]

/-- R218: none of the conditions under which no claim about the outputs holds. -/
def State.clean (s : State) : Bool :=
  s.engine != .aborted && s.gerr == 0#4 && faultClassBits.all fun b => !s.ses.hasFlag b

/-- R125: UNPACK of successive words of one channel, from a remnant `(val, cnt)`; all the chunks in order, and the
remnant that is left. -/
def unpackAll (N : Nat) : List Word80 → Nat → Nat → List Chunk × Nat × Nat
  | [], val, cnt => ([], val, cnt)
  | w :: ws, val, cnt =>
    let r := unpack N val cnt w
    let q := unpackAll N ws r.2.1 r.2.2
    (r.1 ++ q.1, q.2)

/-- R125: the bit stream `sum_i w_i * 2^(80 i)`. -/
def wordStream : List Word80 → Nat
  | [] => 0
  | w :: ws => w.toNat + 2 ^ 80 * wordStream ws

/-- R39, R123, R183: the bits above REM_CNT are 0; while an interval is open the configuration is one that BEGIN
accepts and each remnant is shorter than its channel's chunks. -/
def State.RemnantInv (s : State) : Prop :=
  (∀ ch, (s.ses.chan ch).remVal.toNat < 2 ^ (s.ses.chan ch).remCnt.toNat) ∧
  (s.engine = .active → s.cfg.legal = true ∧ ∀ ch, (s.ses.chan ch).remCnt.toNat < s.cfg.width ch)

/-- R42, R62: the keys rise strictly, orbit first. -/
abbrev SortedMap (m : List (Key × Entry)) : Prop := m.Pairwise (fun a b => a.1.lt b.1 = true)

/-- R42, R62: the keys rise strictly, and there are at most MAP_CAP of them. -/
def State.MapInv (s : State) : Prop := SortedMap s.ses.map ∧ s.ses.map.length ≤ s.params.mapCap.toNat

/-- R42, R142: a mask whose set bit is 0 is 0, and every entry has a mask that was set. -/
def Entry.WellSet (e : Entry) : Prop :=
  (e.iset = false → e.imask = 0#96) ∧ (e.cset = false → e.cmask = 0#96) ∧ (e.iset = true ∨ e.cset = true)

/-- R42, R142 over the whole map. -/
def State.EntryInv (s : State) : Prop := ∀ p ∈ s.ses.map, p.2.WellSet

/-- R42, R93: while an interval is open a mask has no bit at or above the payload width of its channel. -/
def State.MaskWidthInv (s : State) : Prop :=
  s.engine = .active → s.cfg.legal = true ∧
    ∀ p ∈ s.ses.map, p.2.imask.toNat < 2 ^ (s.cfg.width .ir - 12) ∧ p.2.cmask.toNat < 2 ^ (s.cfg.width .cl - 12)

/-- R137, R164: until the interval-start orbit is latched there is nothing to record, and no digit lies before
it. -/
def State.IntervalInv (s : State) : Prop :=
  (s.ses.ioLatched = false → s.ses.map = [] ∧ ∀ ch, (s.ses.chan ch).remCnt = 0#7) ∧
  ∀ p ∈ s.ses.map, s.ses.intervalOrbit.toNat ≤ p.1.orbit.toNat

/-- R43: at most LUMI_CAP samples, their reserved fields 0. -/
def State.LumiInv (s : State) : Prop :=
  s.ses.lumi.length ≤ s.params.lumiCap.toNat ∧ ∀ x ∈ s.ses.lumi, x.r1 = 0#32 ∧ x.r2 = 0#32

/-- R23, R35, R203: STATE is ABORTED exactly where a cause is recorded, and without one FATAL_CPOS is 0. -/
def State.AbortInv (s : State) : Prop :=
  (s.engine = .aborted ↔ s.fatalCause ≠ .none) ∧ (s.fatalCause = .none → s.fatalCpos = 0#32)

/-- R143, R152, R173: in an open interval an output that is not enabled leaves no trace. -/
def State.GateInv (s : State) : Prop :=
  s.engine = .active →
    (s.cfg.digitsEn = false →
      s.ses.map = [] ∧ s.ses.cl = ChanState.clear ∧ s.ses.ir.rej = 0#32 ∧ s.ses.ir.dup = 0#32) ∧
    (s.cfg.lumiEn = false → s.ses.lumi = [] ∧ s.ses.lcntA = 0#32 ∧ s.ses.lcntB = 0#32)

/-- R23, R184: before the first interval the session is empty, and after END both remnants are. -/
def State.BoundaryInv (s : State) : Prop :=
  (s.engine = .idle → s.ses = Session.clear) ∧ (s.engine = .done → ∀ ch, (s.ses.chan ch).remCnt = 0#7)

end Sys2Proof.Machine
end

