-- ==== Sys2Proof/Certificates/Slice0/Obligations.lean ====
section
/-! DEFINITION. The statements for the provers: what spec/ says of CTP-BRE, as propositions about the model. -/

open Sys2Proof Sys2Proof.Machine

/-! ## Encoding (30_encoding.md) -/

/-- R82 to R88: decoding the words of a well-formed command gives the command back, whatever follows it. -/
def Obligations.DecodeEncodeRoundTrip : Prop :=
  ∀ (i : Instr) (rest : List Word), i.wellFormed = true → decode (encode i ++ rest) = .ok (i, rest)

/-- R88: the words that decode to a command are exactly that command's encoding, so each command has one
encoding, and what is decoded is well formed. -/
def Obligations.DecodedWordsAreTheEncoding : Prop :=
  ∀ (ws : List Word) (i : Instr) (rest : List Word), decode ws = .ok (i, rest) →
    i.wellFormed = true ∧ ws = encode i ++ rest

/-- R89: exactly the header words with an unassigned opcode or a nonzero reserved field are illegal; such a header has
length 1, and the words after it are decoded as new commands. The fields are taken by arithmetic on the word's
number. -/
def Obligations.IllegalHeaderWords : Prop :=
  ∀ (h : Word) (rest : List Word),
    let opc := h.toNat / 2 ^ 24
    let a := h.toNat / 2 ^ 16 % 2 ^ 8
    let b := h.toNat % 2 ^ 16
    ((decode (h :: rest) = .error .unassignedOpcode ∨ decode (h :: rest) = .error .reservedField) ↔
      ((8 ≤ opc ∧ opc ≠ 15) ∨ (opc ∈ [0, 1, 2, 15] ∧ (a ≠ 0 ∨ b ≠ 0)) ∨ (opc ∈ [3, 4] ∧ b ≠ 0) ∨
        (opc = 5 ∧ 4 ≤ a) ∨ (opc ∈ [6, 7] ∧ (a ≠ 0 ∨ b ≠ 0)))) ∧
    ((decode (h :: rest) = .error .unassignedOpcode ∨ decode (h :: rest) = .error .reservedField) →
      ∀ s : State, s.resetPin = false → s.input = h :: rest →
        ∃ t, step s = .next t ∧ t.input = rest ∧ t.cpos = s.cpos + 1#32)

/-- R82: the header word alone decides how many words a command takes, and they are as the table has them; an illegal
header takes one. -/
def Obligations.LengthFromHeaderWord : Prop :=
  ∀ (h : Word) (rest : List Word),
    (∀ i rest', decode (h :: rest) = .ok (i, rest') →
      rest.length + 1 = headerLength h + rest'.length ∧
      headerLength h =
        match i with
        | .nop | .beginInterval | .endInterval | .srst | .csrr _ => 1
        | .csrw _ _ | .rddig _ | .rdlumi _ => 2
        | .pkt _ _ len _ _ _ _ _ => 4 + (len.toNat + 3) / 4) ∧
    (decode (h :: rest) = .error .unassignedOpcode ∨ decode (h :: rest) = .error .reservedField →
      headerLength h = 1)

/-- spec/opcode_table.json: a header word decodes to a command exactly where it matches that command's row. With its operand
words present a word that matches a row decodes to a command of that row, which takes just those words; without them
it waits for them; and a word that matches no row is illegal. The rows are pairwise different, so the row names the
command. -/
def Obligations.OpcodeTableRows : Prop :=
  (∀ (h : Word) (rest : List Word) (i : Instr) (rest' : List Word), decode (h :: rest) = .ok (i, rest') →
    h &&& (opcodeRow i).1 = (opcodeRow i).2) ∧
  (∀ (h : Word) (rest : List Word) (i : Instr), h &&& (opcodeRow i).1 = (opcodeRow i).2 →
    let operands :=
      match i with
      | .nop | .beginInterval | .endInterval | .srst | .csrr _ => 0
      | .csrw _ _ | .rddig _ | .rdlumi _ => 1
      | .pkt _ _ _ _ _ _ _ _ => 3 + (h.toNat % 2 ^ 16 + 3) / 4
    (operands ≤ rest.length →
      ∃ j, decode (h :: rest) = .ok (j, rest.drop operands) ∧ opcodeRow j = opcodeRow i) ∧
    (rest.length < operands → decode (h :: rest) = .error .truncated)) ∧
  (∀ (h : Word) (rest : List Word), (∀ i, h &&& (opcodeRow i).1 ≠ (opcodeRow i).2) →
    decode (h :: rest) = .error .unassignedOpcode ∨ decode (h :: rest) = .error .reservedField)

/-- R83 to R87: one word of each family, written out from the formats, decodes to the command it stands for. -/
def Obligations.SpecWordsDecode : Prop :=
  decode [0x00000000#32] = .ok (.nop, []) ∧
  decode [0x01000000#32] = .ok (.beginInterval, []) ∧
  decode [0x02000000#32] = .ok (.endInterval, []) ∧
  decode [0x03040000#32, 0x00010064#32] = .ok (.csrw 0x04#8 0x00010064#32, []) ∧
  decode [0x041A0000#32] = .ok (.csrr 0x1A#8, []) ∧
  decode [0x05020005#32, 0x00070100#32, 0x00000009#32, 0x00000002#32, 0x04030201#32, 0x00000005#32] =
    .ok (.pkt false true 5#16 0x0100#16 7#16 9#32 2#32 [0x04030201#32, 0x00000005#32], []) ∧
  decode [0x06000000#32, 0x00000001#32] = .ok (.rddig 1#32, []) ∧
  decode [0x07000000#32, 0x00000002#32] = .ok (.rdlumi 2#32, []) ∧
  decode [0x0F000000#32] = .ok (.srst, [])

/-! ## The step (46_commands.md R181, R191; 70_reset_and_hazards.md) -/

/-- R181: with no reset pending, one step runs exactly the command at the front of the stream, at CPOS of its header
word, an illegal header runs ILLCMD, and without a whole command there is no step. -/
def Obligations.StepRunsOneCommand : Prop :=
  ∀ s : State, s.resetPin = false →
    (∀ i rest, decode s.input = .ok (i, rest) → step s = exec i { s with input := rest }) ∧
    (decode s.input = .error .unassignedOpcode ∨ decode s.input = .error .reservedField →
      step s = .next ({ s with input := s.input.tail } : State).illCmd) ∧
    (decode s.input = .error .noHeader ∨ decode s.input = .error .truncated → ∀ t, step s ≠ .next t)

/-- R191: the whole effect of an illegal header word; the interval aborts only while one is open. -/
def Obligations.IllegalCommandEffect : Prop :=
  ∀ s : State, s.resetPin = false →
    (decode s.input = .error .unassignedOpcode ∨ decode s.input = .error .reservedField) →
    (s.engine = .active →
      step s = .next { s with
        input := s.input.tail, cpos := s.cpos + 1#32, gerr := s.gerr ||| 1#4,
        engine := .aborted, fatalCause := .illCmd, fatalCpos := s.cpos }) ∧
    (s.engine ≠ .active →
      step s = .next { s with input := s.input.tail, cpos := s.cpos + 1#32, gerr := s.gerr ||| 1#4 })

/-- R241, R66: a stream that ends inside a command, or before a header, leaves the engine waiting: no step. That the
wait is a fault of `step` is the model's choice (log entry 3). -/
def Obligations.CutStreamIsStuck : Prop :=
  ∀ (s : State) (i : Instr) (ws : List Word), s.resetPin = false → i.wellFormed = true →
    ws <+: encode i → ws ≠ encode i → s.input = ws →
    step s = .fault (if ws = [] then .waitingForHeader else .waitingForOperand)

/-- R90, D40: a command whose words have all arrived is never refused and never waits, whatever its operands and the
state; it consumes its own words and no others. -/
def Obligations.WholeCommandCompletes : Prop :=
  ∀ (s : State) (i : Instr) (rest : List Word), s.resetPin = false → i.wellFormed = true →
    s.input = encode i ++ rest → ∃ t, step s = .next t ∧ t.input = rest

/-- R231, R190: SRST and the hardware reset have the same effect: every field of 10_state.md takes its reset value, the
model parameters and the responses already pushed stay, and CPOS is 0. -/
def Obligations.BothResets : Prop :=
  ∀ s : State,
    (∃ t, exec .srst s = .next t ∧ t.engine = .idle ∧ t.cpos = 0#32 ∧ t.cfg = CfgRegs.reset ∧ t.gerr = 0#4 ∧
      t.fatalCause = .none ∧ t.fatalCpos = 0#32 ∧ t.ses = Session.clear ∧ t.resp = s.resp ∧ t.params = s.params) ∧
    (s.resetPin = true → ∃ t, step s = .next t ∧ t.engine = .idle ∧ t.cpos = 0#32 ∧ t.cfg = CfgRegs.reset ∧
      t.gerr = 0#4 ∧ t.fatalCause = .none ∧ t.fatalCpos = 0#32 ∧ t.ses = Session.clear ∧ t.resp = s.resp ∧
      t.params = s.params)

/-- R47, R232: what every assigned register reads in the reset state: the nonzero ones by name, MAP_CAP and LUMI_CAP the
model parameters, whatever they are, and every other one 0. (The widths 60 and 76, FS_MASK and CHSEL are values that
the spec marks as general knowledge.) -/
def Obligations.RegistersAtReset : Prop :=
  State.reset.toEngine = Engine.reset ∧
  ∀ (prm : Params) (words : List Word) (rst : Bool),
    let s := Engine.reset.withArgs prm words rst
    (∀ p ∈ [(0x00#8, 0x43545001#32), (0x02#8, 60#32), (0x03#8, 76#32), (0x07#8, 0x00000802#32), (0x08#8, 0x00000010#32),
        (0x2B#8, prm.mapCap), (0x2C#8, prm.lumiCap)],
      s.readCsr p.1 = some p.2) ∧
    (∀ n ∈ [0x01, 0x04, 0x05, 0x06, 0x09, 0x0A, 0x0B, 0x0C, 0x0D, 0x0E, 0x10, 0x11, 0x12, 0x13, 0x14, 0x15, 0x16, 0x17, 0x18,
        0x19, 0x1A, 0x1B, 0x1C, 0x1D, 0x1E, 0x1F, 0x20, 0x21, 0x22, 0x23, 0x24, 0x25, 0x26, 0x27, 0x28, 0x29, 0x2A],
      s.readCsr (BitVec.ofNat 8 n) = some 0#32)

/-- R195, R22: CPOS moves only by the number of words consumed, modulo 2^32, and by SRST, which sets it to 0. -/
def Obligations.CposCountsConsumedWords : Prop :=
  ∀ s t : State, s.resetPin = false → step s = .next t →
    (∃ rest, decode s.input = .ok (.srst, rest) ∧ t.cpos = 0#32) ∨
    (t.input.length < s.input.length ∧ t.cpos = s.cpos + BitVec.ofNat 32 (s.input.length - t.input.length))

/-! ## Rules of the whole machine -/

/-- R23, R192: the only ways STATE changes in a step: SRST or the hardware reset to IDLE, BEGIN outside ACTIVE to ACTIVE or
(exactly where the configuration is not one that R183 accepts) ABORTED, END in ACTIVE to DONE, and a HERR packet or an
illegal header in ACTIVE to ABORTED. -/
def Obligations.OnlyTheseChangeTheEngineState : Prop :=
  ∀ s t : State, step s = .next t → t.engine ≠ s.engine →
    (s.resetPin = true ∧ t.engine = .idle) ∨
    (s.resetPin = false ∧
      ((∃ rest, decode s.input = .ok (.srst, rest) ∧ t.engine = .idle) ∨
       (∃ rest, decode s.input = .ok (.beginInterval, rest) ∧ s.engine ≠ .active ∧
         (13 ≤ s.cfg.npldIr.toNat ∧ s.cfg.npldIr.toNat ≤ 79 ∧ 13 ≤ s.cfg.npldCl.toNat ∧ s.cfg.npldCl.toNat ≤ 79 ∧
           s.cfg.irCode ≠ s.cfg.clCode → t.engine = .active) ∧
         (¬ (13 ≤ s.cfg.npldIr.toNat ∧ s.cfg.npldIr.toNat ≤ 79 ∧ 13 ≤ s.cfg.npldCl.toNat ∧
           s.cfg.npldCl.toNat ≤ 79 ∧ s.cfg.irCode ≠ s.cfg.clCode) → t.engine = .aborted)) ∨
       (∃ rest, decode s.input = .ok (.endInterval, rest) ∧ s.engine = .active ∧ t.engine = .done) ∨
       (∃ pad len link seq orbit trig data rest,
         decode s.input = .ok (.pkt pad true len link seq orbit trig data, rest) ∧
         s.engine = .active ∧ t.engine = .aborted) ∨
       ((decode s.input = .error .unassignedOpcode ∨ decode s.input = .error .reservedField) ∧
         s.engine = .active ∧ t.engine = .aborted)))

/-- R210: a step other than a reset leaves a GERR bit set exactly where it was set before or the step is one of the bit's
causes. CFG registers are the indexes 0x01 to 0x0E, unassigned ones 0x0F and 0x2D to 0xFF (R24, R47). -/
def Obligations.CausesOfGlobalErrors : Prop :=
  ∀ s t : State, s.resetPin = false → (∀ rest, decode s.input ≠ .ok (.srst, rest)) → step s = .next t →
    (t.hasGflag .illcmd = true ↔ s.hasGflag .illcmd = true ∨
      decode s.input = .error .unassignedOpcode ∨ decode s.input = .error .reservedField) ∧
    (t.hasGflag .seq = true ↔ s.hasGflag .seq = true ∨
      (s.engine = .active ∧ ∃ rest, decode s.input = .ok (.beginInterval, rest)) ∨
      ((s.engine = .idle ∨ s.engine = .done) ∧
        ((∃ rest, decode s.input = .ok (.endInterval, rest)) ∨
          ∃ pad herr len link seq orbit trig data rest,
            decode s.input = .ok (.pkt pad herr len link seq orbit trig data, rest)))) ∧
    (t.hasGflag .cfglock = true ↔ s.hasGflag .cfglock = true ∨
      (s.engine = .active ∧ ∃ csr v rest, decode s.input = .ok (.csrw csr v, rest) ∧
        1 ≤ csr.toNat ∧ csr.toNat ≤ 0x0E)) ∧
    (t.hasGflag .badcsr = true ↔ s.hasGflag .badcsr = true ∨
      (∃ csr v rest, decode s.input = .ok (.csrw csr v, rest) ∧ ¬ (1 ≤ csr.toNat ∧ csr.toNat ≤ 0x0E)) ∨
      ∃ csr rest, decode s.input = .ok (.csrr csr, rest) ∧ (csr.toNat = 0x0F ∨ 0x2C < csr.toNat))

/-- R49: while an interval is open a CSRW of a CFG register only sets GERR.CFGLOCK, and no command but SRST changes
any configuration. -/
def Obligations.ConfigurationLockedWhileActive : Prop :=
  ∀ s : State, s.engine = .active →
    (∀ (csr : BitVec 8) (v : Word), csrClass csr = .cfg →
      exec (.csrw csr v) s = .next { s with gerr := s.gerr ||| 4#4, cpos := s.cpos + 2#32 }) ∧
    (∀ (i : Instr) (t : State), i ≠ .srst → exec i s = .next t → t.cfg = s.cfg)

/-- R209: a GERR bit once set stays set until SRST or the hardware reset, an IERR bit until BEGIN or those; no other
step clears a bit. -/
def Obligations.ErrorBitsAreSticky : Prop :=
  ∀ s t : State, s.resetPin = false → (∀ rest, decode s.input ≠ .ok (.srst, rest)) → step s = .next t →
    (∀ b, s.hasGflag b = true → t.hasGflag b = true) ∧
    ((∀ rest, decode s.input ≠ .ok (.beginInterval, rest)) → ∀ b, s.ses.hasFlag b = true → t.ses.hasFlag b = true)

/-- R194: how many words each step appends to the response stream; the words pushed before stay in front. -/
def Obligations.ResponsesPerCommand : Prop :=
  ∀ s t : State, s.resetPin = false → step s = .next t →
    ∃ ws, t.resp = s.resp ++ ws ∧
      ws.length =
        match decode s.input with
        | .ok (.csrr _, _) => 1
        | .ok (.rddig _, _) => 8
        | .ok (.rdlumi _, _) => 6
        | _ => 0

/-- R22, R46, R70, R73, R192, R203, R234: the frame of every command over the whole state: which commands can change each part
of it, and what each does to CPOS. No command changes the model parameters or takes words of a later command. -/
def Obligations.WritersOfEachPart : Prop :=
  ∀ (i : Instr) (s t : State), exec i s = .next t →
    (t.engine ≠ s.engine → i = .beginInterval ∨ i = .endInterval ∨ i = .srst ∨
      ∃ pad len link seq orbit trig data, i = .pkt pad true len link seq orbit trig data) ∧
    t.cpos =
      (match i with
      | .srst => 0#32
      | .nop | .beginInterval | .endInterval | .csrr _ => s.cpos + 1#32
      | .csrw _ _ | .rddig _ | .rdlumi _ => s.cpos + 2#32
      | .pkt _ _ len _ _ _ _ _ => s.cpos + BitVec.ofNat 32 (4 + (len.toNat + 3) / 4)) ∧
    (t.gerr ≠ s.gerr → i = .beginInterval ∨ i = .endInterval ∨ i = .srst ∨ (∃ csr v, i = .csrw csr v) ∨
      (∃ csr, i = .csrr csr) ∨ ∃ pad herr len link seq orbit trig data, i = .pkt pad herr len link seq orbit trig data) ∧
    (t.cfg ≠ s.cfg → i = .srst ∨ ∃ csr v, i = .csrw csr v) ∧
    (t.ses ≠ s.ses → i = .beginInterval ∨ i = .endInterval ∨ i = .srst ∨
      ∃ pad herr len link seq orbit trig data, i = .pkt pad herr len link seq orbit trig data) ∧
    (t.fatalCause ≠ s.fatalCause ∨ t.fatalCpos ≠ s.fatalCpos → i = .beginInterval ∨ i = .srst ∨
      ∃ pad len link seq orbit trig data, i = .pkt pad true len link seq orbit trig data) ∧
    (t.resp ≠ s.resp → (∃ csr, i = .csrr csr) ∨ (∃ idx, i = .rddig idx) ∨ (∃ idx, i = .rdlumi idx)) ∧
    t.params = s.params ∧ t.input = s.input ∧ t.resetPin = s.resetPin

/-! ## Commands (46_commands.md) -/

/-- R182: NOP advances CPOS by 1 and changes nothing else, in every state. -/
def Obligations.NopAdvancesCpos : Prop :=
  ∀ s : State, exec .nop s = .next { s with cpos := s.cpos + 1#32 }

/-- R183: the whole effect of BEGIN in each of its three cases. The session is cleared before the configuration is
checked, and GERR, the configuration and the responses stay. -/
def Obligations.BeginEffect : Prop :=
  ∀ s : State,
    let legal := 13 ≤ s.cfg.npldIr.toNat ∧ s.cfg.npldIr.toNat ≤ 79 ∧ 13 ≤ s.cfg.npldCl.toNat ∧
      s.cfg.npldCl.toNat ≤ 79 ∧ s.cfg.irCode ≠ s.cfg.clCode
    (s.engine = .active → exec .beginInterval s = .next { s with gerr := s.gerr ||| 2#4, cpos := s.cpos + 1#32 }) ∧
    (s.engine ≠ .active → legal → exec .beginInterval s =
      .next { s with
        ses := Session.clear, fatalCause := .none, fatalCpos := 0#32, engine := .active, cpos := s.cpos + 1#32 }) ∧
    (s.engine ≠ .active → ¬ legal → exec .beginInterval s =
      .next { s with
        ses := Session.clear, fatalCause := .cfgInvalid, fatalCpos := s.cpos, engine := .aborted,
        cpos := s.cpos + 1#32 })

/-- R184, R172, R158: END of an open interval. Both remnants are flushed; the flushed IR chunk is counted before the
final sample is taken; with no open IR frame, or luminosity off, there is no sample. Everything outside the session, the
latches and the frame state stay. -/
def Obligations.EndClosesInterval : Prop :=
  ∀ s : State, s.engine = .active →
    let N := s.cfg.npldIr.toNat
    let pay := chunkPay N s.ses.ir.remVal.toNat
    let flushed := s.cfg.lumiEn && s.ses.ir.remCnt != 0#7
    let a := if flushed && patternMatches s.cfg.lmaskA (N - 12) pay then s.ses.lcntA + 1#32 else s.ses.lcntA
    let b := if flushed && patternMatches s.cfg.lmaskB (N - 12) pay then s.ses.lcntB + 1#32 else s.ses.lcntB
    ∃ t, exec .endInterval s = .next t ∧
      t = { s with ses := t.ses, engine := .done, cpos := s.cpos + 1#32 } ∧
      (∀ ch, (t.ses.chan ch).remCnt = 0#7 ∧ (t.ses.chan ch).fopen = (s.ses.chan ch).fopen ∧
        (t.ses.chan ch).frameOrbit = (s.ses.chan ch).frameOrbit ∧
        (t.ses.chan ch).lastOrbit = (s.ses.chan ch).lastOrbit) ∧
      t.ses.wLatched = s.ses.wLatched ∧ t.ses.w16 = s.ses.w16 ∧ t.ses.ioLatched = s.ses.ioLatched ∧
      t.ses.intervalOrbit = s.ses.intervalOrbit ∧ t.ses.unkCh = s.ses.unkCh ∧
      ((s.cfg.lumiEn && s.ses.ir.fopen) = false →
        t.ses.lumi = s.ses.lumi ∧ t.ses.lcntA = a ∧ t.ses.lcntB = b ∧
        t.ses.hasFlag .lumifull = s.ses.hasFlag .lumifull) ∧
      ((s.cfg.lumiEn && s.ses.ir.fopen) = true →
        t.ses.lcntA = 0#32 ∧ t.ses.lcntB = 0#32 ∧
        (s.ses.lumi.length = s.params.lumiCap.toNat →
          t.ses.lumi = s.ses.lumi ∧ t.ses.hasFlag .lumifull = true) ∧
        (s.ses.lumi.length ≠ s.params.lumiCap.toNat →
          t.ses.lumi = s.ses.lumi ++ [⟨s.ses.ir.frameOrbit, 0#32, 0#32, a, b⟩] ∧
          t.ses.hasFlag .lumifull = s.ses.hasFlag .lumifull))

/-- R171, R172: what END does to the records: with digits on, each nonempty remnant, IR before CL, is recorded as one chunk
with its channel's LAST_ORBIT; the map, the rejection and duplicate counts and the error bits (but for CNTOVF and
LUMIFULL, which the counts and the final sample may set) are those that this leaves. -/
def Obligations.EndFlushesTheRecords : Prop :=
  ∀ s : State, s.engine = .active →
    let record := fun (ch : Channel) (ses : Session) =>
      if s.cfg.digitsEn && (s.ses.chan ch).remCnt != 0#7 then
        build s.cfg s.params ch (s.ses.chan ch).remVal.toNat (s.ses.chan ch).lastOrbit ses
      else ses
    let after := record .cl (record .ir s.ses)
    ∃ t, exec .endInterval s = .next t ∧ t.ses.map = after.map ∧
      (∀ ch, (t.ses.chan ch).rej = (after.chan ch).rej ∧ (t.ses.chan ch).dup = (after.chan ch).dup) ∧
      ∀ b, b ≠ .cntovf → b ≠ .lumifull → t.ses.hasFlag b = after.hasFlag b

/-- R184, R185, R192, R203, R204, R207: outside an open interval END and PKT are consumed and ignored, with GERR.SEQ in IDLE
and DONE, and a PKT with HERR in an open interval aborts it and has no other effect. -/
def Obligations.IgnoredOrAborted : Prop :=
  ∀ (pad herr : Bool) (len link seq : BitVec 16) (orbit trig : Word) (data : List Word) (s : State),
    let after := s.cpos + BitVec.ofNat 32 (4 + (len.toNat + 3) / 4)
    (s.engine = .aborted →
      exec .endInterval s = .next { s with cpos := s.cpos + 1#32 } ∧
      exec (.pkt pad herr len link seq orbit trig data) s = .next { s with cpos := after }) ∧
    (s.engine = .idle ∨ s.engine = .done →
      exec .endInterval s = .next { s with gerr := s.gerr ||| 2#4, cpos := s.cpos + 1#32 } ∧
      exec (.pkt pad herr len link seq orbit trig data) s =
        .next { s with gerr := s.gerr ||| 2#4, cpos := after }) ∧
    (s.engine = .active → herr = true →
      exec (.pkt pad herr len link seq orbit trig data) s =
        .next { s with engine := .aborted, fatalCause := .hdrErr, fatalCpos := s.cpos, cpos := after })

/-- R161, R162, R173, R45: a packet whose code, LINK_ID[11:8], is neither channel's code has no channel, and only counts and
flags; one of the class-record code, where that is not the IR code, is of the CL channel, and does nothing at all with digits
off. Neither changes a latch, a frame or a remnant. -/
def Obligations.PktNotProcessed : Prop :=
  ∀ (pad : Bool) (len link seq : BitVec 16) (orbit trig : Word) (data : List Word) (s : State),
    let code := link.toNat / 2 ^ 8 % 2 ^ 4
    let after := s.cpos + BitVec.ofNat 32 (4 + (len.toNat + 3) / 4)
    s.engine = .active →
    (code ≠ s.cfg.irCode.toNat → code ≠ s.cfg.clCode.toNat → s.cfg.chan link = none ∧
      exec (.pkt pad false len link seq orbit trig data) s = .next { s with
        ses := { s.ses with
          unkCh := s.ses.unkCh + 1#32,
          ierr := if s.ses.unkCh = 0xFFFFFFFF#32 then s.ses.ierr ||| 0x408#11 else s.ses.ierr ||| 0x008#11 },
        cpos := after }) ∧
    (code ≠ s.cfg.irCode.toNat → code = s.cfg.clCode.toNat → s.cfg.digitsEn = false → s.cfg.chan link = some .cl ∧
      exec (.pkt pad false len link seq orbit trig data) s = .next { s with cpos := after })

/-- R161, R163 to R169, R124, R208: a packet whose code, LINK_ID[11:8], is IR_CODE is of the IR channel, one whose code is
CL_CODE and not IR_CODE is of the CL channel, and such a packet (the second with digits on) is processed and completes. It
latches the padding format and the interval-start orbit, opens or keeps its channel's frame, records its orbit, and leaves the
remnant that the whole stream of its words decides. PADMIX, NOFRAME and PARTIAL are set exactly where they were set before or
their condition holds, and UNKCH as before. The other channel and everything outside the session stay. -/
def Obligations.PktProcessed : Prop :=
  ∀ (pad : Bool) (len link seq : BitVec 16) (orbit trig : Word) (data : List Word) (s : State) (ch : Channel),
    let code := link.toNat / 2 ^ 8 % 2 ^ 4
    s.engine = .active → s.RemnantInv → data.length = (len.toNat + 3) / 4 →
    (code = s.cfg.irCode.toNat ∧ ch = .ir) ∨
      (code ≠ s.cfg.irCode.toNat ∧ code = s.cfg.clCode.toNat ∧ ch = .cl ∧ s.cfg.digitsEn = true) →
    let start := (trig &&& s.cfg.fsMask) != 0#32 && seq == 0#16
    let w16 := if s.ses.wLatched then s.ses.w16 else pad
    let W := if w16 then 16 else 10
    let words := (assemble W (payloadBytes len data)).1
    let cnt := if start then 0 else (s.ses.chan ch).remCnt.toNat
    let bits := (if start then 0 else (s.ses.chan ch).remVal.toNat) + wordStream words * 2 ^ cnt
    let total := cnt + 80 * ((len.toNat + (W - 1)) / W)
    let N := match ch with | .ir => s.cfg.npldIr.toNat | .cl => s.cfg.npldCl.toNat
    s.cfg.chan link = some ch ∧ ∃ t, exec (.pkt pad false len link seq orbit trig data) s = .next t ∧
      t = { s with ses := t.ses, cpos := s.cpos + BitVec.ofNat 32 (4 + (len.toNat + 3) / 4) } ∧
      t.ses.wLatched = true ∧ t.ses.w16 = w16 ∧ t.ses.ioLatched = true ∧
      t.ses.intervalOrbit = (if s.ses.ioLatched then s.ses.intervalOrbit else orbit) ∧
      t.ses.unkCh = s.ses.unkCh ∧
      (t.ses.hasFlag .padmix = true ↔ s.ses.hasFlag .padmix = true ∨ (s.ses.wLatched = true ∧ pad ≠ s.ses.w16)) ∧
      (t.ses.hasFlag .noframe = true ↔
        s.ses.hasFlag .noframe = true ∨ (start = false ∧ (s.ses.chan ch).fopen = false)) ∧
      (t.ses.hasFlag .partialWord = true ↔
        s.ses.hasFlag .partialWord = true ∨ (0 < len.toNat % W ∧ len.toNat % W < 10)) ∧
      (t.ses.hasFlag .unkch = true ↔ s.ses.hasFlag .unkch = true) ∧
      (t.ses.chan ch).fopen = (start || (s.ses.chan ch).fopen) ∧
      (t.ses.chan ch).frameOrbit = (if start then orbit else (s.ses.chan ch).frameOrbit) ∧
      (t.ses.chan ch).lastOrbit = orbit ∧
      (t.ses.chan ch).remCnt.toNat = total % N ∧
      (t.ses.chan ch).remVal.toNat = bits / 2 ^ (total / N * N) ∧
      (∀ ch', ch' ≠ ch → t.ses.chan ch' = s.ses.chan ch')

/-- R121, R122, R169, R170: a processed packet's effect on the records and the counts is DISPATCH_CHUNK of the chunks of its
whole word stream, in stream order, on the session that the packet's first steps leave; cutting word by word, with a
remnant between, is the same. -/
def Obligations.PacketIsItsChunksInOrder : Prop :=
  ∀ (pad : Bool) (len link seq : BitVec 16) (orbit trig : Word) (data : List Word) (s : State) (ch : Channel),
    s.engine = .active → s.RemnantInv → s.cfg.chan link = some ch → (ch = .ir ∨ s.cfg.digitsEn = true) →
    let head := packetHead s.cfg s.params ch seq orbit trig pad s.ses
    let asm := assemble head.groupBytes (payloadBytes len data)
    let cut := unpackAll (s.cfg.width ch) asm.1 (head.chan ch).remVal.toNat (head.chan ch).remCnt.toNat
    let flagged := if asm.2 then head.flag .partialWord else head
    ∃ t, exec (.pkt pad false len link seq orbit trig data) s = .next t ∧
      t.ses = cut.1.foldl (dispatchChunk s.cfg s.params ch orbit) (flagged.setRemnant ch cut.2.1 cut.2.2)

/-- R186, R193, R24: CSRW outside an open interval. The register addressed then reads the written value's field bits and
0 elsewhere, every other register but CPOS reads as before, and nothing but the configuration and CPOS changes; an
index that is no CFG register is not written and sets GERR.BADCSR. -/
def Obligations.CsrwEffect : Prop :=
  ∀ (csr : BitVec 8) (v : Word) (s : State),
    (s.engine ≠ .active → ∀ mask, (csr, mask) ∈ cfgFieldMasks →
      ∃ t, exec (.csrw csr v) s = .next t ∧
        t = { s with cfg := t.cfg, cpos := s.cpos + 2#32 } ∧
        t.readCsr csr = some (v &&& mask) ∧
        ∀ c, c ≠ csr → c ≠ 0x14#8 → t.readCsr c = s.readCsr c) ∧
    ((∀ mask, (csr, mask) ∉ cfgFieldMasks) →
      exec (.csrw csr v) s = .next { s with gerr := s.gerr ||| 8#4, cpos := s.cpos + 2#32 })

/-- R187, R24, R47, R48: CSRR pushes the register's value; the unassigned indexes, 0x0F and 0x2D to 0xFF, push 0 and set
GERR.BADCSR. Each configuration register gives its own fields at their own bits (R25, R26, R28 to R31): CTRL the digit enable
at bit 0 and the luminosity enable at bit 1, CHSEL the IR code at bits 3:0 and the CL code at bits 7:4, a mask in three words
from its low bits up, every other one its one field. Each read-only register but ID and STATUS gives the state that it
mirrors, a remnant's value in three words of 32 bits. -/
def Obligations.CsrrEffect : Prop :=
  ∀ (csr : BitVec 8) (s : State),
    (csr.toNat = 0x0F ∨ 0x2C < csr.toNat →
      exec (.csrr csr) s =
        .next { s with resp := s.resp ++ [0#32], gerr := s.gerr ||| 8#4, cpos := s.cpos + 1#32 }) ∧
    (¬ (csr.toNat = 0x0F ∨ 0x2C < csr.toNat) →
      ∃ v, s.readCsr csr = some v ∧
        exec (.csrr csr) s = .next { s with resp := s.resp ++ [v], cpos := s.cpos + 1#32 }) ∧
    (∀ p ∈ [(0x01#8, s.cfg.digitsEn.toNat + 2 * s.cfg.lumiEn.toNat), (0x02#8, s.cfg.npldIr.toNat),
        (0x03#8, s.cfg.npldCl.toNat), (0x04#8, s.cfg.offC.toNat), (0x05#8, s.cfg.lat1.toNat),
        (0x06#8, s.cfg.lat2.toNat), (0x07#8, s.cfg.fsMask.toNat), (0x08#8, s.cfg.irCode.toNat + 16 * s.cfg.clCode.toNat),
        (0x09#8, s.cfg.lmaskA.value.toNat), (0x0A#8, s.cfg.lmaskA.value.toNat / 2 ^ 32),
        (0x0B#8, s.cfg.lmaskA.value.toNat / 2 ^ 64), (0x0C#8, s.cfg.lmaskB.value.toNat),
        (0x0D#8, s.cfg.lmaskB.value.toNat / 2 ^ 32), (0x0E#8, s.cfg.lmaskB.value.toNat / 2 ^ 64)],
      csr = p.1 → s.readCsr csr = some (BitVec.ofNat 32 p.2)) ∧
    (∀ p ∈ [(0x11#8, s.ses.ierr.toNat), (0x12#8, s.gerr.toNat), (0x13#8, s.fatalCpos.toNat), (0x14#8, s.cpos.toNat),
        (0x15#8, s.ses.intervalOrbit.toNat), (0x16#8, s.ses.ir.frameOrbit.toNat), (0x17#8, s.ses.cl.frameOrbit.toNat),
        (0x18#8, s.ses.ir.lastOrbit.toNat), (0x19#8, s.ses.cl.lastOrbit.toNat), (0x1A#8, s.ses.ir.remCnt.toNat),
        (0x1B#8, s.ses.cl.remCnt.toNat), (0x1C#8, s.ses.ir.remVal.toNat), (0x1D#8, s.ses.ir.remVal.toNat / 2 ^ 32),
        (0x1E#8, s.ses.ir.remVal.toNat / 2 ^ 64), (0x1F#8, s.ses.cl.remVal.toNat),
        (0x20#8, s.ses.cl.remVal.toNat / 2 ^ 32), (0x21#8, s.ses.cl.remVal.toNat / 2 ^ 64),
        (0x22#8, s.ses.ir.rej.toNat), (0x23#8, s.ses.cl.rej.toNat), (0x24#8, s.ses.ir.dup.toNat),
        (0x25#8, s.ses.cl.dup.toNat), (0x26#8, s.ses.unkCh.toNat), (0x27#8, s.ses.lcntA.toNat),
        (0x28#8, s.ses.lcntB.toNat), (0x29#8, s.ses.map.length), (0x2A#8, s.ses.lumi.length),
        (0x2B#8, s.params.mapCap.toNat), (0x2C#8, s.params.lumiCap.toNat)],
      csr = p.1 → s.readCsr csr = some (BitVec.ofNat 32 p.2))

/-- R27, R32, with the codes of R23 and R35 and the bits of R33 and R34: what CSR 0x10, 0x11, 0x12 and 0x00 read in every
state, by arithmetic on the register's number. Bit 7 and bits 31:12 of STATUS, bits 31:11 of IERR and bits 31:4 of GERR
read 0, and STATUS reads 0 after reset. -/
def Obligations.StatusFields : Prop :=
  State.reset.readCsr 0x10#8 = some 0#32 ∧
  ∀ s : State,
    s.readCsr 0x00#8 = some 0x43545001#32 ∧
    (∃ v, s.readCsr 0x10#8 = some v ∧
      v.toNat % 4 = (match s.engine with | .idle => 0 | .active => 1 | .done => 2 | .aborted => 3) ∧
      (v.toNat / 4 % 2 = 1 ↔ s.ses.wLatched = true) ∧ (v.toNat / 8 % 2 = 1 ↔ s.ses.w16 = true) ∧
      (v.toNat / 16 % 2 = 1 ↔ s.ses.ioLatched = true) ∧ (v.toNat / 32 % 2 = 1 ↔ s.ses.ir.fopen = true) ∧
      (v.toNat / 64 % 2 = 1 ↔ s.ses.cl.fopen = true) ∧ v.toNat / 128 % 2 = 0 ∧
      v.toNat / 256 % 16 = (match s.fatalCause with | .none => 0 | .hdrErr => 1 | .cfgInvalid => 2 | .illCmd => 3) ∧
      v.toNat / 4096 = 0) ∧
    (∃ v, s.readCsr 0x11#8 = some v ∧ v.toNat / 2 ^ 11 = 0 ∧
      ∀ p ∈ [(0, IErrBit.noframe), (1, .padmix), (2, .partialWord), (3, .unkch), (4, .dup), (5, .bcrange), (6, .timerange),
          (7, .clarify), (8, .mapfull), (9, .lumifull), (10, .cntovf)],
        (v.toNat / 2 ^ p.1 % 2 = 1 ↔ s.ses.hasFlag p.2 = true)) ∧
    ∃ v, s.readCsr 0x12#8 = some v ∧ v.toNat / 2 ^ 4 = 0 ∧
      ∀ p ∈ [(0, GErrBit.illcmd), (1, .seq), (2, .cfglock), (3, .badcsr)],
        (v.toNat / 2 ^ p.1 % 2 = 1 ↔ s.hasGflag p.2 = true)

/-- R188, R93: RDDIG in DONE with an index in range pushes the eight words of the entry at that position of the map, and eight
zero words in every other case; nothing but the response stream and CPOS changes. (That the position in the map's list
is the key's place in ascending order is log entry 12 and the invariant of StepKeepsMapInv; that the masks are read as
they are stored, 96 bits wide, even where NPLD was rewritten in DONE, is the model's choice, log entry 6.) -/
def Obligations.RddigEffect : Prop :=
  ∀ (idx : Word) (s : State),
    (∀ k e, s.engine = .done → s.ses.map[idx.toNat]? = some (k, e) →
      exec (.rddig idx) s = .next { s with
        resp := s.resp ++
          [BitVec.ofNat 32 (2 ^ 31 + e.iset.toNat * 2 ^ 30 + e.cset.toNat * 2 ^ 29 + k.bc.val), k.orbit,
           BitVec.ofNat 32 e.imask.toNat, BitVec.ofNat 32 (e.imask.toNat / 2 ^ 32),
           BitVec.ofNat 32 (e.imask.toNat / 2 ^ 64),
           BitVec.ofNat 32 e.cmask.toNat, BitVec.ofNat 32 (e.cmask.toNat / 2 ^ 32),
           BitVec.ofNat 32 (e.cmask.toNat / 2 ^ 64)],
        cpos := s.cpos + 2#32 }) ∧
    (s.engine ≠ .done ∨ s.ses.map.length ≤ idx.toNat →
      exec (.rddig idx) s = .next { s with
        resp := s.resp ++ [0#32, 0#32, 0#32, 0#32, 0#32, 0#32, 0#32, 0#32], cpos := s.cpos + 2#32 })

/-- R62: in DONE, successive digit indexes below DIGIT_COUNT name the keys in strictly ascending order, orbit first, as
the response words show it; and DIGIT_COUNT is at most MAP_CAP. -/
def Obligations.DigitsAreReadInOrder : Prop :=
  ∀ (s : State) (i j : Word), s.engine = .done → s.MapInv → i.toNat < j.toNat → j.toNat < s.ses.map.length →
    s.readCsr 0x29#8 = some (BitVec.ofNat 32 s.ses.map.length) ∧ s.ses.map.length ≤ s.params.mapCap.toNat ∧
    ∃ t u w0 w1 w0' w1' ws ws', exec (.rddig i) s = .next t ∧ exec (.rddig j) s = .next u ∧
      t.resp = s.resp ++ (w0 :: w1 :: ws) ∧ u.resp = s.resp ++ (w0' :: w1' :: ws') ∧
      2 ^ 31 ≤ w0.toNat ∧ 2 ^ 31 ≤ w0'.toNat ∧
      (w1.toNat < w1'.toNat ∨ (w1 = w1' ∧ w0.toNat % 2 ^ 12 < w0'.toNat % 2 ^ 12))

/-- R189, R93, R63: RDLUMI in DONE with an index in range pushes the sample's six words, and six zero words in every
other case; nothing but the response stream and CPOS changes. -/
def Obligations.RdlumiEffect : Prop :=
  ∀ (idx : Word) (s : State),
    (∀ x, s.engine = .done → s.ses.lumi[idx.toNat]? = some x →
      exec (.rdlumi idx) s = .next { s with
        resp := s.resp ++ [0x80000000#32, x.orbit, x.r1, x.r2, x.countA, x.countB], cpos := s.cpos + 2#32 }) ∧
    (s.engine ≠ .done ∨ s.ses.lumi.length ≤ idx.toNat →
      exec (.rdlumi idx) s = .next { s with
        resp := s.resp ++ [0#32, 0#32, 0#32, 0#32, 0#32, 0#32], cpos := s.cpos + 2#32 })

/-! ## The exception (60_exceptions.md) -/

/-- R203, R206: a step that enters ABORTED records its cause and the position of its header word, and is precise: the
header error and the illegal command leave the session as it was, the refused configuration leaves it cleared, and the
configuration, the responses and the parameters stay. -/
def Obligations.AbortsArePrecise : Prop :=
  ∀ s t : State, s.resetPin = false → s.engine ≠ .aborted → step s = .next t → t.engine = .aborted →
    t.fatalCpos = s.cpos ∧ t.cfg = s.cfg ∧ t.resp = s.resp ∧ t.params = s.params ∧
    ((t.fatalCause = .hdrErr ∧ s.engine = .active ∧ t.ses = s.ses ∧ t.gerr = s.gerr) ∨
     (t.fatalCause = .illCmd ∧ s.engine = .active ∧ t.ses = s.ses ∧ t.gerr = s.gerr ||| 1#4) ∨
     (t.fatalCause = .cfgInvalid ∧ s.engine ≠ .active ∧ t.ses = Session.clear ∧ t.gerr = s.gerr))

/-- R205: ABORTED is left only by a BEGIN that opens a new interval, or by SRST or the hardware reset; each clears the
cause and the session, so nothing resumes the aborted interval. -/
def Obligations.LeavingAborted : Prop :=
  ∀ s t : State, s.engine = .aborted → step s = .next t → t.engine ≠ .aborted →
    t.fatalCause = .none ∧ t.fatalCpos = 0#32 ∧ t.ses = Session.clear ∧
    ((t.engine = .active ∧ s.resetPin = false ∧ ∃ rest, decode s.input = .ok (.beginInterval, rest)) ∨
     (t.engine = .idle ∧ (s.resetPin = true ∨ ∃ rest, decode s.input = .ok (.srst, rest))))

/-! ## The datapath (20_memory.md, 41 to 45) -/

/-- R64: payload byte j is data word `j div 4`, bits `8(j mod 4)+7 : 8(j mod 4)`, for the LEN bytes; and whatever the
unused high bytes of the last data word hold has no effect. -/
def Obligations.PayloadByteOrder : Prop :=
  ∀ (len : BitVec 16) (data : List Word), data.length = (len.toNat + 3) / 4 →
    (payloadBytes len data).length = len.toNat ∧
    (∀ j, j < len.toNat →
      ((payloadBytes len data).getD j 0#8).toNat = (data.getD (j / 4) 0#32).toNat / 2 ^ (8 * (j % 4)) % 2 ^ 8) ∧
    (∀ data' : List Word, data'.length = (len.toNat + 3) / 4 →
      (∀ j, j < len.toNat → (data.getD (j / 4) 0#32).toNat / 2 ^ (8 * (j % 4)) % 2 ^ 8 =
        (data'.getD (j / 4) 0#32).toNat / 2 ^ (8 * (j % 4)) % 2 ^ 8) →
      ∀ pad herr link seq orbit trig s,
        exec (.pkt pad herr len link seq orbit trig data) s = exec (.pkt pad herr len link seq orbit trig data') s)

/-- R112, R114, R115, R113: ASSEMBLE gives one word per group, byte k of group g being bits `8k+7 : 8k` of word g, the
bytes that are not there 0, and the padding bytes of a 16-byte group nowhere; PARTIAL is flagged exactly for a
trailing group of 1 to 9 data bytes. -/
def Obligations.AssembledWords : Prop :=
  ∀ (W : Nat) (bytes : List Byte), W = 10 ∨ W = 16 →
    (assemble W bytes).1.length = (bytes.length + (W - 1)) / W ∧
    (∀ g k, k < 10 → ((assemble W bytes).1.getD g 0#80).extractLsb' (8 * k) 8 = bytes.getD (g * W + k) 0#8) ∧
    ((assemble W bytes).2 = true ↔ (0 < bytes.length % W ∧ bytes.length % W < 10))

/-- R121, R123, R124, R126: one UNPACK cuts `floor((r + 80) / N)` chunks of N bits off the remnant and the word and leaves
`(r + 80) mod N` bits; no bit is dropped or made up: the chunks below and the new remnant above are the number that
the old remnant and the word spell. (The spec marks R123, R124 and R126 as derived.) -/
def Obligations.UnpackCutsExactly : Prop :=
  ∀ (N val cnt : Nat) (w : Word80), 13 ≤ N → N ≤ 79 → cnt < N → val < 2 ^ cnt →
    let r := unpack N val cnt w
    1 ≤ r.1.length ∧ r.1.length ≤ 7 ∧ r.1.length = (cnt + 80) / N ∧ r.2.2 = (cnt + 80) % N ∧ r.2.2 < N ∧
    r.2.1 < 2 ^ r.2.2 ∧ (∀ c ∈ r.1, c < 2 ^ N) ∧ N * r.1.length + r.2.2 = cnt + 80 ∧
    chunkStream N r.1 + r.2.1 * 2 ^ (N * r.1.length) = val + w.toNat * 2 ^ cnt

/-- R125: over a span that starts with an empty remnant, the chunks are the consecutive N-bit fields of the stream of the
words, and the remnant is what lies above them. (The spec marks the rule as derived by induction.) -/
def Obligations.StreamViewOfASpan : Prop :=
  ∀ (N : Nat) (ws : List Word80), 13 ≤ N → N ≤ 79 →
    let r := unpackAll N ws 0 0
    let s := wordStream ws
    let t := ws.length
    r.1.length = 80 * t / N ∧ (∀ j, j < 80 * t / N → r.1.getD j 0 = s / 2 ^ (j * N) % 2 ^ N) ∧
    r.2.2 = 80 * t % N ∧ r.2.1 = s / 2 ^ (N * (80 * t / N))

/-- R131, R132, R135, R136, R138: a contribution that no check drops is merged under the key whose point on the linear
timeline is the uncorrected point less the channel's offset. -/
def Obligations.BuildCorrectsTheKey : Prop :=
  ∀ (cfg : CfgRegs) (prm : Params) (ch : Channel) (bc pay : Nat) (orbit : Word) (ses : Session),
    cfg.legal = true → bc < 3564 → pay ≠ 0 → pay < 2 ^ (cfg.width ch - 12) →
    let off : Int := match ch with
      | .ir => cfg.offC.toNat
      | .cl => (cfg.offC.toNat : Int) + cfg.lat1.toNat + cfg.lat2.toNat - 1
    let tc : Int := (orbit.toNat : Int) * 3564 + bc - off
    ¬ (orbit.toNat ≤ ses.intervalOrbit.toNat ∧ (bc : Int) < off) →
    (ses.intervalOrbit.toNat : Int) * 3564 ≤ tc → tc < 2 ^ 32 * 3564 →
    ∃ key : Key, (key.orbit.toNat : Int) * 3564 + key.bc.val = tc ∧
      build cfg prm ch (pay * 2 ^ 12 + bc) orbit ses = merge prm ch key pay ses

/-- R133, R134, R137, R138: the drops and rejections of BUILD, each with its whole effect: a zero payload is silent, a bc out
of range only sets BCRANGE, a rejection counts once (with CNTOVF where the count wraps, R45), sets CLARIFY exactly where
the source's own rule did not reject and changes nothing else, and a corrected orbit of 2^32 or more only sets TIMERANGE. -/
def Obligations.BuildDropsAndRejects : Prop :=
  ∀ (cfg : CfgRegs) (prm : Params) (ch : Channel) (bc pay : Nat) (orbit : Word) (ses : Session),
    cfg.legal = true → bc < 4096 → pay < 2 ^ (cfg.width ch - 12) →
    let off : Int := match ch with
      | .ir => cfg.offC.toNat
      | .cl => (cfg.offC.toNat : Int) + cfg.lat1.toNat + cfg.lat2.toNat - 1
    let tc : Int := (orbit.toNat : Int) * 3564 + bc - off
    let rejA := orbit.toNat ≤ ses.intervalOrbit.toNat ∧ (bc : Int) < off
    let rejB := tc < (ses.intervalOrbit.toNat : Int) * 3564
    let after := build cfg prm ch (pay * 2 ^ 12 + bc) orbit ses
    (pay = 0 → after = ses) ∧
    (pay ≠ 0 → 3564 ≤ bc → after = { ses with ierr := ses.ierr ||| 0x020#11 }) ∧
    (pay ≠ 0 → bc < 3564 → rejA ∨ rejB →
      after = { ses with
        ir := if ch = .ir then { ses.ir with rej := ses.ir.rej + 1#32 } else ses.ir,
        cl := if ch = .cl then { ses.cl with rej := ses.cl.rej + 1#32 } else ses.cl,
        ierr := ses.ierr ||| (if (ses.chan ch).rej = 0xFFFFFFFF#32 then 0x400#11 else 0#11) |||
          (if rejA then 0#11 else 0x080#11) }) ∧
    (pay ≠ 0 → bc < 3564 → ¬ rejA → ¬ rejB → 2 ^ 32 * 3564 ≤ tc →
      after = { ses with ierr := ses.ierr ||| 0x040#11 })

/-- R139, R140, R141: MERGE by what every key looks up afterwards: a set mask is kept and counted as a duplicate (DUP, and
CNTOVF where the count wraps, and nothing else), an unset one is filled, an absent key is added while there is room,
and no other key changes. -/
def Obligations.MergeByLookups : Prop :=
  ∀ (prm : Params) (ch : Channel) (key : Key) (pay : Nat) (ses : Session), SortedMap ses.map →
    let after := merge prm ch key pay ses
    SortedMap after.map ∧ (∀ k, k ≠ key → lookupKey k after.map = lookupKey k ses.map) ∧
    (∀ e, lookupKey key ses.map = some e → e.isSet ch = true →
      after = { ses with
        ir := if ch = .ir then { ses.ir with dup := ses.ir.dup + 1#32 } else ses.ir,
        cl := if ch = .cl then { ses.cl with dup := ses.cl.dup + 1#32 } else ses.cl,
        ierr := ses.ierr ||| (if (ses.chan ch).dup = 0xFFFFFFFF#32 then 0x400#11 else 0#11) ||| 0x010#11 }) ∧
    (∀ e, lookupKey key ses.map = some e → e.isSet ch = false →
      after = { ses with map := after.map } ∧ after.map.length = ses.map.length ∧
      ∃ e', lookupKey key after.map = some e' ∧ e'.isSet ch = true ∧ e'.mask ch = BitVec.ofNat 96 pay ∧
        ∀ ch', ch' ≠ ch → e'.isSet ch' = e.isSet ch' ∧ e'.mask ch' = e.mask ch') ∧
    (lookupKey key ses.map = none → ses.map.length = prm.mapCap.toNat →
      after = { ses with ierr := ses.ierr ||| 0x100#11 }) ∧
    (lookupKey key ses.map = none → ses.map.length ≠ prm.mapCap.toNat →
      after = { ses with map := after.map } ∧ after.map.length = ses.map.length + 1 ∧
      ∃ e', lookupKey key after.map = some e' ∧ e'.isSet ch = true ∧ e'.mask ch = BitVec.ofNat 96 pay ∧
        ∀ ch', ch' ≠ ch → e'.isSet ch' = false ∧ e'.mask ch' = 0#96)

/-- R145: the map does not depend on the order in which two contributions to different keys, or of different channels to one
key, are merged, where there is room for both. (The spec marks the rule as derived.) -/
def Obligations.MergeOrderDoesNotMatter : Prop :=
  ∀ (prm : Params) (ch ch' : Channel) (k k' : Key) (pay pay' : Nat) (ses : Session), SortedMap ses.map →
    k ≠ k' ∨ ch ≠ ch' → ses.map.length + 2 ≤ prm.mapCap.toNat →
    (merge prm ch k pay (merge prm ch' k' pay' ses)).map = (merge prm ch' k' pay' (merge prm ch k pay ses)).map

/-- R151, R153: LUMI_COUNT advances a counter exactly where the chunk's payload and the pattern's mask share a set bit below
the payload width; both may advance; nothing else changes but CNTOVF, which a wrap sets (R45). -/
def Obligations.LumiCountsPatterns : Prop :=
  ∀ (cfg : CfgRegs) (c : Chunk) (ses : Session), cfg.legal = true →
    let hit := fun (m : Mask96) => ∃ i, i + 12 < cfg.npldIr.toNat ∧ c.testBit (i + 12) = true ∧ m.value.getLsbD i = true
    let after := lumiCount cfg c ses
    after = { ses with lcntA := after.lcntA, lcntB := after.lcntB, ierr := after.ierr } ∧
    (hit cfg.lmaskA → after.lcntA = ses.lcntA + 1#32) ∧ (¬ hit cfg.lmaskA → after.lcntA = ses.lcntA) ∧
    (hit cfg.lmaskB → after.lcntB = ses.lcntB + 1#32) ∧ (¬ hit cfg.lmaskB → after.lcntB = ses.lcntB) ∧
    (∀ b, b ≠ .cntovf → after.hasFlag b = ses.hasFlag b) ∧
    (after.hasFlag .cntovf = true ↔ ses.hasFlag .cntovf = true ∨ (hit cfg.lmaskA ∧ ses.lcntA = 0xFFFFFFFF#32) ∨
      (hit cfg.lmaskB ∧ ses.lcntB = 0xFFFFFFFF#32))

/-- R154, R74: the luminosity of an IR packet does not depend on the digit path: two machines that differ in the digits, the
offsets, the digit enable and the rejection and duplicate counts get the same counts and samples from it. -/
def Obligations.LuminosityIgnoresDigitPath : Prop :=
  ∀ (pad herr : Bool) (len link seq : BitVec 16) (orbit trig : Word) (data : List Word) (s s' t t' : State),
    s.engine = .active → s'.engine = .active → s.cfg.chan link = some .ir →
    s'.cfg = { s.cfg with
      digitsEn := s'.cfg.digitsEn, offC := s'.cfg.offC, lat1 := s'.cfg.lat1, lat2 := s'.cfg.lat2 } →
    s'.params.lumiCap = s.params.lumiCap →
    (∃ r d, s'.ses.ir = { s.ses.ir with rej := r, dup := d }) →
    s'.ses.wLatched = s.ses.wLatched → s'.ses.w16 = s.ses.w16 →
    s'.ses.lcntA = s.ses.lcntA → s'.ses.lcntB = s.ses.lcntB → s'.ses.lumi = s.ses.lumi →
    exec (.pkt pad herr len link seq orbit trig data) s = .next t →
    exec (.pkt pad herr len link seq orbit trig data) s' = .next t' →
    t'.ses.lcntA = t.ses.lcntA ∧ t'.ses.lcntB = t.ses.lcntB ∧ t'.ses.lumi = t.ses.lumi

/-- R175, R166: a frame-start packet leaves the same state whatever remnant its channel held before. (The spec marks R175
as derived.) -/
def Obligations.FrameStartForgetsRemnant : Prop :=
  ∀ (pad : Bool) (len link seq : BitVec 16) (orbit trig : Word) (data : List Word) (s : State) (ch : Channel)
    (val cnt : Nat), s.engine = .active → s.cfg.chan link = some ch → (ch = .ir ∨ s.cfg.digitsEn = true) →
    (trig &&& s.cfg.fsMask) ≠ 0#32 → seq = 0#16 →
    exec (.pkt pad false len link seq orbit trig data) { s with ses := s.ses.setRemnant ch val cnt } =
      exec (.pkt pad false len link seq orbit trig data) s

/-- R155, R156, R157, R166: an IR frame start without data. It emits the sample of the frame it closes exactly where
luminosity is on and a frame is open, it clears both counts in every case, and it records its own orbit. LUMIFULL is
set where the buffer is full, and no other error bit changes but PADMIX. -/
def Obligations.FrameStartEmitsSample : Prop :=
  ∀ (pad : Bool) (link seq : BitVec 16) (orbit trig : Word) (s : State),
    s.engine = .active → s.cfg.chan link = some .ir → (trig &&& s.cfg.fsMask) ≠ 0#32 → seq = 0#16 →
    ∃ t, exec (.pkt pad false 0#16 link seq orbit trig []) s = .next t ∧
      t.ses.lcntA = 0#32 ∧ t.ses.lcntB = 0#32 ∧ t.ses.ir.frameOrbit = orbit ∧ t.ses.ir.fopen = true ∧
      t.ses.ir.remCnt = 0#7 ∧ t.ses.ir.remVal = 0#78 ∧ t.ses.cl = s.ses.cl ∧ t.ses.map = s.ses.map ∧
      (∀ b, b ≠ .padmix → b ≠ .lumifull → t.ses.hasFlag b = s.ses.hasFlag b) ∧
      ((s.cfg.lumiEn && s.ses.ir.fopen) = false →
        t.ses.lumi = s.ses.lumi ∧ t.ses.hasFlag .lumifull = s.ses.hasFlag .lumifull) ∧
      ((s.cfg.lumiEn && s.ses.ir.fopen) = true → s.ses.lumi.length = s.params.lumiCap.toNat →
        t.ses.lumi = s.ses.lumi ∧ t.ses.hasFlag .lumifull = true) ∧
      ((s.cfg.lumiEn && s.ses.ir.fopen) = true → s.ses.lumi.length ≠ s.params.lumiCap.toNat →
        t.ses.lumi = s.ses.lumi ++ [⟨s.ses.ir.frameOrbit, 0#32, 0#32, s.ses.lcntA, s.ses.lcntB⟩] ∧
        t.ses.hasFlag .lumifull = s.ses.hasFlag .lumifull)

/-- R74: a packet of one channel leaves the other channel's own state and masks alone, and a class-record packet leaves the
luminosity alone. -/
def Obligations.ChannelsAreIsolated : Prop :=
  ∀ (pad herr : Bool) (len link seq : BitVec 16) (orbit trig : Word) (data : List Word) (s t : State)
    (ch ch' : Channel), s.cfg.chan link = some ch → ch' ≠ ch →
    exec (.pkt pad herr len link seq orbit trig data) s = .next t →
    t.ses.chan ch' = s.ses.chan ch' ∧
    (∀ k e', lookupKey k t.ses.map = some e' →
      (∃ e, lookupKey k s.ses.map = some e ∧ e'.isSet ch' = e.isSet ch' ∧ e'.mask ch' = e.mask ch') ∨
      (lookupKey k s.ses.map = none ∧ e'.isSet ch' = false ∧ e'.mask ch' = 0#96)) ∧
    (∀ k e, lookupKey k s.ses.map = some e → ∃ e', lookupKey k t.ses.map = some e') ∧
    (ch = .cl → t.ses.lcntA = s.ses.lcntA ∧ t.ses.lcntB = s.ses.lcntB ∧ t.ses.lumi = s.ses.lumi)

/-- R143: in an open interval with DIGITS_EN = 0 no command but SRST makes a digit, counts a rejection or a duplicate, or
sets a flag of the Record Builder. -/
def Obligations.DigitsOffLeavesNoTrace : Prop :=
  ∀ (i : Instr) (s t : State), s.engine = .active → s.cfg.digitsEn = false → i ≠ .srst → exec i s = .next t →
    t.ses.map = s.ses.map ∧
    (∀ ch, (t.ses.chan ch).rej = (s.ses.chan ch).rej ∧ (t.ses.chan ch).dup = (s.ses.chan ch).dup) ∧
    (∀ b ∈ [IErrBit.dup, .bcrange, .timerange, .clarify, .mapfull], t.ses.hasFlag b = s.ses.hasFlag b)

/-- R152: in an open interval with LUMI_EN = 0 the counts stay 0 and no sample is emitted; and with LUMI_EN = 1 a
class-record packet counts nothing. -/
def Obligations.LumiOffLeavesNoTrace : Prop :=
  ∀ (i : Instr) (s t : State), s.engine = .active → exec i s = .next t →
    (s.cfg.lumiEn = false → i ≠ .srst → s.ses.lcntA = 0#32 → s.ses.lcntB = 0#32 →
      t.ses.lcntA = 0#32 ∧ t.ses.lcntB = 0#32 ∧ t.ses.lumi = s.ses.lumi ∧
      t.ses.hasFlag .lumifull = s.ses.hasFlag .lumifull) ∧
    (∀ pad herr len link seq orbit trig data, i = .pkt pad herr len link seq orbit trig data →
      s.cfg.chan link = some .cl →
      t.ses.lcntA = s.ses.lcntA ∧ t.ses.lcntB = s.ses.lcntB ∧ t.ses.lumi = s.ses.lumi)

/-! ## The encoder's round trip (30_encoding.md R95, 95_test_vectors.md) -/

/-- R95: the payload that PKTC computes is cut, from an empty remnant, back into its own chunks, followed by zero chunks and a
zero remnant, in either padding format, and no group of it is partial. (The spec marks the clause as derived.) -/
def Obligations.PktcChunksComeBack : Prop :=
  ∀ (pad : Bool) (N : Nat) (cs : List Chunk), 13 ≤ N → N ≤ 79 → (∀ c ∈ cs, c < 2 ^ N) →
    let asm := assemble (if pad then 16 else 10) (pktcData pad N cs)
    let r := unpackAll N asm.1 0 0
    asm.2 = false ∧ (∃ z, r.1 = cs ++ List.replicate z 0) ∧ r.2.1 = 0

/-- 95_test_vectors.md, Round-trip: the digits of one frame, encoded by PKTC into one frame-start packet of the
interaction-record channel and sent to the engine, come back exactly: each key with its mask, no other key, no rejection
and no duplicate. No error flag changes but CNTOVF and LUMIFULL, which the luminosity counts and the sample of the frame that
this one closes may set; with LUMI_EN = 0 these two do not change either. The premises are those the spec lists. -/
def Obligations.DigitsSurviveTheRoundTrip : Prop :=
  ∀ (s : State) (pad : Bool) (link : BitVec 16) (orbit trig : Word) (digits : List (Nat × Nat)),
    let N := s.cfg.npldIr.toNat
    let payload := pktcData pad N (digits.map fun d => d.2 * 2 ^ 12 + d.1)
    let io : Nat := if s.ses.ioLatched then s.ses.intervalOrbit.toNat else orbit.toNat
    s.engine = .active → s.RemnantInv → s.cfg.digitsEn = true → s.cfg.chan link = some .ir →
    (trig &&& s.cfg.fsMask) ≠ 0#32 → (s.ses.wLatched = true → s.ses.w16 = pad) → s.ses.map = [] →
    payload.length < 2 ^ 16 → digits.length ≤ s.params.mapCap.toNat →
    digits.Pairwise (fun a b => a.1 < b.1) →
    (∀ d ∈ digits, d.1 < 3564 ∧ d.2 ≠ 0 ∧ d.2 < 2 ^ (N - 12) ∧
      io * 3564 + s.cfg.offC.toNat ≤ orbit.toNat * 3564 + d.1) →
    ∃ t, exec (asmPkt link 0#16 orbit trig pad false payload) s = .next t ∧
      t.ses.map.map (fun p => (p.1.orbit.toNat * 3564 + p.1.bc.val, p.2)) =
        digits.map (fun d => (orbit.toNat * 3564 + d.1 - s.cfg.offC.toNat, ⟨true, BitVec.ofNat 96 d.2, false, 0#96⟩)) ∧
      t.ses.ir.rej = s.ses.ir.rej ∧ t.ses.ir.dup = s.ses.ir.dup ∧
      (∀ b, b ≠ .cntovf → b ≠ .lumifull → t.ses.hasFlag b = s.ses.hasFlag b) ∧
      (s.cfg.lumiEn = false → ∀ b, t.ses.hasFlag b = s.ses.hasFlag b)

/-! ## Invariants that every step keeps -/

/-- R39, R123: the remnant invariant. -/
def Obligations.StepKeepsRemnantInv : Prop :=
  ∀ s t : State, s.RemnantInv → step s = .next t → t.RemnantInv

/-- R42, R142, R144: the digit map stays sorted by strictly rising keys, so no key occurs twice, within its capacity, and its
unset masks stay 0. -/
def Obligations.StepKeepsMapInv : Prop :=
  ∀ s t : State, s.MapInv ∧ s.EntryInv → step s = .next t → t.MapInv ∧ t.EntryInv

/-- R42, R93: masks stay within the payload width of their channel while the interval is open. -/
def Obligations.StepKeepsMaskWidthInv : Prop :=
  ∀ s t : State, s.MaskWidthInv → step s = .next t → t.MaskWidthInv

/-- R137, R164: no digit ever lies before the interval-start orbit. -/
def Obligations.StepKeepsIntervalInv : Prop :=
  ∀ s t : State, s.IntervalInv → step s = .next t → t.IntervalInv

/-- R43: the lumi buffer stays within its capacity and its reserved fields 0. -/
def Obligations.StepKeepsLumiInv : Prop :=
  ∀ s t : State, s.LumiInv → step s = .next t → t.LumiInv

/-- R143, R152, R173: outputs that are not enabled stay without a trace. -/
def Obligations.StepKeepsGateInv : Prop :=
  ∀ s t : State, s.GateInv → step s = .next t → t.GateInv

/-- R23, R35, R184: the recorded cause and STATE agree, IDLE has an empty session, DONE has empty remnants. -/
def Obligations.StepKeepsLifecycleInv : Prop :=
  ∀ s t : State, s.AbortInv ∧ s.BoundaryInv → step s = .next t → t.AbortInv ∧ t.BoundaryInv

/-- The engine's reset state meets every invariant above, whatever the model parameters and whatever words are supplied. -/
def Obligations.ResetMeetsTheInvariants : Prop :=
  ∀ (prm : Params) (words : List Word) (rst : Bool),
    let s := Engine.reset.withArgs prm words rst
    s.RemnantInv ∧ s.MapInv ∧ s.EntryInv ∧ s.MaskWidthInv ∧ s.IntervalInv ∧ s.LumiInv ∧ s.GateInv ∧ s.AbortInv ∧
      s.BoundaryInv
end

