-- ==== Sys2Proof/Laws/Assembler.lean ====
section
/-! SUPPORT. What ASSEMBLE does, said once (R112 to R118). -/

namespace Sys2Proof.Machine

/-- The number that a list of bytes spells, the first byte lowest. -/
def bytesNat : List Byte → Nat
  | [] => 0
  | b :: bs => b.toNat + 256 * bytesNat bs

/-- R112: the word that the data bytes of one group make. -/
def groupWord (bs : List Byte) : Word80 := BitVec.ofNat 80 (bytesNat bs)

theorem byte_shift (b : Byte) (k : Nat) :
    b.setWidth 80 <<< (8 * k) = BitVec.ofNat 80 (b.toNat * 256 ^ k) := by
  apply BitVec.eq_of_toNat_eq
  simp only [BitVec.toNat_shiftLeft, BitVec.toNat_setWidth, BitVec.toNat_ofNat, Nat.shiftLeft_eq, Nat.pow_mul]
  rw [Nat.mod_eq_of_lt (by have := b.isLt; omega : b.toNat < 2 ^ 80)]

/-- The padding bytes of a group are skipped (R114). -/
theorem assembleLoop_pad {W : Nat} : ∀ (d p : Nat) (bs : List Byte), p + (d + 1) = W → 10 ≤ p →
    assembleLoop W bs p 0 0#80 = assembleLoop W (bs.drop (d + 1)) 0 0 0#80
  | _, _, [], _, _ => by simp [assembleLoop]
  | 0, p, b :: bs, h, hp => by
    conv => lhs; unfold assembleLoop
    rw [if_neg (by omega), if_pos (by omega)]
    simp
  | d + 1, p, b :: bs, h, hp => by
    conv => lhs; unfold assembleLoop
    rw [if_neg (by omega), if_neg (by omega)]
    rw [assembleLoop_pad d (p + 1) bs (by omega) (by omega)]
    simp

/-- The data bytes of a group that is there in full. -/
theorem assembleLoop_data {W : Nat} (hW : 10 ≤ W) : ∀ (d k : Nat) (bs : List Byte) (acc : Nat),
    k + (d + 1) = 10 → d + 1 ≤ bs.length →
    assembleLoop W bs k k (BitVec.ofNat 80 acc) =
      (BitVec.ofNat 80 (acc + bytesNat (bs.take (d + 1)) * 256 ^ k) :: (assembleLoop W (bs.drop (d + 1)) (if 10 = W then 0 else 10) 0 0#80).1,
        (assembleLoop W (bs.drop (d + 1)) (if 10 = W then 0 else 10) 0 0#80).2)
  | _, _, [], _, _, h => by simp at h
  | 0, k, b :: bs, acc, h, _ => by
    have hk : k = 9 := by omega
    subst hk
    conv => lhs; unfold assembleLoop
    simp only [byte_shift, BitVec.ofNat_add_ofNat, bytesNat, Nat.reduceAdd, Nat.reduceLT, if_true, List.take_succ_cons,
      List.take_zero, List.drop_succ_cons, List.drop_zero, Nat.mul_zero, Nat.add_zero]
  | d + 1, k, b :: bs, acc, h, hl => by
    conv => lhs; unfold assembleLoop
    rw [if_pos (by omega : k < 10), if_neg (by omega : ¬ k + 1 = 10), if_neg (by omega : ¬ k + 1 = W)]
    simp only [byte_shift, BitVec.ofNat_add_ofNat]
    rw [assembleLoop_data hW d (k + 1) bs _ (by omega) (by simpa using hl)]
    simp only [List.take_succ_cons, List.drop_succ_cons, bytesNat, Prod.mk.injEq, List.cons.injEq, and_true]
    congr 1
    ring

/-- The data bytes of a trailing group with fewer than ten of them (R115, R116). -/
theorem assembleLoop_short {W : Nat} (hW : 10 ≤ W) : ∀ (bs : List Byte) (k acc : Nat), k + bs.length < 10 →
    assembleLoop W bs k k (BitVec.ofNat 80 acc) =
      if k + bs.length = 0 then ([], false) else ([BitVec.ofNat 80 (acc + bytesNat bs * 256 ^ k)], true)
  | [], k, acc, _ => by
    by_cases hk : k = 0
    · simp [assembleLoop, hk]
    · simp [assembleLoop, hk, bytesNat, Nat.pos_of_ne_zero hk]
  | b :: bs, k, acc, h => by
    simp only [List.length_cons] at h
    conv => lhs; unfold assembleLoop
    rw [if_pos (by omega : k < 10), if_neg (by omega : ¬ k + 1 = 10), if_neg (by omega : ¬ k + 1 = W)]
    simp only [byte_shift, BitVec.ofNat_add_ofNat]
    rw [assembleLoop_short hW bs (k + 1) _ (by omega), if_neg (by omega), if_neg (by simp)]
    simp only [bytesNat, Prod.mk.injEq, List.cons.injEq, and_true]
    congr 1
    ring

/-- One whole data group, with its padding, is taken off the front. -/
theorem assemble_group {W : Nat} (hW : 10 ≤ W) {bytes : List Byte} (h : 10 ≤ bytes.length) :
    assemble W bytes =
      (groupWord (bytes.take 10) :: (assemble W (bytes.drop W)).1, (assemble W (bytes.drop W)).2) := by
  unfold assemble
  have h0 := assembleLoop_data hW 9 0 bytes 0 (by omega) (by omega)
  simp only [Nat.zero_add, Nat.reduceAdd, Nat.pow_zero, Nat.mul_one] at h0
  rw [h0]
  by_cases h10 : 10 = W
  · subst h10; rfl
  · rw [if_neg h10, assembleLoop_pad (W - 10 - 1) 10 _ (by omega) (by omega), List.drop_drop]
    rw [show 10 + (W - 10 - 1 + 1) = W by omega]
    rfl

/-- The words of a payload: one per group, in order, and the flag of a trailing partial group (R113 to R117). -/
theorem assemble_eq {W : Nat} (hW : 10 ≤ W) : ∀ (n : Nat) (bytes : List Byte), bytes.length ≤ n →
    assemble W bytes =
      ((List.range ((bytes.length + (W - 1)) / W)).map (fun g => groupWord ((bytes.drop (g * W)).take 10)),
        decide (0 < bytes.length % W ∧ bytes.length % W < 10)) := by
  intro n
  induction n with
  | zero =>
    intro bytes h
    have : bytes = [] := List.length_eq_zero_iff.mp (by omega)
    subst this
    have hd : (W - 1) / W = 0 := Nat.div_eq_of_lt (by omega)
    simp [assemble, assembleLoop, hd]
  | succ n ih =>
    intro bytes h
    by_cases hlen : 10 ≤ bytes.length
    · rw [assemble_group hW hlen, ih (bytes.drop W) (by simp; omega)]
      simp only [List.length_drop]
      by_cases hw : W ≤ bytes.length
      · have h1 : (bytes.length + (W - 1)) / W = (bytes.length - W + (W - 1)) / W + 1 := by
          rw [Nat.div_eq_sub_div (by omega) (by omega : W ≤ bytes.length + (W - 1))]
          congr 2; omega
        rw [h1, List.range_succ_eq_map, Nat.mod_eq_sub_mod hw]
        simp [List.map_map, Function.comp_def, List.drop_drop, Nat.add_mul, Nat.add_comm W]
      · have h0 : bytes.length - W = 0 := by omega
        have h1 : (0 + (W - 1)) / W = 0 := Nat.div_eq_of_lt (by omega)
        have h2 : (bytes.length + (W - 1)) / W = 1 := by
          rw [Nat.div_eq_iff (by omega)]; omega
        have h3 : bytes.length % W = bytes.length := Nat.mod_eq_of_lt (by omega)
        rw [h0, h1, h2, h3]
        have h4 : ¬ bytes.length < 10 := by omega
        simp [h4]
    · have hs := assembleLoop_short hW bytes 0 0 (by omega)
      unfold assemble
      simp only [Nat.zero_add, Nat.pow_zero, Nat.mul_one] at hs
      rw [hs]
      have h3 : bytes.length % W = bytes.length := Nat.mod_eq_of_lt (by omega)
      by_cases he : bytes.length = 0
      · have hd : (0 + (W - 1)) / W = 0 := Nat.div_eq_of_lt (by omega)
        rw [h3, he, hd]
        simp
      · have h2 : (bytes.length + (W - 1)) / W = 1 := by
          rw [Nat.div_eq_iff (by omega)]; omega
        rw [h2, h3, if_neg he]
        have ht : bytes.take 10 = bytes := List.take_of_length_le (by omega)
        simp [groupWord, ht]
        omega

/-- R112: bit `i` of the group's byte `k` is bit `8k+i` of the number the bytes spell. -/
theorem bytesNat_div : ∀ (bs : List Byte) (k : Nat), bytesNat bs / 256 ^ k % 256 = (bs.getD k 0#8).toNat
  | [], k => by simp [bytesNat]
  | b :: bs, 0 => by have := b.isLt; simp [bytesNat]; omega
  | b :: bs, k + 1 => by
    have hb := b.isLt
    rw [Nat.pow_succ, Nat.mul_comm, ← Nat.div_div_eq_div_mul]
    rw [show bytesNat (b :: bs) / 256 = bytesNat bs by simp only [bytesNat]; omega, bytesNat_div bs k]
    rfl

/-- R112: byte `k` of a group fills bits `8k+7 : 8k` of its word. -/
theorem groupWord_byte (bs : List Byte) {k : Nat} (hk : k < 10) :
    (groupWord bs).extractLsb' (8 * k) 8 = bs.getD k 0#8 := by
  apply BitVec.eq_of_toNat_eq
  rw [← bytesNat_div]
  simp only [groupWord, BitVec.extractLsb'_toNat, BitVec.toNat_ofNat, Nat.shiftRight_eq_div_pow, Nat.pow_mul,
    Nat.reducePow]
  rw [show (1208925819614629174706176 : Nat) = 256 ^ k * 256 ^ (10 - k) by
    rw [← Nat.pow_add, show k + (10 - k) = 10 by omega]]
  rw [Nat.mod_mul_right_div_self, Nat.mod_mod_of_dvd]
  exact Dvd.intro_left (256 ^ (10 - k - 1)) (by rw [← Nat.pow_succ]; congr 1; omega)

/-- R111: the two group sizes. -/
theorem groupBytes_cases (b : Bool) : (if b then 16 else 10) = 16 ∨ (if b then 16 else 10) = 10 := by
  cases b <;> simp

end Sys2Proof.Machine
end

