-- ==== Sys2Proof/Laws/State.lean ====
section
/-! SUPPORT. One lemma per field per update of the state, so that no proof unfolds a record update. -/

namespace Sys2Proof.Machine

/-! ## The arguments beside the engine's state (R51) -/

@[simp] theorem Engine.withArgs_toEngine (prm : Params) (words : List Word) (rst : Bool) (e : Engine) : (e.withArgs prm words rst).toEngine = e := rfl
@[simp] theorem Engine.withArgs_params (prm : Params) (words : List Word) (rst : Bool) (e : Engine) : (e.withArgs prm words rst).params = prm := rfl
@[simp] theorem Engine.withArgs_input (prm : Params) (words : List Word) (rst : Bool) (e : Engine) : (e.withArgs prm words rst).input = words := rfl
@[simp] theorem Engine.withArgs_resetPin (prm : Params) (words : List Word) (rst : Bool) (e : Engine) : (e.withArgs prm words rst).resetPin = rst := rfl

/-! ## Session: sticky bits -/

@[simp] theorem Session.flag_ierr (b : IErrBit) (ses : Session) : (ses.flag b).ierr = ses.ierr ||| (1#11 <<< b.index) := rfl
@[simp] theorem Session.flag_wLatched (b : IErrBit) (ses : Session) : (ses.flag b).wLatched = ses.wLatched := rfl
@[simp] theorem Session.flag_w16 (b : IErrBit) (ses : Session) : (ses.flag b).w16 = ses.w16 := rfl
@[simp] theorem Session.flag_ioLatched (b : IErrBit) (ses : Session) : (ses.flag b).ioLatched = ses.ioLatched := rfl
@[simp] theorem Session.flag_intervalOrbit (b : IErrBit) (ses : Session) : (ses.flag b).intervalOrbit = ses.intervalOrbit := rfl
@[simp] theorem Session.flag_ir (b : IErrBit) (ses : Session) : (ses.flag b).ir = ses.ir := rfl
@[simp] theorem Session.flag_cl (b : IErrBit) (ses : Session) : (ses.flag b).cl = ses.cl := rfl
@[simp] theorem Session.flag_unkCh (b : IErrBit) (ses : Session) : (ses.flag b).unkCh = ses.unkCh := rfl
@[simp] theorem Session.flag_lcntA (b : IErrBit) (ses : Session) : (ses.flag b).lcntA = ses.lcntA := rfl
@[simp] theorem Session.flag_lcntB (b : IErrBit) (ses : Session) : (ses.flag b).lcntB = ses.lcntB := rfl
@[simp] theorem Session.flag_map (b : IErrBit) (ses : Session) : (ses.flag b).map = ses.map := rfl
@[simp] theorem Session.flag_lumi (b : IErrBit) (ses : Session) : (ses.flag b).lumi = ses.lumi := rfl
@[simp] theorem Session.flag_chan (b : IErrBit) (ses : Session) (ch : Channel) : (ses.flag b).chan ch = ses.chan ch := by cases ch <;> rfl

/-! ## Session: what `inc` adds to a counter -/

@[simp] theorem Session.noteWrap_wLatched (c : Word) (ses : Session) : (ses.noteWrap c).wLatched = ses.wLatched := by unfold Session.noteWrap; split <;> rfl
@[simp] theorem Session.noteWrap_w16 (c : Word) (ses : Session) : (ses.noteWrap c).w16 = ses.w16 := by unfold Session.noteWrap; split <;> rfl
@[simp] theorem Session.noteWrap_ioLatched (c : Word) (ses : Session) : (ses.noteWrap c).ioLatched = ses.ioLatched := by unfold Session.noteWrap; split <;> rfl
@[simp] theorem Session.noteWrap_intervalOrbit (c : Word) (ses : Session) : (ses.noteWrap c).intervalOrbit = ses.intervalOrbit := by unfold Session.noteWrap; split <;> rfl
@[simp] theorem Session.noteWrap_ir (c : Word) (ses : Session) : (ses.noteWrap c).ir = ses.ir := by unfold Session.noteWrap; split <;> rfl
@[simp] theorem Session.noteWrap_cl (c : Word) (ses : Session) : (ses.noteWrap c).cl = ses.cl := by unfold Session.noteWrap; split <;> rfl
@[simp] theorem Session.noteWrap_unkCh (c : Word) (ses : Session) : (ses.noteWrap c).unkCh = ses.unkCh := by unfold Session.noteWrap; split <;> rfl
@[simp] theorem Session.noteWrap_lcntA (c : Word) (ses : Session) : (ses.noteWrap c).lcntA = ses.lcntA := by unfold Session.noteWrap; split <;> rfl
@[simp] theorem Session.noteWrap_lcntB (c : Word) (ses : Session) : (ses.noteWrap c).lcntB = ses.lcntB := by unfold Session.noteWrap; split <;> rfl
@[simp] theorem Session.noteWrap_map (c : Word) (ses : Session) : (ses.noteWrap c).map = ses.map := by unfold Session.noteWrap; split <;> rfl
@[simp] theorem Session.noteWrap_lumi (c : Word) (ses : Session) : (ses.noteWrap c).lumi = ses.lumi := by unfold Session.noteWrap; split <;> rfl
@[simp] theorem Session.noteWrap_chan (c : Word) (ses : Session) (ch : Channel) : (ses.noteWrap c).chan ch = ses.chan ch := by unfold Session.noteWrap; split <;> simp
@[simp] theorem Session.noteWrap_ierr (c : Word) (ses : Session) : (ses.noteWrap c).ierr = if c = 0#32 then ses.ierr ||| (1#11 <<< 10) else ses.ierr := by unfold Session.noteWrap; split <;> rfl

/-! ## Session: channel fields -/

@[simp] theorem Session.chan_ir (ses : Session) : ses.chan .ir = ses.ir := id rfl
@[simp] theorem Session.chan_cl (ses : Session) : ses.chan .cl = ses.cl := id rfl
@[simp] theorem Session.chan_setChan_same (ch : Channel) (c : ChanState) (ses : Session) : (ses.setChan ch c).chan ch = c := by cases ch <;> rfl
theorem Session.chan_setChan_other {ch ch' : Channel} (h : ch' ≠ ch) (c : ChanState) (ses : Session) :
    (ses.setChan ch c).chan ch' = ses.chan ch' := by cases ch <;> cases ch' <;> first | rfl | exact absurd rfl h
@[simp] theorem Session.setChan_ir_ir (c : ChanState) (ses : Session) : (ses.setChan .ir c).ir = c := rfl
@[simp] theorem Session.setChan_ir_cl (c : ChanState) (ses : Session) : (ses.setChan .ir c).cl = ses.cl := rfl
@[simp] theorem Session.setChan_cl_ir (c : ChanState) (ses : Session) : (ses.setChan .cl c).ir = ses.ir := rfl
@[simp] theorem Session.setChan_cl_cl (c : ChanState) (ses : Session) : (ses.setChan .cl c).cl = c := rfl
@[simp] theorem Session.setChan_ierr (ch : Channel) (c : ChanState) (ses : Session) : (ses.setChan ch c).ierr = ses.ierr := by cases ch <;> rfl
@[simp] theorem Session.setChan_wLatched (ch : Channel) (c : ChanState) (ses : Session) : (ses.setChan ch c).wLatched = ses.wLatched := by cases ch <;> rfl
@[simp] theorem Session.setChan_w16 (ch : Channel) (c : ChanState) (ses : Session) : (ses.setChan ch c).w16 = ses.w16 := by cases ch <;> rfl
@[simp] theorem Session.setChan_ioLatched (ch : Channel) (c : ChanState) (ses : Session) : (ses.setChan ch c).ioLatched = ses.ioLatched := by cases ch <;> rfl
@[simp] theorem Session.setChan_intervalOrbit (ch : Channel) (c : ChanState) (ses : Session) : (ses.setChan ch c).intervalOrbit = ses.intervalOrbit := by cases ch <;> rfl
@[simp] theorem Session.setChan_unkCh (ch : Channel) (c : ChanState) (ses : Session) : (ses.setChan ch c).unkCh = ses.unkCh := by cases ch <;> rfl
@[simp] theorem Session.setChan_lcntA (ch : Channel) (c : ChanState) (ses : Session) : (ses.setChan ch c).lcntA = ses.lcntA := by cases ch <;> rfl
@[simp] theorem Session.setChan_lcntB (ch : Channel) (c : ChanState) (ses : Session) : (ses.setChan ch c).lcntB = ses.lcntB := by cases ch <;> rfl
@[simp] theorem Session.setChan_map (ch : Channel) (c : ChanState) (ses : Session) : (ses.setChan ch c).map = ses.map := by cases ch <;> rfl
@[simp] theorem Session.setChan_lumi (ch : Channel) (c : ChanState) (ses : Session) : (ses.setChan ch c).lumi = ses.lumi := by cases ch <;> rfl
@[simp] theorem Session.setChan_setChan (ch : Channel) (c c' : ChanState) (ses : Session) : (ses.setChan ch c).setChan ch c' = ses.setChan ch c' := by cases ch <;> rfl
@[simp] theorem Session.setChan_chan (ch : Channel) (ses : Session) : ses.setChan ch (ses.chan ch) = ses := by cases ch <;> rfl

/-! ## Session: the remnant -/

@[simp] theorem Session.setRemnant_ierr (ch : Channel) (v c : Nat) (ses : Session) : (ses.setRemnant ch v c).ierr = ses.ierr := by simp [Session.setRemnant]
@[simp] theorem Session.setRemnant_wLatched (ch : Channel) (v c : Nat) (ses : Session) : (ses.setRemnant ch v c).wLatched = ses.wLatched := by simp [Session.setRemnant]
@[simp] theorem Session.setRemnant_w16 (ch : Channel) (v c : Nat) (ses : Session) : (ses.setRemnant ch v c).w16 = ses.w16 := by simp [Session.setRemnant]
@[simp] theorem Session.setRemnant_ioLatched (ch : Channel) (v c : Nat) (ses : Session) : (ses.setRemnant ch v c).ioLatched = ses.ioLatched := by simp [Session.setRemnant]
@[simp] theorem Session.setRemnant_intervalOrbit (ch : Channel) (v c : Nat) (ses : Session) : (ses.setRemnant ch v c).intervalOrbit = ses.intervalOrbit := by simp [Session.setRemnant]
@[simp] theorem Session.setRemnant_unkCh (ch : Channel) (v c : Nat) (ses : Session) : (ses.setRemnant ch v c).unkCh = ses.unkCh := by simp [Session.setRemnant]
@[simp] theorem Session.setRemnant_lcntA (ch : Channel) (v c : Nat) (ses : Session) : (ses.setRemnant ch v c).lcntA = ses.lcntA := by simp [Session.setRemnant]
@[simp] theorem Session.setRemnant_lcntB (ch : Channel) (v c : Nat) (ses : Session) : (ses.setRemnant ch v c).lcntB = ses.lcntB := by simp [Session.setRemnant]
@[simp] theorem Session.setRemnant_map (ch : Channel) (v c : Nat) (ses : Session) : (ses.setRemnant ch v c).map = ses.map := by simp [Session.setRemnant]
@[simp] theorem Session.setRemnant_lumi (ch : Channel) (v c : Nat) (ses : Session) : (ses.setRemnant ch v c).lumi = ses.lumi := by simp [Session.setRemnant]
@[simp] theorem Session.setRemnant_chan_same (ch : Channel) (v c : Nat) (ses : Session) : (ses.setRemnant ch v c).chan ch = { ses.chan ch with remVal := BitVec.ofNat 78 v, remCnt := BitVec.ofNat 7 c } := by simp [Session.setRemnant]
theorem Session.setRemnant_chan_other {ch ch' : Channel} (h : ch' ≠ ch) (v c : Nat) (ses : Session) :
    (ses.setRemnant ch v c).chan ch' = ses.chan ch' := Session.chan_setChan_other h _ _

/-! ## Session: incRej -/

@[simp] theorem Session.incRej_wLatched (ch : Channel) (ses : Session) : (ses.incRej ch).wLatched = ses.wLatched := by simp [Session.incRej]
@[simp] theorem Session.incRej_w16 (ch : Channel) (ses : Session) : (ses.incRej ch).w16 = ses.w16 := by simp [Session.incRej]
@[simp] theorem Session.incRej_ioLatched (ch : Channel) (ses : Session) : (ses.incRej ch).ioLatched = ses.ioLatched := by simp [Session.incRej]
@[simp] theorem Session.incRej_intervalOrbit (ch : Channel) (ses : Session) : (ses.incRej ch).intervalOrbit = ses.intervalOrbit := by simp [Session.incRej]
@[simp] theorem Session.incRej_unkCh (ch : Channel) (ses : Session) : (ses.incRej ch).unkCh = ses.unkCh := by simp [Session.incRej]
@[simp] theorem Session.incRej_lcntA (ch : Channel) (ses : Session) : (ses.incRej ch).lcntA = ses.lcntA := by simp [Session.incRej]
@[simp] theorem Session.incRej_lcntB (ch : Channel) (ses : Session) : (ses.incRej ch).lcntB = ses.lcntB := by simp [Session.incRej]
@[simp] theorem Session.incRej_map (ch : Channel) (ses : Session) : (ses.incRej ch).map = ses.map := by simp [Session.incRej]
@[simp] theorem Session.incRej_lumi (ch : Channel) (ses : Session) : (ses.incRej ch).lumi = ses.lumi := by simp [Session.incRej]
@[simp] theorem Session.incRej_ierr (ch : Channel) (ses : Session) : (ses.incRej ch).ierr = if (ses.chan ch).rej + 1#32 = 0#32 then ses.ierr ||| (1#11 <<< 10) else ses.ierr := by simp [Session.incRej]
@[simp] theorem Session.incRej_chan_same (ch : Channel) (ses : Session) : (ses.incRej ch).chan ch = { ses.chan ch with rej := (ses.chan ch).rej + 1#32 } := by simp [Session.incRej]
theorem Session.incRej_chan_other {ch ch' : Channel} (h : ch' ≠ ch) (ses : Session) :
    (ses.incRej ch).chan ch' = ses.chan ch' := by simp [Session.incRej, Session.chan_setChan_other h]

/-! ## Session: incDup -/

@[simp] theorem Session.incDup_wLatched (ch : Channel) (ses : Session) : (ses.incDup ch).wLatched = ses.wLatched := by simp [Session.incDup]
@[simp] theorem Session.incDup_w16 (ch : Channel) (ses : Session) : (ses.incDup ch).w16 = ses.w16 := by simp [Session.incDup]
@[simp] theorem Session.incDup_ioLatched (ch : Channel) (ses : Session) : (ses.incDup ch).ioLatched = ses.ioLatched := by simp [Session.incDup]
@[simp] theorem Session.incDup_intervalOrbit (ch : Channel) (ses : Session) : (ses.incDup ch).intervalOrbit = ses.intervalOrbit := by simp [Session.incDup]
@[simp] theorem Session.incDup_unkCh (ch : Channel) (ses : Session) : (ses.incDup ch).unkCh = ses.unkCh := by simp [Session.incDup]
@[simp] theorem Session.incDup_lcntA (ch : Channel) (ses : Session) : (ses.incDup ch).lcntA = ses.lcntA := by simp [Session.incDup]
@[simp] theorem Session.incDup_lcntB (ch : Channel) (ses : Session) : (ses.incDup ch).lcntB = ses.lcntB := by simp [Session.incDup]
@[simp] theorem Session.incDup_map (ch : Channel) (ses : Session) : (ses.incDup ch).map = ses.map := by simp [Session.incDup]
@[simp] theorem Session.incDup_lumi (ch : Channel) (ses : Session) : (ses.incDup ch).lumi = ses.lumi := by simp [Session.incDup]
@[simp] theorem Session.incDup_ierr (ch : Channel) (ses : Session) : (ses.incDup ch).ierr = if (ses.chan ch).dup + 1#32 = 0#32 then ses.ierr ||| (1#11 <<< 10) else ses.ierr := by simp [Session.incDup]
@[simp] theorem Session.incDup_chan_same (ch : Channel) (ses : Session) : (ses.incDup ch).chan ch = { ses.chan ch with dup := (ses.chan ch).dup + 1#32 } := by simp [Session.incDup]
theorem Session.incDup_chan_other {ch ch' : Channel} (h : ch' ≠ ch) (ses : Session) :
    (ses.incDup ch).chan ch' = ses.chan ch' := by simp [Session.incDup, Session.chan_setChan_other h]

/-! ## Session: the whole effect of counting a rejection or a duplicate (R45) -/

/-- R45: a counter wraps exactly from its largest value. -/
theorem wraps_iff (c : Word) : c + 1#32 = 0#32 ↔ c = 0xFFFFFFFF#32 := by
  constructor
  · intro h
    bv_omega
  · rintro rfl
    rfl

theorem Session.incRej_eq (ch : Channel) (ses : Session) : ses.incRej ch =
    { ses with
      ir := if ch = .ir then { ses.ir with rej := ses.ir.rej + 1#32 } else ses.ir
      cl := if ch = .cl then { ses.cl with rej := ses.cl.rej + 1#32 } else ses.cl
      ierr := ses.ierr ||| (if (ses.chan ch).rej = 0xFFFFFFFF#32 then 0x400#11 else 0#11) } := by
  unfold Session.incRej Session.noteWrap
  simp only [wraps_iff]
  cases ch <;> simp only [Session.chan_ir, Session.chan_cl] <;> split <;>
    simp [Session.setChan, Session.flag, IErrBit.index]

theorem Session.incDup_eq (ch : Channel) (ses : Session) : ses.incDup ch =
    { ses with
      ir := if ch = .ir then { ses.ir with dup := ses.ir.dup + 1#32 } else ses.ir
      cl := if ch = .cl then { ses.cl with dup := ses.cl.dup + 1#32 } else ses.cl
      ierr := ses.ierr ||| (if (ses.chan ch).dup = 0xFFFFFFFF#32 then 0x400#11 else 0#11) } := by
  unfold Session.incDup Session.noteWrap
  simp only [wraps_iff]
  cases ch <;> simp only [Session.chan_ir, Session.chan_cl] <;> split <;>
    simp [Session.setChan, Session.flag, IErrBit.index]

/-! ## Session: incUnkCh -/

@[simp] theorem Session.incUnkCh_ierr (ses : Session) : (ses.incUnkCh).ierr = if ses.unkCh + 1#32 = 0#32 then ses.ierr ||| (1#11 <<< 10) else ses.ierr := by simp [Session.incUnkCh]
@[simp] theorem Session.incUnkCh_wLatched (ses : Session) : (ses.incUnkCh).wLatched = ses.wLatched := by simp [Session.incUnkCh]
@[simp] theorem Session.incUnkCh_w16 (ses : Session) : (ses.incUnkCh).w16 = ses.w16 := by simp [Session.incUnkCh]
@[simp] theorem Session.incUnkCh_ioLatched (ses : Session) : (ses.incUnkCh).ioLatched = ses.ioLatched := by simp [Session.incUnkCh]
@[simp] theorem Session.incUnkCh_intervalOrbit (ses : Session) : (ses.incUnkCh).intervalOrbit = ses.intervalOrbit := by simp [Session.incUnkCh]
@[simp] theorem Session.incUnkCh_ir (ses : Session) : (ses.incUnkCh).ir = ses.ir := by simp [Session.incUnkCh]
@[simp] theorem Session.incUnkCh_cl (ses : Session) : (ses.incUnkCh).cl = ses.cl := by simp [Session.incUnkCh]
@[simp] theorem Session.incUnkCh_unkCh (ses : Session) : (ses.incUnkCh).unkCh = ses.unkCh + 1#32 := by simp [Session.incUnkCh]
@[simp] theorem Session.incUnkCh_lcntA (ses : Session) : (ses.incUnkCh).lcntA = ses.lcntA := by simp [Session.incUnkCh]
@[simp] theorem Session.incUnkCh_lcntB (ses : Session) : (ses.incUnkCh).lcntB = ses.lcntB := by simp [Session.incUnkCh]
@[simp] theorem Session.incUnkCh_map (ses : Session) : (ses.incUnkCh).map = ses.map := by simp [Session.incUnkCh]
@[simp] theorem Session.incUnkCh_lumi (ses : Session) : (ses.incUnkCh).lumi = ses.lumi := by simp [Session.incUnkCh]
@[simp] theorem Session.incUnkCh_chan (ses : Session) (ch : Channel) : (ses.incUnkCh).chan ch = ses.chan ch := by cases ch <;> simp

/-! ## Session: incLcntA -/

@[simp] theorem Session.incLcntA_ierr (ses : Session) : (ses.incLcntA).ierr = if ses.lcntA + 1#32 = 0#32 then ses.ierr ||| (1#11 <<< 10) else ses.ierr := by simp [Session.incLcntA]
@[simp] theorem Session.incLcntA_wLatched (ses : Session) : (ses.incLcntA).wLatched = ses.wLatched := by simp [Session.incLcntA]
@[simp] theorem Session.incLcntA_w16 (ses : Session) : (ses.incLcntA).w16 = ses.w16 := by simp [Session.incLcntA]
@[simp] theorem Session.incLcntA_ioLatched (ses : Session) : (ses.incLcntA).ioLatched = ses.ioLatched := by simp [Session.incLcntA]
@[simp] theorem Session.incLcntA_intervalOrbit (ses : Session) : (ses.incLcntA).intervalOrbit = ses.intervalOrbit := by simp [Session.incLcntA]
@[simp] theorem Session.incLcntA_ir (ses : Session) : (ses.incLcntA).ir = ses.ir := by simp [Session.incLcntA]
@[simp] theorem Session.incLcntA_cl (ses : Session) : (ses.incLcntA).cl = ses.cl := by simp [Session.incLcntA]
@[simp] theorem Session.incLcntA_unkCh (ses : Session) : (ses.incLcntA).unkCh = ses.unkCh := by simp [Session.incLcntA]
@[simp] theorem Session.incLcntA_lcntA (ses : Session) : (ses.incLcntA).lcntA = ses.lcntA + 1#32 := by simp [Session.incLcntA]
@[simp] theorem Session.incLcntA_lcntB (ses : Session) : (ses.incLcntA).lcntB = ses.lcntB := by simp [Session.incLcntA]
@[simp] theorem Session.incLcntA_map (ses : Session) : (ses.incLcntA).map = ses.map := by simp [Session.incLcntA]
@[simp] theorem Session.incLcntA_lumi (ses : Session) : (ses.incLcntA).lumi = ses.lumi := by simp [Session.incLcntA]
@[simp] theorem Session.incLcntA_chan (ses : Session) (ch : Channel) : (ses.incLcntA).chan ch = ses.chan ch := by cases ch <;> simp

/-! ## Session: incLcntB -/

@[simp] theorem Session.incLcntB_ierr (ses : Session) : (ses.incLcntB).ierr = if ses.lcntB + 1#32 = 0#32 then ses.ierr ||| (1#11 <<< 10) else ses.ierr := by simp [Session.incLcntB]
@[simp] theorem Session.incLcntB_wLatched (ses : Session) : (ses.incLcntB).wLatched = ses.wLatched := by simp [Session.incLcntB]
@[simp] theorem Session.incLcntB_w16 (ses : Session) : (ses.incLcntB).w16 = ses.w16 := by simp [Session.incLcntB]
@[simp] theorem Session.incLcntB_ioLatched (ses : Session) : (ses.incLcntB).ioLatched = ses.ioLatched := by simp [Session.incLcntB]
@[simp] theorem Session.incLcntB_intervalOrbit (ses : Session) : (ses.incLcntB).intervalOrbit = ses.intervalOrbit := by simp [Session.incLcntB]
@[simp] theorem Session.incLcntB_ir (ses : Session) : (ses.incLcntB).ir = ses.ir := by simp [Session.incLcntB]
@[simp] theorem Session.incLcntB_cl (ses : Session) : (ses.incLcntB).cl = ses.cl := by simp [Session.incLcntB]
@[simp] theorem Session.incLcntB_unkCh (ses : Session) : (ses.incLcntB).unkCh = ses.unkCh := by simp [Session.incLcntB]
@[simp] theorem Session.incLcntB_lcntA (ses : Session) : (ses.incLcntB).lcntA = ses.lcntA := by simp [Session.incLcntB]
@[simp] theorem Session.incLcntB_lcntB (ses : Session) : (ses.incLcntB).lcntB = ses.lcntB + 1#32 := by simp [Session.incLcntB]
@[simp] theorem Session.incLcntB_map (ses : Session) : (ses.incLcntB).map = ses.map := by simp [Session.incLcntB]
@[simp] theorem Session.incLcntB_lumi (ses : Session) : (ses.incLcntB).lumi = ses.lumi := by simp [Session.incLcntB]
@[simp] theorem Session.incLcntB_chan (ses : Session) (ch : Channel) : (ses.incLcntB).chan ch = ses.chan ch := by cases ch <;> simp

/-! ## State: GERR -/

@[simp] theorem State.gflag_engine (b : GErrBit) (s : State) : (s.gflag b).engine = s.engine := rfl
@[simp] theorem State.gflag_cpos (b : GErrBit) (s : State) : (s.gflag b).cpos = s.cpos := rfl
@[simp] theorem State.gflag_cfg (b : GErrBit) (s : State) : (s.gflag b).cfg = s.cfg := rfl
@[simp] theorem State.gflag_gerr (b : GErrBit) (s : State) : (s.gflag b).gerr = s.gerr ||| (1#4 <<< b.index) := rfl
@[simp] theorem State.gflag_fatalCause (b : GErrBit) (s : State) : (s.gflag b).fatalCause = s.fatalCause := rfl
@[simp] theorem State.gflag_fatalCpos (b : GErrBit) (s : State) : (s.gflag b).fatalCpos = s.fatalCpos := rfl
@[simp] theorem State.gflag_ses (b : GErrBit) (s : State) : (s.gflag b).ses = s.ses := rfl
@[simp] theorem State.gflag_resp (b : GErrBit) (s : State) : (s.gflag b).resp = s.resp := rfl
@[simp] theorem State.gflag_params (b : GErrBit) (s : State) : (s.gflag b).params = s.params := rfl
@[simp] theorem State.gflag_input (b : GErrBit) (s : State) : (s.gflag b).input = s.input := rfl
@[simp] theorem State.gflag_resetPin (b : GErrBit) (s : State) : (s.gflag b).resetPin = s.resetPin := rfl

/-! ## State: CPOS -/

@[simp] theorem State.retire_engine (n : Nat) (s : State) : (s.retire n).engine = s.engine := rfl
@[simp] theorem State.retire_cpos (n : Nat) (s : State) : (s.retire n).cpos = s.cpos + BitVec.ofNat 32 n := rfl
@[simp] theorem State.retire_cfg (n : Nat) (s : State) : (s.retire n).cfg = s.cfg := rfl
@[simp] theorem State.retire_gerr (n : Nat) (s : State) : (s.retire n).gerr = s.gerr := rfl
@[simp] theorem State.retire_fatalCause (n : Nat) (s : State) : (s.retire n).fatalCause = s.fatalCause := rfl
@[simp] theorem State.retire_fatalCpos (n : Nat) (s : State) : (s.retire n).fatalCpos = s.fatalCpos := rfl
@[simp] theorem State.retire_ses (n : Nat) (s : State) : (s.retire n).ses = s.ses := rfl
@[simp] theorem State.retire_resp (n : Nat) (s : State) : (s.retire n).resp = s.resp := rfl
@[simp] theorem State.retire_params (n : Nat) (s : State) : (s.retire n).params = s.params := rfl
@[simp] theorem State.retire_input (n : Nat) (s : State) : (s.retire n).input = s.input := rfl
@[simp] theorem State.retire_resetPin (n : Nat) (s : State) : (s.retire n).resetPin = s.resetPin := rfl

/-! ## State: the response stream -/

@[simp] theorem State.respPush_engine (ws : List Word) (s : State) : (s.respPush ws).engine = s.engine := rfl
@[simp] theorem State.respPush_cpos (ws : List Word) (s : State) : (s.respPush ws).cpos = s.cpos := rfl
@[simp] theorem State.respPush_cfg (ws : List Word) (s : State) : (s.respPush ws).cfg = s.cfg := rfl
@[simp] theorem State.respPush_gerr (ws : List Word) (s : State) : (s.respPush ws).gerr = s.gerr := rfl
@[simp] theorem State.respPush_fatalCause (ws : List Word) (s : State) : (s.respPush ws).fatalCause = s.fatalCause := rfl
@[simp] theorem State.respPush_fatalCpos (ws : List Word) (s : State) : (s.respPush ws).fatalCpos = s.fatalCpos := rfl
@[simp] theorem State.respPush_ses (ws : List Word) (s : State) : (s.respPush ws).ses = s.ses := rfl
@[simp] theorem State.respPush_resp (ws : List Word) (s : State) : (s.respPush ws).resp = s.resp ++ ws := rfl
@[simp] theorem State.respPush_params (ws : List Word) (s : State) : (s.respPush ws).params = s.params := rfl
@[simp] theorem State.respPush_input (ws : List Word) (s : State) : (s.respPush ws).input = s.input := rfl
@[simp] theorem State.respPush_resetPin (ws : List Word) (s : State) : (s.respPush ws).resetPin = s.resetPin := rfl

/-! ## State: the exception -/

@[simp] theorem State.abort_engine (c : FatalCause) (s : State) : (s.abort c).engine = .aborted := rfl
@[simp] theorem State.abort_cpos (c : FatalCause) (s : State) : (s.abort c).cpos = s.cpos := rfl
@[simp] theorem State.abort_cfg (c : FatalCause) (s : State) : (s.abort c).cfg = s.cfg := rfl
@[simp] theorem State.abort_gerr (c : FatalCause) (s : State) : (s.abort c).gerr = s.gerr := rfl
@[simp] theorem State.abort_fatalCause (c : FatalCause) (s : State) : (s.abort c).fatalCause = c := rfl
@[simp] theorem State.abort_fatalCpos (c : FatalCause) (s : State) : (s.abort c).fatalCpos = s.cpos := rfl
@[simp] theorem State.abort_ses (c : FatalCause) (s : State) : (s.abort c).ses = s.ses := rfl
@[simp] theorem State.abort_resp (c : FatalCause) (s : State) : (s.abort c).resp = s.resp := rfl
@[simp] theorem State.abort_params (c : FatalCause) (s : State) : (s.abort c).params = s.params := rfl
@[simp] theorem State.abort_input (c : FatalCause) (s : State) : (s.abort c).input = s.input := rfl
@[simp] theorem State.abort_resetPin (c : FatalCause) (s : State) : (s.abort c).resetPin = s.resetPin := rfl

/-! ## State: BEGIN's clear -/

@[simp] theorem State.clearSession_engine (s : State) : (s.clearSession).engine = s.engine := rfl
@[simp] theorem State.clearSession_cpos (s : State) : (s.clearSession).cpos = s.cpos := rfl
@[simp] theorem State.clearSession_cfg (s : State) : (s.clearSession).cfg = s.cfg := rfl
@[simp] theorem State.clearSession_gerr (s : State) : (s.clearSession).gerr = s.gerr := rfl
@[simp] theorem State.clearSession_fatalCause (s : State) : (s.clearSession).fatalCause = .none := rfl
@[simp] theorem State.clearSession_fatalCpos (s : State) : (s.clearSession).fatalCpos = 0#32 := rfl
@[simp] theorem State.clearSession_ses (s : State) : (s.clearSession).ses = Session.clear := rfl
@[simp] theorem State.clearSession_resp (s : State) : (s.clearSession).resp = s.resp := rfl
@[simp] theorem State.clearSession_params (s : State) : (s.clearSession).params = s.params := rfl
@[simp] theorem State.clearSession_input (s : State) : (s.clearSession).input = s.input := rfl
@[simp] theorem State.clearSession_resetPin (s : State) : (s.clearSession).resetPin = s.resetPin := rfl

/-! ## State: reset -/

@[simp] theorem State.resetFields_engine (s : State) : (s.resetFields).engine = .idle := rfl
@[simp] theorem State.resetFields_cpos (s : State) : (s.resetFields).cpos = 0#32 := rfl
@[simp] theorem State.resetFields_cfg (s : State) : (s.resetFields).cfg = CfgRegs.reset := rfl
@[simp] theorem State.resetFields_gerr (s : State) : (s.resetFields).gerr = 0#4 := rfl
@[simp] theorem State.resetFields_fatalCause (s : State) : (s.resetFields).fatalCause = .none := rfl
@[simp] theorem State.resetFields_fatalCpos (s : State) : (s.resetFields).fatalCpos = 0#32 := rfl
@[simp] theorem State.resetFields_ses (s : State) : (s.resetFields).ses = Session.clear := rfl
@[simp] theorem State.resetFields_resp (s : State) : (s.resetFields).resp = s.resp := rfl
@[simp] theorem State.resetFields_params (s : State) : (s.resetFields).params = s.params := rfl
@[simp] theorem State.resetFields_input (s : State) : (s.resetFields).input = s.input := rfl
@[simp] theorem State.resetFields_resetPin (s : State) : (s.resetFields).resetPin = s.resetPin := rfl

/-! ## State: the hardware reset -/

@[simp] theorem State.hwReset_engine (s : State) : (s.hwReset).engine = .idle := rfl
@[simp] theorem State.hwReset_cpos (s : State) : (s.hwReset).cpos = 0#32 := rfl
@[simp] theorem State.hwReset_cfg (s : State) : (s.hwReset).cfg = CfgRegs.reset := rfl
@[simp] theorem State.hwReset_gerr (s : State) : (s.hwReset).gerr = 0#4 := rfl
@[simp] theorem State.hwReset_fatalCause (s : State) : (s.hwReset).fatalCause = .none := rfl
@[simp] theorem State.hwReset_fatalCpos (s : State) : (s.hwReset).fatalCpos = 0#32 := rfl
@[simp] theorem State.hwReset_ses (s : State) : (s.hwReset).ses = Session.clear := rfl
@[simp] theorem State.hwReset_resp (s : State) : (s.hwReset).resp = s.resp := rfl
@[simp] theorem State.hwReset_params (s : State) : (s.hwReset).params = s.params := rfl
@[simp] theorem State.hwReset_input (s : State) : (s.hwReset).input = s.input := rfl
@[simp] theorem State.hwReset_resetPin (s : State) : (s.hwReset).resetPin = false := rfl

/-! ## The sticky bits, one by one (R33, R34) -/

@[simp] theorem Session.hasFlag_flag (b c : IErrBit) (ses : Session) :
    (ses.flag b).hasFlag c = (ses.hasFlag c || decide (c = b)) := by
  cases b <;> cases c <;> simp [Session.hasFlag, IErrBit.index]

theorem Session.hasFlag_congr {ses ses' : Session} (h : ses.ierr = ses'.ierr) (b : IErrBit) :
    ses.hasFlag b = ses'.hasFlag b := by simp [Session.hasFlag, h]

@[simp] theorem Session.hasFlag_noteWrap (c : Word) (b : IErrBit) (ses : Session) :
    (ses.noteWrap c).hasFlag b = (ses.hasFlag b || (decide (b = .cntovf) && decide (c = 0#32))) := by
  unfold Session.noteWrap
  split <;> simp [*]

@[simp] theorem Session.setRemnant_setRemnant (ch : Channel) (v n v' n' : Nat) (ses : Session) :
    (ses.setRemnant ch v n).setRemnant ch v' n' = ses.setRemnant ch v' n' := by cases ch <;> rfl

@[simp] theorem Session.hasFlag_setChan (ch : Channel) (c : ChanState) (b : IErrBit) (ses : Session) :
    (ses.setChan ch c).hasFlag b = ses.hasFlag b := Session.hasFlag_congr (by simp) b

@[simp] theorem Session.hasFlag_setRemnant (ch : Channel) (val cnt : Nat) (b : IErrBit) (ses : Session) :
    (ses.setRemnant ch val cnt).hasFlag b = ses.hasFlag b := Session.hasFlag_congr (by simp) b

@[simp] theorem Session.hasFlag_incRej (ch : Channel) (b : IErrBit) (ses : Session) : (ses.incRej ch).hasFlag b =
    (ses.hasFlag b || (decide (b = .cntovf) && decide ((ses.chan ch).rej + 1#32 = 0#32))) :=
  (Session.hasFlag_noteWrap _ _ _).trans (congrArg (· || _) (Session.hasFlag_congr (by simp) b))

@[simp] theorem Session.hasFlag_incDup (ch : Channel) (b : IErrBit) (ses : Session) : (ses.incDup ch).hasFlag b =
    (ses.hasFlag b || (decide (b = .cntovf) && decide ((ses.chan ch).dup + 1#32 = 0#32))) :=
  (Session.hasFlag_noteWrap _ _ _).trans (congrArg (· || _) (Session.hasFlag_congr (by simp) b))

@[simp] theorem Session.hasFlag_incUnkCh (b : IErrBit) (ses : Session) : (ses.incUnkCh).hasFlag b =
    (ses.hasFlag b || (decide (b = .cntovf) && decide (ses.unkCh + 1#32 = 0#32))) :=
  (Session.hasFlag_noteWrap _ _ _).trans (congrArg (· || _) (Session.hasFlag_congr (by simp) b))

@[simp] theorem Session.hasFlag_incLcntA (b : IErrBit) (ses : Session) : (ses.incLcntA).hasFlag b =
    (ses.hasFlag b || (decide (b = .cntovf) && decide (ses.lcntA + 1#32 = 0#32))) :=
  (Session.hasFlag_noteWrap _ _ _).trans (congrArg (· || _) (Session.hasFlag_congr (by simp) b))

@[simp] theorem Session.hasFlag_incLcntB (b : IErrBit) (ses : Session) : (ses.incLcntB).hasFlag b =
    (ses.hasFlag b || (decide (b = .cntovf) && decide (ses.lcntB + 1#32 = 0#32))) :=
  (Session.hasFlag_noteWrap _ _ _).trans (congrArg (· || _) (Session.hasFlag_congr (by simp) b))

@[simp] theorem State.hasGflag_gflag (b c : GErrBit) (s : State) :
    (s.gflag b).hasGflag c = (s.hasGflag c || decide (c = b)) := by
  cases b <;> cases c <;> simp [State.hasGflag, GErrBit.index]

theorem State.hasGflag_congr {s t : State} (h : s.gerr = t.gerr) (b : GErrBit) : s.hasGflag b = t.hasGflag b := by
  simp [State.hasGflag, h]

/-! ## The configuration (R183) and the register map (R24, R47) -/

theorem CfgRegs.legal_iff (cfg : CfgRegs) : cfg.legal = true ↔
    13 ≤ cfg.npldIr.toNat ∧ cfg.npldIr.toNat ≤ 79 ∧ 13 ≤ cfg.npldCl.toNat ∧ cfg.npldCl.toNat ≤ 79 ∧
      cfg.irCode ≠ cfg.clCode := by
  simp only [CfgRegs.legal, Bool.and_eq_true, decide_eq_true_eq, bne_iff_ne, and_assoc]
  rfl

/-- R183: the bounds of both chunk widths. -/
theorem CfgRegs.legal_width {cfg : CfgRegs} (h : cfg.legal = true) (ch : Channel) :
    13 ≤ cfg.width ch ∧ cfg.width ch ≤ 79 := by
  have := cfg.legal_iff.mp h
  cases ch <;> simp only [CfgRegs.width] <;> omega

theorem csrClass_cfg_iff : ∀ idx, csrClass idx = .cfg ↔ (1 ≤ idx.toNat ∧ idx.toNat ≤ 0x0E) := by decide +kernel

theorem csrAt_none_iff : ∀ idx, csrAt idx = none ↔ (idx.toNat = 0x0F ∨ 0x2C < idx.toNat) := by decide +kernel

/-- The index of a register (R47). -/
def Csr.index : Csr → BitVec 8
  | .id => 0x00#8
  | .ctrl => 0x01#8
  | .npldIr => 0x02#8
  | .npldCl => 0x03#8
  | .offC => 0x04#8
  | .lat1 => 0x05#8
  | .lat2 => 0x06#8
  | .fsMask => 0x07#8
  | .chsel => 0x08#8
  | .lmaskA0 => 0x09#8
  | .lmaskA1 => 0x0A#8
  | .lmaskA2 => 0x0B#8
  | .lmaskB0 => 0x0C#8
  | .lmaskB1 => 0x0D#8
  | .lmaskB2 => 0x0E#8
  | .status => 0x10#8
  | .ierr => 0x11#8
  | .gerr => 0x12#8
  | .fatalCpos => 0x13#8
  | .cpos => 0x14#8
  | .intervalOrbit => 0x15#8
  | .frameOrbitIr => 0x16#8
  | .frameOrbitCl => 0x17#8
  | .lastOrbitIr => 0x18#8
  | .lastOrbitCl => 0x19#8
  | .remCntIr => 0x1A#8
  | .remCntCl => 0x1B#8
  | .remValIr0 => 0x1C#8
  | .remValIr1 => 0x1D#8
  | .remValIr2 => 0x1E#8
  | .remValCl0 => 0x1F#8
  | .remValCl1 => 0x20#8
  | .remValCl2 => 0x21#8
  | .rejIr => 0x22#8
  | .rejCl => 0x23#8
  | .dupIr => 0x24#8
  | .dupCl => 0x25#8
  | .unkCh => 0x26#8
  | .lcntA => 0x27#8
  | .lcntB => 0x28#8
  | .digitCount => 0x29#8
  | .lumiCount => 0x2A#8
  | .mapCap => 0x2B#8
  | .lumiCap => 0x2C#8

theorem csrAt_index (r : Csr) : csrAt r.index = some r := by cases r <;> rfl

theorem csrAt_eq_some {idx : BitVec 8} {r : Csr} (h : csrAt idx = some r) : idx = r.index := by
  have key : ∀ idx, ((csrAt idx).map Csr.index).getD idx = idx := by decide +kernel
  simpa [h] using (key idx).symm

end Sys2Proof.Machine
end

