-- ==== Sys2Proof/Laws/Builder.lean ====
section
/-! SUPPORT. The digit map's own laws, and what MERGE and BUILD can do, said once (R131 to R145). -/

namespace Sys2Proof.Machine

/-! ## Fields of a chunk (R8, R132) -/

theorem chunkBc_eq (c : Chunk) : chunkBc c = c % 4096 := by simp [chunkBc, slice]

theorem chunkBc_lt (c : Chunk) : chunkBc c < 4096 := by rw [chunkBc_eq]; omega

/-- R132: the payload of a chunk of a legal width is its `N - 12` bits above the bc field. -/
theorem chunkPay_eq {N : Nat} (hN : 13 ≤ N) (c : Chunk) : chunkPay N c = c / 4096 % 2 ^ (N - 12) := by
  have h : ¬ N - 1 < 12 := by omega
  simp [chunkPay, slice, h, Nat.shiftRight_eq_div_pow, show N - 1 - 12 + 1 = N - 12 by omega]

theorem chunkPay_lt (N : Nat) (c : Chunk) : chunkPay N c < 2 ^ (N - 12) := by
  unfold chunkPay slice
  split
  · exact Nat.two_pow_pos _
  · next h =>
    rw [show N - 1 - 12 + 1 = N - 12 by omega]
    exact Nat.mod_lt _ (Nat.two_pow_pos _)

/-- A chunk made of a bunch-crossing id and a payload gives both back. -/
theorem chunkBc_mk {bc : Nat} (h : bc < 4096) (pay : Nat) : chunkBc (pay * 4096 + bc) = bc := by
  rw [chunkBc_eq]; omega

theorem chunkPay_mk {N bc pay : Nat} (hN : 13 ≤ N) (h : bc < 4096) (hp : pay < 2 ^ (N - 12)) :
    chunkPay N (pay * 4096 + bc) = pay := by
  rw [chunkPay_eq hN, show (pay * 4096 + bc) / 4096 = pay by omega, Nat.mod_eq_of_lt hp]

/-! ## The order of keys (R42) -/

/-- R42: the order by (orbit, bc) is the order of the linear timeline (R136). -/
theorem Key.lt_iff_time (a b : Key) : a.lt b = true ↔ a.time < b.time := by
  have ha := a.bc.isLt
  have hb := b.bc.isLt
  simp only [Key.lt, Key.time, Bool.or_eq_true, Bool.and_eq_true, beq_iff_eq, decide_eq_true_eq,
    BitVec.ult_eq_decide, Fin.lt_def, ← BitVec.toNat_inj]
  omega

theorem Key.time_inj {a b : Key} (h : a.time = b.time) : a = b := by
  have ha := a.bc.isLt
  have hb := b.bc.isLt
  simp only [Key.time] at h
  have h1 : a.orbit = b.orbit := by rw [← BitVec.toNat_inj]; omega
  have h2 : a.bc = b.bc := by apply Fin.ext; rw [h1] at h; omega
  cases a; cases b; simp_all

/-! ## The map -/

@[simp] theorem lookupKey_putKey_same (k : Key) (e : Entry) (m : List (Key × Entry)) :
    lookupKey k (putKey k e m) = some e := by
  induction m with
  | nil => simp [putKey, lookupKey]
  | cons p m ih =>
    obtain ⟨k', e'⟩ := p
    unfold putKey
    split
    · simp [lookupKey]
    · split
      · simp [lookupKey]
      · next h _ => simp [lookupKey, h, ih]

theorem lookupKey_putKey_other {k k' : Key} (h : k' ≠ k) (e : Entry) (m : List (Key × Entry)) :
    lookupKey k' (putKey k e m) = lookupKey k' m := by
  induction m with
  | nil => simp [putKey, lookupKey, h.symm]
  | cons p m ih =>
    obtain ⟨k'', e''⟩ := p
    unfold putKey
    split
    · next h' => subst h'; simp [lookupKey, h.symm]
    · split
      · simp [lookupKey, h.symm]
      · simp [lookupKey, ih]

theorem lookupKey_mem {k : Key} {e : Entry} {m : List (Key × Entry)} (h : lookupKey k m = some e) :
    (k, e) ∈ m := by
  induction m with
  | nil => simp [lookupKey] at h
  | cons p m ih =>
    obtain ⟨k', e'⟩ := p
    unfold lookupKey at h
    split at h
    · next h' => cases h; subst h'; simp
    · exact List.mem_cons_of_mem _ (ih h)

/-- Every entry after a write was there before or is the one written. -/
theorem mem_putKey {k : Key} {e : Entry} {m : List (Key × Entry)} {p : Key × Entry} (h : p ∈ putKey k e m) :
    p = (k, e) ∨ p ∈ m := by
  induction m with
  | nil => simpa [putKey] using h
  | cons q m ih =>
    obtain ⟨k', e'⟩ := q
    unfold putKey at h
    split at h
    · rcases List.mem_cons.mp h with h | h
      · exact .inl h
      · exact .inr (List.mem_cons_of_mem _ h)
    · split at h
      · rcases List.mem_cons.mp h with h | h
        · exact .inl h
        · exact .inr h
      · rcases List.mem_cons.mp h with h | h
        · exact .inr (h ▸ List.mem_cons_self)
        · rcases ih h with h | h
          · exact .inl h
          · exact .inr (List.mem_cons_of_mem _ h)

/-- Writing a key that is absent adds one entry. -/
theorem length_putKey_absent {k : Key} {m : List (Key × Entry)} (h : lookupKey k m = none) (e : Entry) :
    (putKey k e m).length = m.length + 1 := by
  induction m with
  | nil => simp [putKey]
  | cons p m ih =>
    obtain ⟨k', e'⟩ := p
    unfold lookupKey at h
    split at h
    · simp at h
    · next h' =>
      unfold putKey
      rw [if_neg h']
      split
      · simp
      · simp [ih h]

/-- In a sorted map, writing a key that is present keeps the number of entries. -/
theorem length_putKey_present {k : Key} {m : List (Key × Entry)} (hs : SortedMap m) {e' : Entry}
    (h : lookupKey k m = some e') (e : Entry) : (putKey k e m).length = m.length := by
  induction m with
  | nil => simp [lookupKey] at h
  | cons p m ih =>
    obtain ⟨k', e''⟩ := p
    unfold lookupKey at h
    unfold putKey
    split at h
    · next h' => rw [if_pos h']; simp
    · next h' =>
      rw [if_neg h']
      have hk : k'.lt k = true := (List.pairwise_cons.mp hs).1 _ (lookupKey_mem h)
      rw [Key.lt_iff_time] at hk
      have : ¬ k.lt k' = true := by rw [Key.lt_iff_time]; omega
      rw [if_neg this]
      simp [ih (List.pairwise_cons.mp hs).2 h]

/-- A write keeps the keys sorted. -/
theorem putKey_sorted {m : List (Key × Entry)} (hs : SortedMap m) (k : Key) (e : Entry) :
    SortedMap (putKey k e m) := by
  induction m with
  | nil => simp [putKey, SortedMap]
  | cons p m ih =>
    obtain ⟨k', e'⟩ := p
    obtain ⟨h1, h2⟩ := List.pairwise_cons.mp hs
    unfold putKey
    split
    · next h' => subst h'; exact List.pairwise_cons.mpr ⟨h1, h2⟩
    · next h' =>
      split
      · next hlt =>
        refine List.pairwise_cons.mpr ⟨fun q hq => ?_, hs⟩
        rcases List.mem_cons.mp hq with rfl | hq
        · exact hlt
        · have := h1 q hq
          simp only [Key.lt_iff_time] at *
          omega
      · next hlt =>
        refine List.pairwise_cons.mpr ⟨fun q hq => ?_, ih h2⟩
        rcases mem_putKey hq with rfl | hq
        · simp only [Key.lt_iff_time] at *
          have : k'.time ≠ k.time := fun h => h' (Key.time_inj h)
          omega
        · exact h1 q hq

/-! ## Sorted maps are determined by their lookups -/

theorem lookupKey_none_of_lt {m : List (Key × Entry)} {k : Key}
    (h : ∀ p ∈ m, k.lt p.1 = true) : lookupKey k m = none := by
  induction m with
  | nil => rfl
  | cons p m ih =>
    obtain ⟨k', e'⟩ := p
    unfold lookupKey
    have hk := h (k', e') List.mem_cons_self
    rw [if_neg]
    · exact ih fun q hq => h q (List.mem_cons_of_mem _ hq)
    · rintro rfl
      simp [Key.lt_iff_time] at hk

/-- In a sorted map an entry is the one its key looks up. -/
theorem lookupKey_of_mem {m : List (Key × Entry)} (hs : SortedMap m) {k : Key} {e : Entry}
    (h : (k, e) ∈ m) : lookupKey k m = some e := by
  induction m with
  | nil => simp at h
  | cons p m ih =>
    obtain ⟨k', e'⟩ := p
    obtain ⟨h1, h2⟩ := List.pairwise_cons.mp hs
    unfold lookupKey
    rcases List.mem_cons.mp h with h | h
    · cases h; simp
    · have hk := h1 _ h
      rw [if_neg]
      · exact ih h2 h
      · rintro rfl
        simp [Key.lt_iff_time] at hk

/-- Two sorted maps with the same lookups are equal: the list is a canonical form of the finite map (R42). -/
theorem map_ext {m m' : List (Key × Entry)} (hs : SortedMap m) (hs' : SortedMap m')
    (h : ∀ k, lookupKey k m = lookupKey k m') : m = m' := by
  have hmem : ∀ p, p ∈ m ↔ p ∈ m' := fun ⟨k, e⟩ =>
    ⟨fun hp => lookupKey_mem ((h k).symm.trans (lookupKey_of_mem hs hp)),
      fun hp => lookupKey_mem ((h k).trans (lookupKey_of_mem hs' hp))⟩
  have hnd : ∀ {l : List (Key × Entry)}, SortedMap l → l.Nodup := fun hl =>
    hl.imp fun {a b} hab hEq => by subst hEq; simp [Key.lt_iff_time] at hab
  refine List.Perm.eq_of_pairwise (le := fun a b => a.1.lt b.1 = true) ?_ hs hs'
    ((List.perm_ext_iff_of_nodup (hnd hs) (hnd hs')).mpr hmem)
  intro a b _ _ hab hba
  simp only [Key.lt_iff_time] at hab hba
  omega

/-! ## Entries -/

@[simp] theorem Entry.fill_isSet (e : Entry) (ch : Channel) (p : Nat) : (e.fill ch p).isSet ch = true := by
  cases ch <;> rfl

@[simp] theorem Entry.fill_mask (e : Entry) (ch : Channel) (p : Nat) :
    (e.fill ch p).mask ch = BitVec.ofNat 96 p := by cases ch <;> rfl

theorem Entry.fill_isSet_other {ch ch' : Channel} (h : ch' ≠ ch) (e : Entry) (p : Nat) :
    (e.fill ch p).isSet ch' = e.isSet ch' := by
  cases ch <;> cases ch' <;> first | rfl | exact absurd rfl h

theorem Entry.fill_mask_other {ch ch' : Channel} (h : ch' ≠ ch) (e : Entry) (p : Nat) :
    (e.fill ch p).mask ch' = e.mask ch' := by
  cases ch <;> cases ch' <;> first | rfl | exact absurd rfl h

/-! ## MERGE and BUILD -/

/-- R139: everything MERGE can do. -/
theorem merge_cases (prm : Params) (ch : Channel) (key : Key) (pay : Nat) (ses : Session) :
    (∃ e, lookupKey key ses.map = some e ∧ e.isSet ch = true ∧
      merge prm ch key pay ses = (ses.incDup ch).flag .dup) ∨
    (∃ e, lookupKey key ses.map = some e ∧ e.isSet ch = false ∧
      merge prm ch key pay ses = { ses with map := putKey key (e.fill ch pay) ses.map }) ∨
    (lookupKey key ses.map = none ∧ ses.map.length = prm.mapCap.toNat ∧
      merge prm ch key pay ses = ses.flag .mapfull) ∨
    (lookupKey key ses.map = none ∧ ses.map.length ≠ prm.mapCap.toNat ∧
      merge prm ch key pay ses = { ses with map := putKey key (Entry.empty.fill ch pay) ses.map }) := by
  unfold merge
  cases h : lookupKey key ses.map with
  | some e => cases h' : e.isSet ch <;> simp [h']
  | none =>
    by_cases h' : ses.map.length = prm.mapCap.toNat <;> simp [h']

/-- R137: the two rejection conditions of a contribution. -/
abbrev rejectA (cfg : CfgRegs) (ch : Channel) (bc : Nat) (orbit : Word) (ses : Session) : Prop :=
  orbit.toNat ≤ ses.intervalOrbit.toNat ∧ (bc : Int) < cfg.offset ch

abbrev rejectB (cfg : CfgRegs) (ch : Channel) (bc : Nat) (orbit : Word) (ses : Session) : Prop :=
  (orbit.toNat * 3564 + bc : Int) - cfg.offset ch < (ses.intervalOrbit.toNat : Int) * 3564

/-- R131: everything BUILD can do, each outcome with the checks before it passed (R212). -/
theorem build_cases (cfg : CfgRegs) (prm : Params) (ch : Channel) (c : Chunk) (orbit : Word) (ses : Session) :
    (chunkPay (cfg.width ch) c = 0 ∧ build cfg prm ch c orbit ses = ses) ∨
    (chunkPay (cfg.width ch) c ≠ 0 ∧ 3564 ≤ chunkBc c ∧ build cfg prm ch c orbit ses = ses.flag .bcrange) ∨
    (chunkPay (cfg.width ch) c ≠ 0 ∧ chunkBc c < 3564 ∧ rejectA cfg ch (chunkBc c) orbit ses ∧
      build cfg prm ch c orbit ses = ses.incRej ch) ∨
    (chunkPay (cfg.width ch) c ≠ 0 ∧ chunkBc c < 3564 ∧ ¬ rejectA cfg ch (chunkBc c) orbit ses ∧
      rejectB cfg ch (chunkBc c) orbit ses ∧ build cfg prm ch c orbit ses = (ses.incRej ch).flag .clarify) ∨
    (chunkPay (cfg.width ch) c ≠ 0 ∧ chunkBc c < 3564 ∧ ¬ rejectA cfg ch (chunkBc c) orbit ses ∧
      ¬ rejectB cfg ch (chunkBc c) orbit ses ∧
      (2 ^ 32 * 3564 : Int) ≤ (orbit.toNat * 3564 + chunkBc c : Int) - cfg.offset ch ∧
      build cfg prm ch c orbit ses = ses.flag .timerange) ∨
    (chunkPay (cfg.width ch) c ≠ 0 ∧ chunkBc c < 3564 ∧ ¬ rejectA cfg ch (chunkBc c) orbit ses ∧
      ¬ rejectB cfg ch (chunkBc c) orbit ses ∧
      ∃ key : Key, (key.time : Int) = (orbit.toNat * 3564 + chunkBc c : Int) - cfg.offset ch ∧
        build cfg prm ch c orbit ses = merge prm ch key (chunkPay (cfg.width ch) c) ses) := by
  by_cases hp : chunkPay (cfg.width ch) c = 0
  · exact .inl ⟨hp, by simp [build, hp]⟩
  by_cases hb : 3564 ≤ chunkBc c
  · exact .inr (.inl ⟨hp, hb, by simp [build, hp, hb]⟩)
  by_cases hA : rejectA cfg ch (chunkBc c) orbit ses
  · refine .inr (.inr (.inl ⟨hp, by omega, hA, ?_⟩))
    simp [build, hp, hb, hA.1, hA.2]
  have hA' : (decide (orbit.toNat ≤ ses.intervalOrbit.toNat) && decide ((chunkBc c : Int) < cfg.offset ch)) =
      false := by
    rw [← Bool.not_eq_true, Bool.and_eq_true, decide_eq_true_eq, decide_eq_true_eq]; exact hA
  by_cases hB : rejectB cfg ch (chunkBc c) orbit ses
  · refine .inr (.inr (.inr (.inl ⟨hp, by omega, hA, hB, ?_⟩)))
    simp only [build, hp, hb, if_false, hA', decide_eq_true (p := _ < _) hB, Bool.or_true, if_true,
      Bool.false_eq_true, ge_iff_le]
  have hB' := decide_eq_false (p := _ < _) hB
  have hge : (ses.intervalOrbit.toNat : Int) * 3564 ≤ (orbit.toNat * 3564 + chunkBc c : Int) - cfg.offset ch := by
    unfold rejectB at hB; omega
  by_cases hT : (2 ^ 32 * 3564 : Int) ≤ (orbit.toNat * 3564 + chunkBc c : Int) - cfg.offset ch
  · refine .inr (.inr (.inr (.inr (.inl ⟨hp, by omega, hA, hB, hT, ?_⟩))))
    have : ((orbit.toNat * 3564 + chunkBc c : Int) - cfg.offset ch) / 3564 ≥ 2 ^ 32 := by omega
    simp only [build, hp, hb, if_false, hA', hB', Bool.or_false, Bool.false_eq_true, ge_iff_le, ge_iff_le.mp this,
      if_true]
  · refine .inr (.inr (.inr (.inr (.inr ⟨hp, by omega, hA, hB,
      ⟨BitVec.ofNat 32 (((orbit.toNat * 3564 + chunkBc c : Int) - cfg.offset ch) / 3564).toNat,
        Fin.ofNat 3564 (((orbit.toNat * 3564 + chunkBc c : Int) - cfg.offset ch) % 3564).toNat⟩, ?_, ?_⟩))))
    · simp only [Key.time, BitVec.toNat_ofNat, Fin.ofNat]
      have h0 : 0 ≤ (ses.intervalOrbit.toNat : Int) := Int.natCast_nonneg _
      generalize (orbit.toNat * 3564 + chunkBc c : Int) - cfg.offset ch = x at *
      omega
    · have : ¬ ((orbit.toNat * 3564 + chunkBc c : Int) - cfg.offset ch) / 3564 ≥ 2 ^ 32 := by omega
      simp only [build, hp, hb, if_false, hA', hB', Bool.or_false, Bool.false_eq_true, this]

end Sys2Proof.Machine
end

