-- ==== Sys2Proof/Laws/Decode.lean ====
section
/-! SUPPORT. The header fields, the word splitting and the flag bits that decoding and encoding share (R81 to R92). -/

namespace Sys2Proof

@[simp] theorem hdrOpc_header (opc a : BitVec 8) (b : BitVec 16) : hdrOpc (header opc a b) = opc := by
  apply BitVec.eq_of_toNat_eq
  simp only [hdrOpc, header, BitVec.extractLsb'_toNat, BitVec.toNat_append, Nat.shiftLeft_eq]
  have h1 := opc.isLt; have h2 := a.isLt; have h3 := b.isLt
  rw [← Nat.shiftLeft_eq, ← Nat.shiftLeft_add_eq_or_of_lt h3, ← Nat.shiftLeft_eq, ← Nat.shiftLeft_add_eq_or_of_lt h2]
  simp only [Nat.shiftLeft_eq, Nat.shiftRight_eq_div_pow]
  omega

@[simp] theorem hdrA_header (opc a : BitVec 8) (b : BitVec 16) : hdrA (header opc a b) = a := by
  apply BitVec.eq_of_toNat_eq
  simp only [hdrA, header, BitVec.extractLsb'_toNat, BitVec.toNat_append, Nat.shiftLeft_eq]
  have h1 := opc.isLt; have h2 := a.isLt; have h3 := b.isLt
  rw [← Nat.shiftLeft_eq, ← Nat.shiftLeft_add_eq_or_of_lt h3, ← Nat.shiftLeft_eq, ← Nat.shiftLeft_add_eq_or_of_lt h2]
  simp only [Nat.shiftLeft_eq, Nat.shiftRight_eq_div_pow]
  omega

@[simp] theorem hdrB_header (opc a : BitVec 8) (b : BitVec 16) : hdrB (header opc a b) = b := by
  apply BitVec.eq_of_toNat_eq
  simp only [hdrB, header, BitVec.extractLsb'_toNat, BitVec.toNat_append, Nat.shiftLeft_eq]
  have h1 := opc.isLt; have h2 := a.isLt; have h3 := b.isLt
  rw [← Nat.shiftLeft_eq, ← Nat.shiftLeft_add_eq_or_of_lt h3, ← Nat.shiftLeft_eq, ← Nat.shiftLeft_add_eq_or_of_lt h2]
  simp only [Nat.shiftLeft_eq, Nat.shiftRight_eq_div_pow]
  omega

/-- A header word is its three fields (R81). -/
theorem header_fields (h : Word) : header (hdrOpc h) (hdrA h) (hdrB h) = h := by
  apply BitVec.eq_of_toNat_eq
  have hlt := h.isLt
  have h2 := (hdrA h).isLt; have h3 := (hdrB h).isLt
  simp only [header, BitVec.toNat_append, Nat.shiftLeft_eq]
  rw [← Nat.shiftLeft_eq, ← Nat.shiftLeft_add_eq_or_of_lt h3, ← Nat.shiftLeft_eq, ← Nat.shiftLeft_add_eq_or_of_lt h2]
  simp only [hdrOpc, hdrA, hdrB, BitVec.extractLsb'_toNat, Nat.shiftLeft_eq, Nat.shiftRight_eq_div_pow]
  omega

/-- R85: the packet flags in A. -/
theorem flags_cases (pad herr : Bool) :
    let a : BitVec 8 := 0#6 ++ BitVec.ofBool herr ++ BitVec.ofBool pad
    a.extractLsb' 2 6 = 0#6 ∧ a.getLsbD 0 = pad ∧ a.getLsbD 1 = herr := by
  cases pad <;> cases herr <;> decide

/-- R85: an operand A whose reserved bits are 0 is made of its two flags. -/
theorem flags_fields (a : BitVec 8) (h : a.extractLsb' 2 6 = 0#6) :
    (0#6 ++ BitVec.ofBool (a.getLsbD 1) ++ BitVec.ofBool (a.getLsbD 0) : BitVec 8) = a := by
  revert a; decide

/-- R85: H0 holds SEQ above LINK_ID. -/
theorem h0_fields (seq linkId : BitVec 16) :
    (seq ++ linkId : Word).extractLsb' 0 16 = linkId ∧ (seq ++ linkId : Word).extractLsb' 16 16 = seq := by
  have h1 := seq.isLt; have h2 := linkId.isLt
  constructor <;> apply BitVec.eq_of_toNat_eq <;>
    simp only [BitVec.extractLsb'_toNat, BitVec.toNat_append] <;>
    rw [← Nat.shiftLeft_add_eq_or_of_lt h2] <;>
    simp only [Nat.shiftLeft_eq, Nat.shiftRight_eq_div_pow] <;> omega

/-- R85: H0 is made of its two fields. -/
theorem h0_of_fields (h0 : Word) : (h0.extractLsb' 16 16 ++ h0.extractLsb' 0 16 : Word) = h0 := by
  apply BitVec.eq_of_toNat_eq
  have h := h0.isLt; have h2 := (h0.extractLsb' 0 16).isLt
  simp only [BitVec.toNat_append]
  rw [← Nat.shiftLeft_add_eq_or_of_lt h2]
  simp only [BitVec.extractLsb'_toNat, Nat.shiftLeft_eq, Nat.shiftRight_eq_div_pow]
  omega

theorem takeWords_append (data rest : List Word) : takeWords data.length (data ++ rest) = some (data, rest) := by
  simp [takeWords]

/-- What taking words gives is what was there, in order. -/
theorem takeWords_eq_some {n : Nat} {ws data rest : List Word} (h : takeWords n ws = some (data, rest)) :
    ws = data ++ rest ∧ data.length = n := by
  unfold takeWords at h
  split at h
  · next hn =>
    simp only [Option.some.injEq, Prod.mk.injEq] at h
    obtain ⟨rfl, rfl⟩ := h
    exact ⟨(List.take_append_drop n ws).symm, by simp [hn]⟩
  · simp at h

theorem takeWords_eq_none {n : Nat} {ws : List Word} (h : takeWords n ws = none) : ws.length < n := by
  unfold takeWords at h
  split at h
  · simp at h
  · omega

/-! ## What each format's decoder accepts -/

theorem decodeZ_eq_ok {h : Word} {i j : Instr} {rest r : List Word} (hd : decodeZ h i rest = .ok (j, r)) :
    hdrA h = 0#8 ∧ hdrB h = 0#16 ∧ j = i ∧ r = rest := by
  unfold decodeZ at hd
  split at hd
  · next hc => simp at hd; exact ⟨hc.1, hc.2, hd.1.symm, hd.2.symm⟩
  · simp at hd

theorem decodeI_eq_ok {h : Word} {mk : Word → Instr} {j : Instr} {rest r : List Word}
    (hd : decodeI h mk rest = .ok (j, r)) : hdrA h = 0#8 ∧ hdrB h = 0#16 ∧ ∃ x, rest = x :: r ∧ j = mk x := by
  unfold decodeI at hd
  split at hd
  · next hc =>
    cases rest with
    | nil => simp at hd
    | cons x r' => simp at hd; exact ⟨hc.1, hc.2, x, by rw [hd.2], hd.1.symm⟩
  · simp at hd

theorem decodeC2_eq_ok {h : Word} {j : Instr} {rest r : List Word} (hd : decodeC2 h rest = .ok (j, r)) :
    hdrB h = 0#16 ∧ ∃ x, rest = x :: r ∧ j = .csrw (hdrA h) x := by
  unfold decodeC2 at hd
  split at hd
  · next hc =>
    cases rest with
    | nil => simp at hd
    | cons x r' => simp at hd; exact ⟨hc, x, by rw [hd.2], hd.1.symm⟩
  · simp at hd

theorem decodeC1_eq_ok {h : Word} {j : Instr} {rest r : List Word} (hd : decodeC1 h rest = .ok (j, r)) :
    hdrB h = 0#16 ∧ r = rest ∧ j = .csrr (hdrA h) := by
  unfold decodeC1 at hd
  split at hd
  · next hc => simp at hd; exact ⟨hc, hd.2.symm, hd.1.symm⟩
  · simp at hd

theorem decodeP_eq_ok {h : Word} {j : Instr} {rest r : List Word} (hd : decodeP h rest = .ok (j, r)) :
    (hdrA h).extractLsb' 2 6 = 0#6 ∧
    ∃ h0 h1 h2 data, rest = h0 :: h1 :: h2 :: (data ++ r) ∧ data.length = dataWords (hdrB h) ∧
      j = .pkt ((hdrA h).getLsbD 0) ((hdrA h).getLsbD 1) (hdrB h) (h0.extractLsb' 0 16) (h0.extractLsb' 16 16)
        h1 h2 data := by
  unfold decodeP at hd
  split at hd
  · next hc =>
    split at hd
    · next h0 h1 h2 rest' =>
      split at hd
      · next data rest'' ht =>
        obtain ⟨rfl, hl⟩ := takeWords_eq_some ht
        simp only [Except.ok.injEq, Prod.mk.injEq] at hd
        obtain ⟨rfl, rfl⟩ := hd
        exact ⟨hc, h0, h1, h2, data, rfl, hl, rfl⟩
      · simp at hd
    · simp at hd
  · simp at hd

/-- R88: the decoder's case on the opcode. -/
theorem decode_cons (h : Word) (rest : List Word) :
    decode (h :: rest) =
      match (hdrOpc h).toNat with
      | 0x00 => decodeZ h .nop rest
      | 0x01 => decodeZ h .beginInterval rest
      | 0x02 => decodeZ h .endInterval rest
      | 0x03 => decodeC2 h rest
      | 0x04 => decodeC1 h rest
      | 0x05 => decodeP h rest
      | 0x06 => decodeI h .rddig rest
      | 0x07 => decodeI h .rdlumi rest
      | 0x0F => decodeZ h .srst rest
      | _ => .error .unassignedOpcode := rfl

/-! ## The header fields by arithmetic -/

theorem hdrOpc_toNat (h : Word) : (hdrOpc h).toNat = h.toNat / 2 ^ 24 := by
  have := h.isLt
  simp only [hdrOpc, BitVec.extractLsb'_toNat, Nat.shiftRight_eq_div_pow]
  omega

theorem hdrA_toNat (h : Word) : (hdrA h).toNat = h.toNat / 2 ^ 16 % 2 ^ 8 := by
  simp only [hdrA, BitVec.extractLsb'_toNat, Nat.shiftRight_eq_div_pow]

theorem hdrB_toNat (h : Word) : (hdrB h).toNat = h.toNat % 2 ^ 16 := by
  simp [hdrB, BitVec.extractLsb'_toNat]

/-- A[7:2] is 0 exactly where A is below 4 (R85). -/
theorem flags_reserved_iff (a : BitVec 8) : a.extractLsb' 2 6 = 0#6 ↔ a.toNat < 4 := by revert a; decide

end Sys2Proof
end

