-- ==== Sys2Proof/Laws/Encoder.lean ====
section
/-! SUPPORT. The assembler's packing and PKTC (R64, R94, R95): what each step of the encoder means to the engine. -/

namespace Sys2Proof.Machine

/-- R95 step 3: the ten bytes of a word are the group that assembles to it. -/
theorem groupWord_wordBytes80 (w : Word80) : groupWord (wordBytes80 w) = w := by
  apply BitVec.eq_of_getLsbD_eq
  intro i hi
  have h1 := groupWord_byte (wordBytes80 w) (k := i / 8) (by omega)
  have h2 : (wordBytes80 w).getD (i / 8) 0#8 = w.extractLsb' (8 * (i / 8)) 8 := by
    simp [wordBytes80, List.getD_eq_getElem?_getD, List.getElem?_range (show i / 8 < 10 by omega)]
  rw [h2] at h1
  have := congrArg (·.getLsbD (i % 8)) h1
  simp only [BitVec.getLsbD_extractLsb'] at this
  have h8 : i % 8 < 8 := by omega
  simpa [h8, Nat.div_add_mod] using this

/-- R95 step 3: the groups of a list of words, in either padding format, assemble to those words. -/
theorem assemble_dataGroups (pad : Bool) (ws : List Word80) : assemble (if pad then 16 else 10) (ws.flatMap fun w => wordBytes80 w ++ (if pad then List.replicate 6 0#8 else [])) = (ws, false) := by
  induction ws with
  | nil => rfl
  | cons w ws ih =>
    have hl : (wordBytes80 w).length = 10 := by simp [wordBytes80]
    rw [List.flatMap_cons]
    rw [assemble_group (by cases pad <;> simp) (by simp [hl])]
    have hd : List.drop (if pad then 16 else 10) ((wordBytes80 w ++ (if pad then List.replicate 6 0#8 else [])) ++ List.flatMap (fun w => wordBytes80 w ++ (if pad then List.replicate 6 0#8 else [])) ws) = List.flatMap (fun w => wordBytes80 w ++ (if pad then List.replicate 6 0#8 else [])) ws := by
      rw [List.drop_append_of_le_length (by cases pad <;> simp [hl]), List.drop_eq_nil_of_le (by cases pad <;> simp [hl]), List.nil_append]
    have ht : List.take 10 ((wordBytes80 w ++ (if pad then List.replicate 6 0#8 else [])) ++ List.flatMap (fun w => wordBytes80 w ++ (if pad then List.replicate 6 0#8 else [])) ws) = wordBytes80 w := by
      rw [List.append_assoc, List.take_append_of_le_length (by simp [hl]), List.take_of_length_le (by simp [hl])]
    rw [hd, ht, ih, groupWord_wordBytes80]

/-- R95 step 2: the words of a stream spell its low bits. -/
theorem wordStream_streamWords (k S : Nat) : wordStream (streamWords k S) = S % 2 ^ (80 * k) := by
  induction k generalizing S with
  | zero => simp [streamWords, wordStream, Nat.mod_one]
  | succ k ih =>
    rw [streamWords, wordStream, ih, BitVec.toNat_ofNat, Nat.mul_succ, Nat.add_comm (80 * k), Nat.pow_add, Nat.mod_mul]

theorem streamWords_length (k S : Nat) : (streamWords k S).length = k := by
  induction k generalizing S with
  | zero => rfl
  | succ k ih => simp [streamWords, ih]

/-- R95 step 1: the stream of chunks of width `N` has no bit above them. -/
theorem chunkStream_lt {N} : ∀ (cs : List Chunk), (∀ c ∈ cs, c < 2 ^ N) → chunkStream N cs < 2 ^ (cs.length * N)
  | [], _ => by simp [chunkStream]
  | c :: cs, h => by
    have h1 : @LT.lt Nat _ c (2 ^ N) := h c List.mem_cons_self
    have h2 := chunkStream_lt cs (fun x hx => h x (List.mem_cons_of_mem _ hx))
    rw [chunkStream, List.length_cons, Nat.add_mul, Nat.one_mul, Nat.add_comm (cs.length * N), Nat.pow_add]
    have : 2 ^ N * (chunkStream N cs + 1) ≤ 2 ^ N * 2 ^ (cs.length * N) := Nat.mul_le_mul_left _ h2
    rw [Nat.mul_add] at this
    omega

/-- R95 step 1: chunk `j` is field `j` of the stream. -/
theorem chunkStream_field {N} : ∀ (cs : List Chunk) (j : Nat), (∀ c ∈ cs, c < 2 ^ N) → chunkStream N cs / 2 ^ (j * N) % 2 ^ N = cs.getD j 0
  | [], j, _ => by simp [chunkStream]
  | c :: cs, 0, h => by
    have h1 := h c List.mem_cons_self
    simp [chunkStream, Nat.mod_eq_of_lt h1]
  | c :: cs, j + 1, h => by
    have h1 := h c List.mem_cons_self
    have h2 := chunkStream_field cs j (fun x hx => h x (List.mem_cons_of_mem _ hx))
    rw [chunkStream, Nat.add_mul, Nat.one_mul, Nat.add_comm (j * N), Nat.pow_add, ← Nat.div_div_eq_div_mul, Nat.add_mul_div_left _ _ (Nat.two_pow_pos N), Nat.div_eq_of_lt h1, Nat.zero_add, h2]
    simp

/-- R64: the bytes of a word made of four bytes. -/
theorem wordBytes_append (a b c d : Byte) : wordBytes (d ++ c ++ b ++ a : BitVec 32) = [a, b, c, d] := by
  simp only [wordBytes, List.cons.injEq, and_true]
  refine ⟨?_, ?_, ?_, ?_⟩ <;> apply BitVec.eq_of_getLsbD_eq <;> intro i hi <;> rw [BitVec.getLsbD_extractLsb', BitVec.getLsbD_append, BitVec.getLsbD_append, BitVec.getLsbD_append] <;> interval_cases i <;> simp

/-- R64, R94: packed bytes come back. -/
theorem packBytes_wordBytes : ∀ (bytes : List Byte), ((packBytes bytes).flatMap wordBytes).take bytes.length = bytes
  | [] => rfl
  | [a] => by rw [packBytes]; simp only [List.flatMap_cons, wordBytes_append]; rfl
  | [a, b] => by rw [packBytes]; simp only [List.flatMap_cons, wordBytes_append]; rfl
  | [a, b, c] => by rw [packBytes]; simp only [List.flatMap_cons, wordBytes_append]; rfl
  | a :: b :: c :: d :: bs => by
    have := packBytes_wordBytes bs
    simp [packBytes, wordBytes_append, this]

end Sys2Proof.Machine
end

