-- ==== Sys2Proof/Laws/Unpacker.lean ====
section
/-! SUPPORT. What UNPACK does, said once (R121, R123, R124). -/

namespace Sys2Proof.Machine

/-- The whole result of the cutting loop: the chunks are the consecutive `N`-bit fields of `s`, and what is left is
what lies above them. -/
theorem cutLoop_eq {N : Nat} (hN : 1 ≤ N) : ∀ (turns s n : Nat), n / N ≤ turns →
    cutLoop N turns s n =
      ((List.range (n / N)).map (fun j => (s >>> (j * N)) % 2 ^ N), s >>> (n / N * N), n % N)
  | 0, s, n, h => by
    have h0 : n / N = 0 := Nat.le_zero.mp h
    have : n < N := by
      rcases Nat.div_eq_zero_iff.mp h0 with h | h <;> omega
    simp [cutLoop, h0, Nat.mod_eq_of_lt this]
  | turns + 1, s, n, h => by
    unfold cutLoop
    split
    · next hn =>
      have hd : n / N = (n - N) / N + 1 := by
        rw [Nat.div_eq_sub_div (by omega) hn]
      rw [cutLoop_eq hN turns _ _ (by omega), hd, List.range_succ_eq_map]
      simp only [List.map_cons, List.map_map, Nat.zero_mul, Nat.shiftRight_zero, Prod.mk.injEq, List.cons.injEq,
        true_and]
      refine ⟨?_, ?_, (Nat.mod_eq_sub_mod hn).symm⟩
      · apply List.map_congr_left
        intro j _
        simp only [Function.comp, Nat.succ_eq_add_one, ← Nat.shiftRight_add, Nat.add_mul, Nat.one_mul,
          Nat.add_comm N]
      · rw [← Nat.shiftRight_add, Nat.add_mul, Nat.one_mul, Nat.add_comm N]
    · next hn =>
      have h0 : n / N = 0 := Nat.div_eq_of_lt (by omega)
      simp [h0, Nat.mod_eq_of_lt (by omega : n < N)]

/-- R121, R124: the whole result of UNPACK. -/
theorem unpack_eq {N : Nat} (hN : 1 ≤ N) (val cnt : Nat) (w : Word80) :
    unpack N val cnt w =
      ((List.range ((cnt + 80) / N)).map (fun j => ((val + w.toNat * 2 ^ cnt) >>> (j * N)) % 2 ^ N),
        (val + w.toNat * 2 ^ cnt) >>> ((cnt + 80) / N * N), (cnt + 80) % N) :=
  cutLoop_eq hN _ _ _ (Nat.div_le_self _ _)

/-- R124: how many chunks UNPACK returns. -/
theorem unpack_length {N : Nat} (hN : 1 ≤ N) (val cnt : Nat) (w : Word80) :
    (unpack N val cnt w).1.length = (cnt + 80) / N := by
  simp [unpack_eq hN]

/-- R124: the remnant count UNPACK leaves. -/
theorem unpack_cnt {N : Nat} (hN : 1 ≤ N) (val cnt : Nat) (w : Word80) :
    (unpack N val cnt w).2.2 = (cnt + 80) % N := by
  simp [unpack_eq hN]

/-- R121: every chunk is an `N`-bit value. -/
theorem unpack_chunk_lt {N : Nat} (hN : 1 ≤ N) {val cnt : Nat} {w : Word80} {c : Chunk}
    (h : c ∈ (unpack N val cnt w).1) : c < 2 ^ N := by
  rw [unpack_eq hN] at h
  obtain ⟨j, -, rfl⟩ := List.mem_map.mp h
  exact Nat.mod_lt _ (Nat.two_pow_pos N)

/-- R121: the remnant plus word is an `(cnt + 80)`-bit value. -/
theorem remnant_word_lt {val cnt : Nat} (hv : val < 2 ^ cnt) (w : Word80) :
    val + w.toNat * 2 ^ cnt < 2 ^ (cnt + 80) := by
  have hw := w.isLt
  have : (w.toNat + 1) * 2 ^ cnt ≤ 2 ^ 80 * 2 ^ cnt := Nat.mul_le_mul_right _ hw
  rw [Nat.pow_add, Nat.mul_comm (2 ^ cnt)]
  rw [Nat.add_mul] at this
  omega

/-- R123: UNPACK leaves fewer bits than a chunk, and no bit above them. -/
theorem unpack_remnant_lt {N : Nat} (hN : 1 ≤ N) {val cnt : Nat} (hv : val < 2 ^ cnt) (w : Word80) :
    (unpack N val cnt w).2.2 < N ∧ (unpack N val cnt w).2.1 < 2 ^ (unpack N val cnt w).2.2 := by
  rw [unpack_eq hN]
  refine ⟨Nat.mod_lt _ hN, ?_⟩
  show _ >>> _ < 2 ^ ((cnt + 80) % N)
  rw [Nat.shiftRight_eq_div_pow, Nat.div_lt_iff_lt_mul (Nat.two_pow_pos _), ← Nat.pow_add]
  have h := Nat.mod_add_div (cnt + 80) N
  rw [Nat.mul_comm N] at h
  rw [h]
  exact remnant_word_lt hv w

end Sys2Proof.Machine
end

