-- ==== Sys2Proof/Laws/Frame.lean ====
section
/-! SUPPORT. What the datapath of PKT and END leaves alone, and the one induction over it: a property that each
elementary write keeps is kept by the whole of it (R162 to R173). -/

namespace Sys2Proof.Machine

/-- A view that every turn of a fold keeps, the fold keeps. -/
theorem foldl_keeps {σ α β : Type} (f : σ → α → σ) (g : σ → β) (h : ∀ s a, g (f s a) = g s) (l : List α) (s : σ) :
    g (l.foldl f s) = g s := by
  induction l generalizing s with
  | nil => rfl
  | cons a l ih => exact (ih (f s a)).trans (h s a)

/-- A property that every turn of a fold keeps, the fold keeps. -/
theorem foldl_closed {σ α : Type} {P : σ → Prop} {f : σ → α → σ} {l : List α} (h : ∀ s, ∀ a ∈ l, P s → P (f s a))
    {s : σ} (hs : P s) : P (l.foldl f s) := by
  induction l generalizing s with
  | nil => exact hs
  | cons a l ih =>
    exact ih (fun s b hb => h s b (List.mem_cons_of_mem _ hb)) (h s a List.mem_cons_self hs)

/-! ## The one induction -/

/-- R208: the bits that BUILD and MERGE set themselves. -/
def buildFlags : List IErrBit := [.dup, .bcrange, .timerange, .clarify, .mapfull]

/-- R208: the bits that the first steps of a packet, and ASSEMBLE, set. -/
def packetFlags : List IErrBit := [.noframe, .padmix, .partialWord, .unkch]

/-- What a property of the session must withstand to be kept by the chunks of channel `ch`: every elementary write
of LUMI_COUNT and BUILD, under the conditions it happens in. -/
structure ChunkClosed (cfg : CfgRegs) (prm : Params) (ch : Channel) (P : Session → Prop) : Prop where
  flag : cfg.digitsEn = true → ∀ b ∈ buildFlags, ∀ ses, P ses → P (ses.flag b)
  lcntA : ch = .ir → cfg.lumiEn = true → ∀ ses, P ses → P ses.incLcntA
  lcntB : ch = .ir → cfg.lumiEn = true → ∀ ses, P ses → P ses.incLcntB
  rej : cfg.digitsEn = true → ∀ ses, P ses → P (ses.incRej ch)
  dup : cfg.digitsEn = true → ∀ ses, P ses → P (ses.incDup ch)
  fillHalf : cfg.digitsEn = true → ∀ ses key e pay, P ses → pay < 2 ^ (cfg.width ch - 12) →
    lookupKey key ses.map = some e → e.isSet ch = false → P { ses with map := putKey key (e.fill ch pay) ses.map }
  newKey : cfg.digitsEn = true → ∀ ses key pay, P ses → pay < 2 ^ (cfg.width ch - 12) →
    lookupKey key ses.map = none → ses.map.length ≠ prm.mapCap.toNat →
    ses.intervalOrbit.toNat ≤ key.orbit.toNat → P { ses with map := putKey key (Entry.empty.fill ch pay) ses.map }

variable {cfg : CfgRegs} {prm : Params} {ch : Channel} {P : Session → Prop}

theorem ChunkClosed.merge (hP : ChunkClosed cfg prm ch P) (hd : cfg.digitsEn = true) {key : Key} {pay : Nat}
    (hpay : pay < 2 ^ (cfg.width ch - 12)) {ses : Session}
    (hkey : ses.intervalOrbit.toNat ≤ key.orbit.toNat) (hs : P ses) : P (merge prm ch key pay ses) := by
  rcases merge_cases prm ch key pay ses with ⟨e, h1, h2, h⟩ | ⟨e, h1, h2, h⟩ | ⟨h1, h2, h⟩ | ⟨h1, h2, h⟩ <;> rw [h]
  · exact hP.flag hd _ (by decide) _ (hP.dup hd _ hs)
  · exact hP.fillHalf hd _ _ _ _ hs hpay h1 h2
  · exact hP.flag hd _ (by decide) _ hs
  · exact hP.newKey hd _ _ _ hs hpay h1 h2 hkey

theorem ChunkClosed.build (hP : ChunkClosed cfg prm ch P) (hd : cfg.digitsEn = true) (c : Chunk) (orbit : Word)
    {ses : Session} (hs : P ses) : P (build cfg prm ch c orbit ses) := by
  rcases build_cases cfg prm ch c orbit ses with
    ⟨-, h⟩ | ⟨-, -, h⟩ | ⟨-, -, -, h⟩ | ⟨-, -, -, -, h⟩ | ⟨-, -, -, -, -, h⟩ | ⟨-, -, -, hB, key, hk, h⟩ <;> rw [h]
  · exact hs
  · exact hP.flag hd _ (by decide) _ hs
  · exact hP.rej hd _ hs
  · exact hP.flag hd _ (by decide) _ (hP.rej hd _ hs)
  · exact hP.flag hd _ (by decide) _ hs
  · refine hP.merge hd (chunkPay_lt _ _) ?_ hs
    have := key.bc.isLt
    simp only [rejectB, Key.time] at hB hk
    omega

theorem ChunkClosed.lumiCount (hP : ChunkClosed cfg prm .ir P) (hl : cfg.lumiEn = true) (c : Chunk) {ses : Session}
    (hs : P ses) : P (lumiCount cfg c ses) := by
  unfold Machine.lumiCount
  have h1 : P (if patternMatches cfg.lmaskA (cfg.width .ir - 12) (chunkPay (cfg.width .ir) c) then ses.incLcntA
      else ses) := by
    split
    · exact hP.lcntA rfl hl _ hs
    · exact hs
  dsimp only
  split
  · exact hP.lcntB rfl hl _ h1
  · exact h1

theorem ChunkClosed.dispatchChunk (hP : ChunkClosed cfg prm ch P) (orbit : Word) (c : Chunk) {ses : Session}
    (hs : P ses) : P (dispatchChunk cfg prm ch orbit ses c) := by
  unfold Machine.dispatchChunk
  have h1 : P (if ch = .ir ∧ cfg.lumiEn then Machine.lumiCount cfg c ses else ses) := by
    split
    · next h => obtain ⟨rfl, hl⟩ := h; exact hP.lumiCount hl c hs
    · exact hs
  dsimp only
  split
  · next hd => exact hP.build hd c orbit h1
  · exact h1

/-- What a property of the session must withstand to be kept by the payload of a processed packet. -/
structure BodyClosed (cfg : CfgRegs) (prm : Params) (ch : Channel) (P : Session → Prop) : Prop
    extends ChunkClosed cfg prm ch P where
  partialWord : ∀ ses, P ses → P (ses.flag .partialWord)
  unpacked : ∀ ses w, P ses → P (ses.setRemnant ch
    (unpack (cfg.width ch) (ses.chan ch).remVal.toNat (ses.chan ch).remCnt.toNat w).2.1
    (unpack (cfg.width ch) (ses.chan ch).remVal.toNat (ses.chan ch).remCnt.toNat w).2.2)

theorem BodyClosed.unpackWord (hP : BodyClosed cfg prm ch P) (orbit : Word) (w : Word80) {ses : Session}
    (hs : P ses) : P (unpackWord cfg prm ch orbit ses w) :=
  foldl_closed (fun _ c _ h => hP.dispatchChunk orbit c h) (hP.unpacked _ w hs)

theorem BodyClosed.packetBody (hP : BodyClosed cfg prm ch P) (orbit : Word) (bytes : List Byte) {ses : Session}
    (hs : P ses) : P (packetBody cfg prm ch orbit bytes ses) := by
  unfold Machine.packetBody
  refine foldl_closed (fun _ w _ h => hP.unpackWord orbit w h) ?_
  split
  · exact hP.partialWord _ hs
  · exact hs

/-- R208: the chunks of a packet set only the bits of BUILD and MERGE and CNTOVF. -/
theorem ChunkClosed.hasFlag {b : IErrBit} (hb : b ∉ buildFlags) (hc : b ≠ .cntovf) (v : Bool) :
    ChunkClosed cfg prm ch (fun ses => ses.hasFlag b = v) where
  flag _ c hm ses h := by
    have : b ≠ c := fun e => hb (e ▸ hm)
    simpa [this] using h
  lcntA _ _ ses h := by simpa [hc] using h
  lcntB _ _ ses h := by simpa [hc] using h
  rej _ ses h := by simpa [hc] using h
  dup _ ses h := by simpa [hc] using h
  fillHalf _ _ _ _ _ h _ _ _ := h
  newKey _ _ _ _ h _ _ _ _ := h

/-- R208: a packet's chunks leave the bits of the packet's own steps alone. -/
theorem dispatchChunk_hasFlag {b : IErrBit} (hb : b ∉ buildFlags) (hc : b ≠ .cntovf) (orbit : Word) (ses : Session)
    (c : Chunk) : (dispatchChunk cfg prm ch orbit ses c).hasFlag b = ses.hasFlag b :=
  (ChunkClosed.hasFlag hb hc _).dispatchChunk orbit c rfl

/-- R208: the payload of a packet sets no other bit than PARTIAL, exactly where ASSEMBLE has a partial group, beside
those of its chunks. -/
theorem packetBody_hasFlag {b : IErrBit} (hb : b ∉ buildFlags) (hc : b ≠ .cntovf) (orbit : Word) (bytes : List Byte)
    (ses : Session) : (packetBody cfg prm ch orbit bytes ses).hasFlag b =
      (ses.hasFlag b || (decide (b = .partialWord) && (assemble ses.groupBytes bytes).2)) := by
  unfold packetBody
  dsimp only
  rw [foldl_keeps _ (fun x : Session => x.hasFlag b)]
  · cases (assemble ses.groupBytes bytes).2 <;> simp
  · intro x w
    unfold unpackWord
    rw [foldl_keeps _ (fun x : Session => x.hasFlag b) fun x c => dispatchChunk_hasFlag hb hc orbit x c]
    simp

/-! ## What the chunks leave alone -/

/-- LUMI_COUNT writes the two counts and IERR only (R151). -/
theorem lumiCount_frame (cfg : CfgRegs) (c : Chunk) (ses : Session) :
    ∃ a b e, lumiCount cfg c ses = { ses with lcntA := a, lcntB := b, ierr := e } := by
  refine ⟨(lumiCount cfg c ses).lcntA, (lumiCount cfg c ses).lcntB, (lumiCount cfg c ses).ierr, ?_⟩
  unfold lumiCount Session.incLcntB Session.incLcntA Session.noteWrap Session.flag
  dsimp only
  split <;> split <;> (try split) <;> (try split) <;> rfl

/-- MERGE writes the map, the channel's duplicate count and IERR only (R139). -/
theorem merge_frame (prm : Params) (ch : Channel) (key : Key) (pay : Nat) (ses : Session) :
    ∃ d m e, merge prm ch key pay ses =
      { ses.setChan ch { ses.chan ch with dup := d } with map := m, ierr := e } := by
  rcases merge_cases prm ch key pay ses with ⟨e, -, -, h⟩ | ⟨e, -, -, h⟩ | ⟨-, -, h⟩ | ⟨-, -, h⟩ <;> rw [h]
  · refine ⟨(ses.chan ch).dup + 1#32, ses.map, ((ses.incDup ch).flag .dup).ierr, ?_⟩
    unfold Session.incDup Session.noteWrap Session.flag
    dsimp only
    cases ch <;> split <;> rfl
  · exact ⟨(ses.chan ch).dup, putKey key (e.fill ch pay) ses.map, ses.ierr, by cases ch <;> rfl⟩
  · exact ⟨(ses.chan ch).dup, ses.map, (ses.flag .mapfull).ierr, by cases ch <;> rfl⟩
  · exact ⟨(ses.chan ch).dup, putKey key (Entry.empty.fill ch pay) ses.map, ses.ierr, by cases ch <;> rfl⟩

/-- BUILD writes the map, the channel's rejection and duplicate counts and IERR only (R131). -/
theorem build_frame (cfg : CfgRegs) (prm : Params) (ch : Channel) (c : Chunk) (orbit : Word) (ses : Session) :
    ∃ r d m e, build cfg prm ch c orbit ses =
      { ses.setChan ch { ses.chan ch with rej := r, dup := d } with map := m, ierr := e } := by
  have hself : ∀ e, ({ ses with ierr := e } : Session) =
      { ses.setChan ch { ses.chan ch with rej := (ses.chan ch).rej, dup := (ses.chan ch).dup } with
        map := ses.map, ierr := e } := by intro e; cases ch <;> rfl
  have hrej : ∀ b : Bool, ∃ r d m e, (if b then ses.incRej ch else (ses.incRej ch).flag .clarify) =
      { ses.setChan ch { ses.chan ch with rej := r, dup := d } with map := m, ierr := e } := by
    intro b
    refine ⟨(ses.chan ch).rej + 1#32, (ses.chan ch).dup, ses.map,
      (if b then ses.incRej ch else (ses.incRej ch).flag .clarify).ierr, ?_⟩
    unfold Session.incRej Session.noteWrap Session.flag
    dsimp only
    cases ch <;> split <;> split <;> rfl
  rcases build_cases cfg prm ch c orbit ses with
    ⟨-, h⟩ | ⟨-, -, h⟩ | ⟨-, -, -, h⟩ | ⟨-, -, -, -, h⟩ | ⟨-, -, -, -, -, h⟩ | ⟨-, -, -, -, key, -, h⟩ <;> rw [h]
  · exact ⟨_, _, _, _, hself ses.ierr⟩
  · exact ⟨_, _, _, _, hself _⟩
  · exact hrej true
  · exact hrej false
  · exact ⟨_, _, _, _, hself _⟩
  · obtain ⟨d, m, e, hm⟩ := merge_frame prm ch key (chunkPay (cfg.width ch) c) ses
    exact ⟨(ses.chan ch).rej, d, m, e, by rw [hm]⟩

/-- DISPATCH_CHUNK writes the lumi counts, the map, the channel's rejection and duplicate counts and IERR only. -/
theorem dispatchChunk_frame (cfg : CfgRegs) (prm : Params) (ch : Channel) (orbit : Word) (ses : Session)
    (c : Chunk) : ∃ r d m e a b, dispatchChunk cfg prm ch orbit ses c =
      { ses.setChan ch { ses.chan ch with rej := r, dup := d } with map := m, ierr := e, lcntA := a, lcntB := b } := by
  have h1 : ∃ a b e, (if ch = .ir ∧ cfg.lumiEn then lumiCount cfg c ses else ses) =
      { ses with lcntA := a, lcntB := b, ierr := e } := by
    split
    · exact lumiCount_frame cfg c ses
    · exact ⟨ses.lcntA, ses.lcntB, ses.ierr, rfl⟩
  obtain ⟨a, b, e, h1⟩ := h1
  unfold dispatchChunk
  rw [h1]
  dsimp only
  split
  · obtain ⟨r, d, m, e', h2⟩ := build_frame cfg prm ch c orbit { ses with lcntA := a, lcntB := b, ierr := e }
    exact ⟨r, d, m, e', a, b, by rw [h2]; cases ch <;> rfl⟩
  · exact ⟨(ses.chan ch).rej, (ses.chan ch).dup, ses.map, e, a, b, by cases ch <;> rfl⟩

section
variable (cfg : CfgRegs) (prm : Params) (ch : Channel) (orbit : Word) (ses : Session) (c : Chunk) (w : Word80)

@[simp] theorem dispatchChunk_wLatched : (dispatchChunk cfg prm ch orbit ses c).wLatched = ses.wLatched := by
  obtain ⟨_, _, _, _, _, _, h⟩ := dispatchChunk_frame cfg prm ch orbit ses c; rw [h]; cases ch <;> rfl
@[simp] theorem dispatchChunk_w16 : (dispatchChunk cfg prm ch orbit ses c).w16 = ses.w16 := by
  obtain ⟨_, _, _, _, _, _, h⟩ := dispatchChunk_frame cfg prm ch orbit ses c; rw [h]; cases ch <;> rfl
@[simp] theorem dispatchChunk_ioLatched : (dispatchChunk cfg prm ch orbit ses c).ioLatched = ses.ioLatched := by
  obtain ⟨_, _, _, _, _, _, h⟩ := dispatchChunk_frame cfg prm ch orbit ses c; rw [h]; cases ch <;> rfl
@[simp] theorem dispatchChunk_intervalOrbit :
    (dispatchChunk cfg prm ch orbit ses c).intervalOrbit = ses.intervalOrbit := by
  obtain ⟨_, _, _, _, _, _, h⟩ := dispatchChunk_frame cfg prm ch orbit ses c; rw [h]; cases ch <;> rfl
@[simp] theorem dispatchChunk_unkCh : (dispatchChunk cfg prm ch orbit ses c).unkCh = ses.unkCh := by
  obtain ⟨_, _, _, _, _, _, h⟩ := dispatchChunk_frame cfg prm ch orbit ses c; rw [h]; cases ch <;> rfl
@[simp] theorem dispatchChunk_lumi : (dispatchChunk cfg prm ch orbit ses c).lumi = ses.lumi := by
  obtain ⟨_, _, _, _, _, _, h⟩ := dispatchChunk_frame cfg prm ch orbit ses c; rw [h]; cases ch <;> rfl

/-- The fields of a channel that its chunks leave alone, whichever channel they belong to (R37 to R39). -/
def ChanState.held (c : ChanState) : Bool × Word × Word × BitVec 78 × BitVec 7 :=
  (c.fopen, c.frameOrbit, c.lastOrbit, c.remVal, c.remCnt)

@[simp] theorem dispatchChunk_held (ch' : Channel) :
    ((dispatchChunk cfg prm ch orbit ses c).chan ch').held = (ses.chan ch').held := by
  obtain ⟨_, _, _, _, _, _, h⟩ := dispatchChunk_frame cfg prm ch orbit ses c
  rw [h]; cases ch <;> cases ch' <;> rfl

theorem dispatchChunk_chan_other {ch' : Channel} (hc : ch' ≠ ch) :
    (dispatchChunk cfg prm ch orbit ses c).chan ch' = ses.chan ch' := by
  obtain ⟨_, _, _, _, _, _, h⟩ := dispatchChunk_frame cfg prm ch orbit ses c
  rw [h]; cases ch <;> cases ch' <;> first | rfl | exact absurd rfl hc

@[simp] theorem unpackWord_wLatched : (unpackWord cfg prm ch orbit ses w).wLatched = ses.wLatched := by
  unfold unpackWord; rw [foldl_keeps _ _ (fun s c => dispatchChunk_wLatched cfg prm ch orbit s c)]; simp
@[simp] theorem unpackWord_w16 : (unpackWord cfg prm ch orbit ses w).w16 = ses.w16 := by
  unfold unpackWord; rw [foldl_keeps _ _ (fun s c => dispatchChunk_w16 cfg prm ch orbit s c)]; simp
@[simp] theorem unpackWord_ioLatched : (unpackWord cfg prm ch orbit ses w).ioLatched = ses.ioLatched := by
  unfold unpackWord; rw [foldl_keeps _ _ (fun s c => dispatchChunk_ioLatched cfg prm ch orbit s c)]; simp
@[simp] theorem unpackWord_intervalOrbit :
    (unpackWord cfg prm ch orbit ses w).intervalOrbit = ses.intervalOrbit := by
  unfold unpackWord; rw [foldl_keeps _ _ (fun s c => dispatchChunk_intervalOrbit cfg prm ch orbit s c)]; simp
@[simp] theorem unpackWord_unkCh : (unpackWord cfg prm ch orbit ses w).unkCh = ses.unkCh := by
  unfold unpackWord; rw [foldl_keeps _ _ (fun s c => dispatchChunk_unkCh cfg prm ch orbit s c)]; simp
@[simp] theorem unpackWord_lumi : (unpackWord cfg prm ch orbit ses w).lumi = ses.lumi := by
  unfold unpackWord; rw [foldl_keeps _ _ (fun s c => dispatchChunk_lumi cfg prm ch orbit s c)]; simp

/-- UNPACK of a word decides the channel's remnant, and the chunks do not change it. -/
theorem unpackWord_held : ((unpackWord cfg prm ch orbit ses w).chan ch).held =
    ((ses.setRemnant ch
      (unpack (cfg.width ch) (ses.chan ch).remVal.toNat (ses.chan ch).remCnt.toNat w).2.1
      (unpack (cfg.width ch) (ses.chan ch).remVal.toNat (ses.chan ch).remCnt.toNat w).2.2).chan ch).held := by
  unfold unpackWord
  exact foldl_keeps _ (fun s : Session => (s.chan ch).held) (fun s c => dispatchChunk_held cfg prm ch orbit s c ch) _ _

theorem unpackWord_chan_other {ch' : Channel} (hc : ch' ≠ ch) :
    (unpackWord cfg prm ch orbit ses w).chan ch' = ses.chan ch' := by
  unfold unpackWord
  rw [foldl_keeps _ (fun s : Session => s.chan ch') (fun s c => dispatchChunk_chan_other cfg prm ch orbit s c hc)]
  exact Session.setRemnant_chan_other hc _ _ _

variable (bytes : List Byte)

@[simp] theorem packetBody_wLatched : (packetBody cfg prm ch orbit bytes ses).wLatched = ses.wLatched := by
  unfold packetBody; rw [foldl_keeps _ _ (fun s w => unpackWord_wLatched cfg prm ch orbit s w)]; split <;> simp
@[simp] theorem packetBody_w16 : (packetBody cfg prm ch orbit bytes ses).w16 = ses.w16 := by
  unfold packetBody; rw [foldl_keeps _ _ (fun s w => unpackWord_w16 cfg prm ch orbit s w)]; split <;> simp
@[simp] theorem packetBody_ioLatched : (packetBody cfg prm ch orbit bytes ses).ioLatched = ses.ioLatched := by
  unfold packetBody; rw [foldl_keeps _ _ (fun s w => unpackWord_ioLatched cfg prm ch orbit s w)]; split <;> simp
@[simp] theorem packetBody_intervalOrbit :
    (packetBody cfg prm ch orbit bytes ses).intervalOrbit = ses.intervalOrbit := by
  unfold packetBody; rw [foldl_keeps _ _ (fun s w => unpackWord_intervalOrbit cfg prm ch orbit s w)]; split <;> simp
@[simp] theorem packetBody_unkCh : (packetBody cfg prm ch orbit bytes ses).unkCh = ses.unkCh := by
  unfold packetBody; rw [foldl_keeps _ _ (fun s w => unpackWord_unkCh cfg prm ch orbit s w)]; split <;> simp
@[simp] theorem packetBody_lumi : (packetBody cfg prm ch orbit bytes ses).lumi = ses.lumi := by
  unfold packetBody; rw [foldl_keeps _ _ (fun s w => unpackWord_lumi cfg prm ch orbit s w)]; split <;> simp

theorem packetBody_chan_other {ch' : Channel} (hc : ch' ≠ ch) :
    (packetBody cfg prm ch orbit bytes ses).chan ch' = ses.chan ch' := by
  unfold packetBody
  rw [foldl_keeps _ (fun s : Session => s.chan ch') (fun s w => unpackWord_chan_other cfg prm ch orbit s w hc)]
  split <;> simp

end

/-! ## The one induction, over PKT's datapath and END -/

/-- What a property of the session must withstand to be kept by `pktDatapath` and `endIntervalOps`: every elementary
write of them, under the conditions it happens in. A channel is processed where `ch = .ir` or digits are on (R173). -/
structure SessionClosed (cfg : CfgRegs) (prm : Params) (P : Session → Prop) : Prop where
  flag : ∀ b ∈ packetFlags, ∀ ses, P ses → P (ses.flag b)
  chunks : ∀ ch, ch = .ir ∨ cfg.digitsEn = true → ChunkClosed cfg prm ch P
  unpacked : ∀ ch, ch = .ir ∨ cfg.digitsEn = true → ∀ ses w, P ses → P (ses.setRemnant ch
    (unpack (cfg.width ch) (ses.chan ch).remVal.toNat (ses.chan ch).remCnt.toNat w).2.1
    (unpack (cfg.width ch) (ses.chan ch).remVal.toNat (ses.chan ch).remCnt.toNat w).2.2)
  noRemnant : ∀ ch ses, P ses → P (ses.setRemnant ch 0 0)
  padding : ∀ ses pad, ses.wLatched = false → P ses → P { ses with w16 := pad, wLatched := true }
  startOrbit : ∀ ses orbit, ses.ioLatched = false → P ses → P { ses with intervalOrbit := orbit, ioLatched := true }
  openFrame : ∀ ch, ch = .ir ∨ cfg.digitsEn = true → ∀ ses orbit, P ses →
    P (ses.setChan ch { ses.chan ch with frameOrbit := orbit, fopen := true })
  lastOrbit : ∀ ch, ch = .ir ∨ cfg.digitsEn = true → ∀ ses orbit, P ses → P (ses.setLastOrbit ch orbit)
  emit : cfg.lumiEn = true → ∀ ses, P ses → P (lumiEmit prm ses)
  noCounts : ∀ ses, P ses → P { ses with lcntA := 0#32, lcntB := 0#32 }
  unkCh : ∀ ses, P ses → P ses.incUnkCh

theorem SessionClosed.body (hP : SessionClosed cfg prm P) (hc : ch = .ir ∨ cfg.digitsEn = true) :
    BodyClosed cfg prm ch P := ⟨hP.chunks ch hc, hP.flag _ (by decide), hP.unpacked ch hc⟩

theorem SessionClosed.latchPadding (hP : SessionClosed cfg prm P) (pad : Bool) {ses : Session} (hs : P ses) :
    P (latchPadding pad ses) := by
  unfold Machine.latchPadding
  split
  · split
    · exact hs
    · exact hP.flag _ (by decide) _ hs
  · next h => exact hP.padding _ _ (by simpa using h) hs

theorem SessionClosed.latchOrbit (hP : SessionClosed cfg prm P) (orbit : Word) {ses : Session} (hs : P ses) :
    P (latchOrbit orbit ses) := by
  unfold Machine.latchOrbit
  split
  · exact hs
  · next h => exact hP.startOrbit _ _ (by simpa using h) hs

theorem SessionClosed.frameStart (hP : SessionClosed cfg prm P) (hc : ch = .ir ∨ cfg.digitsEn = true) (orbit : Word)
    {ses : Session} (hs : P ses) : P (frameStart cfg prm ch orbit ses) := by
  unfold Machine.frameStart
  refine hP.openFrame ch hc _ _ (hP.noRemnant ch _ ?_)
  cases ch
  · refine hP.noCounts _ ?_
    split
    · next h => exact hP.emit (by simp_all) _ hs
    · exact hs
  · exact hs

theorem SessionClosed.frameStep (hP : SessionClosed cfg prm P) (hc : ch = .ir ∨ cfg.digitsEn = true)
    (seq : BitVec 16) (orbit trig : Word) {ses : Session} (hs : P ses) :
    P (frameStep cfg prm ch seq orbit trig ses) := by
  unfold Machine.frameStep
  split
  · exact hP.frameStart hc orbit hs
  · split
    · exact hs
    · exact hP.flag _ (by decide) _ hs

theorem SessionClosed.processPacket (hP : SessionClosed cfg prm P) (hc : ch = .ir ∨ cfg.digitsEn = true)
    (seq : BitVec 16) (orbit trig : Word) (pad : Bool) (bytes : List Byte) {ses : Session} (hs : P ses) :
    P (processPacket cfg prm ch seq orbit trig pad bytes ses) :=
  (hP.body hc).packetBody _ _
    (hP.lastOrbit ch hc _ _ (hP.frameStep hc _ _ _ (hP.latchOrbit _ (hP.latchPadding _ hs))))

theorem SessionClosed.pktDatapath (hP : SessionClosed cfg prm P) (linkId seq : BitVec 16) (orbit trig : Word)
    (pad : Bool) (bytes : List Byte) {ses : Session} (hs : P ses) :
    P (pktDatapath cfg prm linkId seq orbit trig pad bytes ses) := by
  unfold Machine.pktDatapath
  split
  · exact hP.flag _ (by decide) _ (hP.unkCh _ hs)
  · exact hP.processPacket (.inl rfl) _ _ _ _ _ hs
  · split
    · next h => exact hP.processPacket (.inr h) _ _ _ _ _ hs
    · exact hs

/-- FLUSH of the class-record channel with digits off only clears the remnant. -/
theorem SessionClosed.flush (hP : SessionClosed cfg prm P) (ch : Channel) {ses : Session} (hs : P ses) :
    P (flush cfg prm ch ses) := by
  unfold Machine.flush
  split
  · exact hs
  · by_cases hc : ch = .ir ∨ cfg.digitsEn = true
    · exact (hP.chunks ch hc).dispatchChunk _ _ (hP.noRemnant ch _ hs)
    · rw [not_or] at hc
      unfold Machine.dispatchChunk
      simpa [hc.1, hc.2] using hP.noRemnant ch _ hs

theorem SessionClosed.endIntervalOps (hP : SessionClosed cfg prm P) {ses : Session} (hs : P ses) :
    P (endIntervalOps cfg prm ses) := by
  unfold Machine.endIntervalOps
  have h := hP.flush .cl (hP.flush .ir hs)
  dsimp only
  split
  · next h' => exact hP.emit (by simp_all) _ h
  · exact h

/-! ## The chunks of a channel do not look at its remnant, and leave it alone -/

theorem Session.flag_setRemnant (b : IErrBit) (ch : Channel) (v n : Nat) (ses : Session) :
    (ses.setRemnant ch v n).flag b =
      (ses.flag b).setRemnant ch v n := by
  cases ch <;> rfl

theorem Session.noteWrap_setRemnant (c : Word) (ch : Channel) (v n : Nat) (ses : Session) :
    (ses.setRemnant ch v n).noteWrap c =
      (ses.noteWrap c).setRemnant ch v n := by
  unfold Session.noteWrap; split <;> cases ch <;> rfl

theorem Session.incLcntA_setRemnant (ch : Channel) (v n : Nat) (ses : Session) :
    (ses.setRemnant ch v n).incLcntA =
      ses.incLcntA.setRemnant ch v n := by
  unfold Session.incLcntA Session.noteWrap; cases ch <;> dsimp only [Session.setRemnant, Session.setChan] <;> split <;> rfl

theorem Session.incLcntB_setRemnant (ch : Channel) (v n : Nat) (ses : Session) :
    (ses.setRemnant ch v n).incLcntB =
      ses.incLcntB.setRemnant ch v n := by
  unfold Session.incLcntB Session.noteWrap; cases ch <;> dsimp only [Session.setRemnant, Session.setChan] <;> split <;> rfl

theorem Session.incRej_setRemnant (ch : Channel) (v n : Nat) (ses : Session) :
    (ses.setRemnant ch v n).incRej ch =
      (ses.incRej ch).setRemnant ch v n := by
  unfold Session.incRej Session.noteWrap; cases ch <;> dsimp only [Session.setRemnant, Session.setChan, Session.chan] <;> split <;> rfl

theorem Session.incDup_setRemnant (ch : Channel) (v n : Nat) (ses : Session) :
    (ses.setRemnant ch v n).incDup ch =
      (ses.incDup ch).setRemnant ch v n := by
  unfold Session.incDup Session.noteWrap; cases ch <;> dsimp only [Session.setRemnant, Session.setChan, Session.chan] <;> split <;> rfl

theorem Session.setRemnant_withMap (ch : Channel) (v n : Nat) (m : List (Key × Entry)) (ses : Session) :
    ({ ses.setRemnant ch v n with map := m } : Session) =
      ({ ses with map := m } : Session).setRemnant ch v n := by
  cases ch <;> rfl

theorem lumiCount_setRemnant (cfg : CfgRegs) (c : Chunk) (ch : Channel) (v n : Nat) (ses : Session) :
    lumiCount cfg c (ses.setRemnant ch v n) =
      (lumiCount cfg c ses).setRemnant ch v n := by
  unfold lumiCount; dsimp only; split <;> split <;> simp only [Session.incLcntA_setRemnant, Session.incLcntB_setRemnant]

theorem merge_setRemnant (prm : Params) (ch : Channel) (key : Key) (pay v n : Nat) (ses : Session) :
    merge prm ch key pay (ses.setRemnant ch v n) =
      (merge prm ch key pay ses).setRemnant ch v n := by
  unfold merge; simp only [Session.setRemnant_map]
  split <;> split <;> simp only [Session.incDup_setRemnant, Session.flag_setRemnant, Session.setRemnant_withMap]

theorem build_setRemnant (cfg : CfgRegs) (prm : Params) (ch : Channel) (c : Chunk) (o : Word) (v n : Nat) (ses : Session) :
    build cfg prm ch c o (ses.setRemnant ch v n) =
      (build cfg prm ch c o ses).setRemnant ch v n := by
  unfold build; simp only [Session.setRemnant_intervalOrbit]
  repeat' split
  all_goals simp only [Session.incRej_setRemnant, merge_setRemnant, Session.flag_setRemnant]

theorem dispatchChunk_setRemnant (cfg : CfgRegs) (prm : Params) (ch : Channel) (c : Chunk) (o : Word) (v n : Nat) (ses : Session) :
    dispatchChunk cfg prm ch o (ses.setRemnant ch v n) c =
      (dispatchChunk cfg prm ch o ses c).setRemnant ch v n := by
  unfold dispatchChunk; dsimp only
  split <;> split <;> simp only [lumiCount_setRemnant, build_setRemnant]

theorem foldl_dispatchChunk_setRemnant (cfg : CfgRegs) (prm : Params) (ch : Channel) (o : Word) (v n : Nat) (l : List Chunk)
    (ses : Session) : l.foldl (dispatchChunk cfg prm ch o) (ses.setRemnant ch v n) =
      (l.foldl (dispatchChunk cfg prm ch o) ses).setRemnant ch v n := by
  induction l generalizing ses with
  | nil => rfl
  | cons c l ih => simp only [List.foldl_cons, dispatchChunk_setRemnant, ih]

/-! ## The lumi counts of a chunk (R151, R154) -/

section
variable (cfg : CfgRegs) (prm : Params) (ch : Channel) (orbit : Word) (ses : Session) (c : Chunk)

@[simp] theorem build_lcntA : (build cfg prm ch c orbit ses).lcntA = ses.lcntA := by
  obtain ⟨_, _, _, _, h⟩ := build_frame cfg prm ch c orbit ses; rw [h]; cases ch <;> rfl
@[simp] theorem build_lcntB : (build cfg prm ch c orbit ses).lcntB = ses.lcntB := by
  obtain ⟨_, _, _, _, h⟩ := build_frame cfg prm ch c orbit ses; rw [h]; cases ch <;> rfl

theorem lumiCount_lcntA : (lumiCount cfg c ses).lcntA =
    if patternMatches cfg.lmaskA (cfg.width .ir - 12) (chunkPay (cfg.width .ir) c) then ses.lcntA + 1#32
    else ses.lcntA := by
  unfold lumiCount; dsimp only; split <;> split <;> simp
theorem lumiCount_lcntB : (lumiCount cfg c ses).lcntB =
    if patternMatches cfg.lmaskB (cfg.width .ir - 12) (chunkPay (cfg.width .ir) c) then ses.lcntB + 1#32
    else ses.lcntB := by
  unfold lumiCount; dsimp only; split <;> split <;> simp

/-- R154: BUILD has no part in a chunk's lumi counts. -/
theorem dispatchChunk_lcntA : (dispatchChunk cfg prm ch orbit ses c).lcntA =
    if ch = .ir ∧ cfg.lumiEn then (lumiCount cfg c ses).lcntA else ses.lcntA := by
  unfold dispatchChunk; dsimp only; split <;> split <;> simp
theorem dispatchChunk_lcntB : (dispatchChunk cfg prm ch orbit ses c).lcntB =
    if ch = .ir ∧ cfg.lumiEn then (lumiCount cfg c ses).lcntB else ses.lcntB := by
  unfold dispatchChunk; dsimp only; split <;> split <;> simp

end

/-! ## What END leaves alone, and the remnants it leaves -/

section
variable (cfg : CfgRegs) (prm : Params) (ch : Channel) (ses : Session)

@[simp] theorem flush_wLatched : (flush cfg prm ch ses).wLatched = ses.wLatched := by
  unfold flush; split <;> simp
@[simp] theorem flush_w16 : (flush cfg prm ch ses).w16 = ses.w16 := by
  unfold flush; split <;> simp
@[simp] theorem flush_ioLatched : (flush cfg prm ch ses).ioLatched = ses.ioLatched := by
  unfold flush; split <;> simp
@[simp] theorem flush_intervalOrbit : (flush cfg prm ch ses).intervalOrbit = ses.intervalOrbit := by
  unfold flush; split <;> simp
@[simp] theorem flush_unkCh : (flush cfg prm ch ses).unkCh = ses.unkCh := by
  unfold flush; split <;> simp
@[simp] theorem flush_lumi : (flush cfg prm ch ses).lumi = ses.lumi := by
  unfold flush; split <;> simp
@[simp] theorem lumiEmit_wLatched : (lumiEmit prm ses).wLatched = ses.wLatched := by
  unfold lumiEmit; dsimp only; split <;> rfl
@[simp] theorem lumiEmit_w16 : (lumiEmit prm ses).w16 = ses.w16 := by
  unfold lumiEmit; dsimp only; split <;> rfl
@[simp] theorem lumiEmit_ioLatched : (lumiEmit prm ses).ioLatched = ses.ioLatched := by
  unfold lumiEmit; dsimp only; split <;> rfl
@[simp] theorem lumiEmit_intervalOrbit : (lumiEmit prm ses).intervalOrbit = ses.intervalOrbit := by
  unfold lumiEmit; dsimp only; split <;> rfl
@[simp] theorem lumiEmit_ir : (lumiEmit prm ses).ir = ses.ir := by
  unfold lumiEmit; dsimp only; split <;> rfl
@[simp] theorem lumiEmit_cl : (lumiEmit prm ses).cl = ses.cl := by
  unfold lumiEmit; dsimp only; split <;> rfl
@[simp] theorem lumiEmit_unkCh : (lumiEmit prm ses).unkCh = ses.unkCh := by
  unfold lumiEmit; dsimp only; split <;> rfl
@[simp] theorem lumiEmit_map : (lumiEmit prm ses).map = ses.map := by
  unfold lumiEmit; dsimp only; split <;> rfl
@[simp] theorem lumiEmit_chan : (lumiEmit prm ses).chan ch = ses.chan ch := by cases ch <;> simp
@[simp] theorem lumiEmit_lcntA : (lumiEmit prm ses).lcntA = 0#32 := rfl
@[simp] theorem lumiEmit_lcntB : (lumiEmit prm ses).lcntB = 0#32 := rfl
theorem lumiEmit_lumi : (lumiEmit prm ses).lumi = if ses.lumi.length = prm.lumiCap.toNat then ses.lumi
    else ses.lumi ++ [⟨ses.ir.frameOrbit, 0#32, 0#32, ses.lcntA, ses.lcntB⟩] := by
  unfold lumiEmit; dsimp only; split <;> rfl
theorem lumiEmit_hasFlag (b : IErrBit) : (lumiEmit prm ses).hasFlag b =
    (ses.hasFlag b || (decide (b = .lumifull) && decide (ses.lumi.length = prm.lumiCap.toNat))) := by
  have h : (lumiEmit prm ses).hasFlag b =
      (if ses.lumi.length = prm.lumiCap.toNat then ses.flag .lumifull else ses).hasFlag b := by
    apply Session.hasFlag_congr; unfold lumiEmit; dsimp only; split <;> rfl
  rw [h]; split <;> simp [*]

@[simp] theorem endIntervalOps_wLatched : (endIntervalOps cfg prm ses).wLatched = ses.wLatched := by
  unfold endIntervalOps; dsimp only; split <;> simp
@[simp] theorem endIntervalOps_w16 : (endIntervalOps cfg prm ses).w16 = ses.w16 := by
  unfold endIntervalOps; dsimp only; split <;> simp
@[simp] theorem endIntervalOps_ioLatched : (endIntervalOps cfg prm ses).ioLatched = ses.ioLatched := by
  unfold endIntervalOps; dsimp only; split <;> simp
@[simp] theorem endIntervalOps_intervalOrbit : (endIntervalOps cfg prm ses).intervalOrbit = ses.intervalOrbit := by
  unfold endIntervalOps; dsimp only; split <;> simp
@[simp] theorem endIntervalOps_unkCh : (endIntervalOps cfg prm ses).unkCh = ses.unkCh := by
  unfold endIntervalOps; dsimp only; split <;> simp

/-- FLUSH leaves its channel no remnant, and keeps the frame fields (R171). -/
theorem flush_held : ((flush cfg prm ch ses).chan ch).held =
    ((ses.chan ch).fopen, (ses.chan ch).frameOrbit, (ses.chan ch).lastOrbit,
      if (ses.chan ch).remCnt = 0#7 then (ses.chan ch).remVal else 0#78, 0#7) := by
  unfold flush
  split
  · next h => simp [ChanState.held, h]
  · rw [dispatchChunk_held]; cases ch <;> rfl

theorem flush_chan_other {ch' : Channel} (hc : ch' ≠ ch) : (flush cfg prm ch ses).chan ch' = ses.chan ch' := by
  unfold flush
  split
  · rfl
  · rw [dispatchChunk_chan_other _ _ _ _ _ _ hc, Session.setRemnant_chan_other hc]

/-- R184: END keeps each channel's frame fields and leaves no remnant. -/
theorem endIntervalOps_held (ch : Channel) : ((endIntervalOps cfg prm ses).chan ch).held =
    ((ses.chan ch).fopen, (ses.chan ch).frameOrbit, (ses.chan ch).lastOrbit,
      if (ses.chan ch).remCnt = 0#7 then (ses.chan ch).remVal else 0#78, 0#7) := by
  have h : (endIntervalOps cfg prm ses).chan ch = (flush cfg prm .cl (flush cfg prm .ir ses)).chan ch := by
    unfold endIntervalOps; dsimp only; split <;> simp
  rw [h]
  cases ch
  · rw [flush_chan_other _ _ _ _ (by simp), flush_held]
  · rw [flush_held, flush_chan_other _ _ _ _ (by simp)]

end

/-! ## The first steps of a processed packet (R163 to R168) -/

section
variable (cfg : CfgRegs) (prm : Params) (ch : Channel) (seq : BitVec 16) (orbit trig : Word) (pad : Bool) (ses : Session)

@[simp] theorem latchPadding_wLatched : (latchPadding pad ses).wLatched = true := by
  unfold latchPadding; split <;> (try split) <;> simp_all
@[simp] theorem latchPadding_w16 : (latchPadding pad ses).w16 = (if ses.wLatched then ses.w16 else pad) := by
  unfold latchPadding; split <;> (try split) <;> simp_all
@[simp] theorem latchPadding_ioLatched : (latchPadding pad ses).ioLatched = ses.ioLatched := by
  unfold latchPadding; split <;> (try split) <;> rfl
@[simp] theorem latchPadding_intervalOrbit : (latchPadding pad ses).intervalOrbit = ses.intervalOrbit := by
  unfold latchPadding; split <;> (try split) <;> rfl
@[simp] theorem latchPadding_ir : (latchPadding pad ses).ir = ses.ir := by
  unfold latchPadding; split <;> (try split) <;> rfl
@[simp] theorem latchPadding_cl : (latchPadding pad ses).cl = ses.cl := by
  unfold latchPadding; split <;> (try split) <;> rfl
@[simp] theorem latchPadding_unkCh : (latchPadding pad ses).unkCh = ses.unkCh := by
  unfold latchPadding; split <;> (try split) <;> rfl
@[simp] theorem latchPadding_lcntA : (latchPadding pad ses).lcntA = ses.lcntA := by
  unfold latchPadding; split <;> (try split) <;> rfl
@[simp] theorem latchPadding_lcntB : (latchPadding pad ses).lcntB = ses.lcntB := by
  unfold latchPadding; split <;> (try split) <;> rfl
@[simp] theorem latchPadding_map : (latchPadding pad ses).map = ses.map := by
  unfold latchPadding; split <;> (try split) <;> rfl
@[simp] theorem latchPadding_lumi : (latchPadding pad ses).lumi = ses.lumi := by
  unfold latchPadding; split <;> (try split) <;> rfl
@[simp] theorem latchPadding_chan : (latchPadding pad ses).chan ch = ses.chan ch := by cases ch <;> simp
@[simp] theorem latchOrbit_ioLatched : (latchOrbit orbit ses).ioLatched = true := by
  unfold latchOrbit; split <;> simp_all
@[simp] theorem latchOrbit_intervalOrbit : (latchOrbit orbit ses).intervalOrbit = (if ses.ioLatched then ses.intervalOrbit else orbit) := by
  unfold latchOrbit; split <;> simp_all
@[simp] theorem latchOrbit_ierr : (latchOrbit orbit ses).ierr = ses.ierr := by
  unfold latchOrbit; split <;> rfl
@[simp] theorem latchOrbit_wLatched : (latchOrbit orbit ses).wLatched = ses.wLatched := by
  unfold latchOrbit; split <;> rfl
@[simp] theorem latchOrbit_w16 : (latchOrbit orbit ses).w16 = ses.w16 := by
  unfold latchOrbit; split <;> rfl
@[simp] theorem latchOrbit_ir : (latchOrbit orbit ses).ir = ses.ir := by
  unfold latchOrbit; split <;> rfl
@[simp] theorem latchOrbit_cl : (latchOrbit orbit ses).cl = ses.cl := by
  unfold latchOrbit; split <;> rfl
@[simp] theorem latchOrbit_unkCh : (latchOrbit orbit ses).unkCh = ses.unkCh := by
  unfold latchOrbit; split <;> rfl
@[simp] theorem latchOrbit_lcntA : (latchOrbit orbit ses).lcntA = ses.lcntA := by
  unfold latchOrbit; split <;> rfl
@[simp] theorem latchOrbit_lcntB : (latchOrbit orbit ses).lcntB = ses.lcntB := by
  unfold latchOrbit; split <;> rfl
@[simp] theorem latchOrbit_map : (latchOrbit orbit ses).map = ses.map := by
  unfold latchOrbit; split <;> rfl
@[simp] theorem latchOrbit_lumi : (latchOrbit orbit ses).lumi = ses.lumi := by
  unfold latchOrbit; split <;> rfl
@[simp] theorem latchOrbit_chan : (latchOrbit orbit ses).chan ch = ses.chan ch := by cases ch <;> simp
@[simp] theorem frameStart_wLatched : (frameStart cfg prm ch orbit ses).wLatched = ses.wLatched := by
  unfold frameStart; cases ch <;> simp <;> (split <;> simp)
@[simp] theorem frameStart_w16 : (frameStart cfg prm ch orbit ses).w16 = ses.w16 := by
  unfold frameStart; cases ch <;> simp <;> (split <;> simp)
@[simp] theorem frameStart_ioLatched : (frameStart cfg prm ch orbit ses).ioLatched = ses.ioLatched := by
  unfold frameStart; cases ch <;> simp <;> (split <;> simp)
@[simp] theorem frameStart_intervalOrbit : (frameStart cfg prm ch orbit ses).intervalOrbit = ses.intervalOrbit := by
  unfold frameStart; cases ch <;> simp <;> (split <;> simp)
@[simp] theorem frameStart_unkCh : (frameStart cfg prm ch orbit ses).unkCh = ses.unkCh := by
  unfold frameStart; cases ch <;> simp <;> (split <;> simp)
@[simp] theorem frameStart_map : (frameStart cfg prm ch orbit ses).map = ses.map := by
  unfold frameStart; cases ch <;> simp <;> (split <;> simp)
theorem frameStart_chan_other {ch' : Channel} (hc : ch' ≠ ch) :
    (frameStart cfg prm ch orbit ses).chan ch' = ses.chan ch' := by
  unfold frameStart
  dsimp only
  rw [Session.chan_setChan_other hc, Session.setRemnant_chan_other hc]
  cases ch <;> cases ch' <;> first | exact absurd rfl hc | rfl | (dsimp only; split <;> simp)
theorem frameStart_chan_same : (frameStart cfg prm ch orbit ses).chan ch =
    { ses.chan ch with frameOrbit := orbit, fopen := true, remVal := 0#78, remCnt := 0#7 } := by
  unfold frameStart
  dsimp only
  rw [Session.chan_setChan_same, Session.setRemnant_chan_same]
  cases ch <;> dsimp only <;> (try split) <;> simp
@[simp] theorem frameStep_wLatched : (frameStep cfg prm ch seq orbit trig ses).wLatched = ses.wLatched := by
  unfold frameStep; split <;> (try split) <;> simp
@[simp] theorem frameStep_w16 : (frameStep cfg prm ch seq orbit trig ses).w16 = ses.w16 := by
  unfold frameStep; split <;> (try split) <;> simp
@[simp] theorem frameStep_ioLatched : (frameStep cfg prm ch seq orbit trig ses).ioLatched = ses.ioLatched := by
  unfold frameStep; split <;> (try split) <;> simp
@[simp] theorem frameStep_intervalOrbit : (frameStep cfg prm ch seq orbit trig ses).intervalOrbit = ses.intervalOrbit := by
  unfold frameStep; split <;> (try split) <;> simp
@[simp] theorem frameStep_unkCh : (frameStep cfg prm ch seq orbit trig ses).unkCh = ses.unkCh := by
  unfold frameStep; split <;> (try split) <;> simp
@[simp] theorem frameStep_map : (frameStep cfg prm ch seq orbit trig ses).map = ses.map := by
  unfold frameStep; split <;> (try split) <;> simp
theorem frameStep_chan_other {ch' : Channel} (hc : ch' ≠ ch) :
    (frameStep cfg prm ch seq orbit trig ses).chan ch' = ses.chan ch' := by
  unfold frameStep; split <;> (try split) <;> simp [frameStart_chan_other _ _ _ _ _ hc]
theorem frameStep_chan_same : (frameStep cfg prm ch seq orbit trig ses).chan ch =
    if cfg.isFrameStart trig seq then
      { ses.chan ch with frameOrbit := orbit, fopen := true, remVal := 0#78, remCnt := 0#7 }
    else ses.chan ch := by
  unfold frameStep; split <;> (try split) <;> simp [frameStart_chan_same]

@[simp] theorem packetHead_wLatched : (packetHead cfg prm ch seq orbit trig pad ses).wLatched = true := by
  simp [packetHead, Session.setLastOrbit]
@[simp] theorem packetHead_w16 :
    (packetHead cfg prm ch seq orbit trig pad ses).w16 = (if ses.wLatched then ses.w16 else pad) := by
  simp [packetHead, Session.setLastOrbit]
@[simp] theorem packetHead_ioLatched : (packetHead cfg prm ch seq orbit trig pad ses).ioLatched = true := by
  simp [packetHead, Session.setLastOrbit]
@[simp] theorem packetHead_intervalOrbit : (packetHead cfg prm ch seq orbit trig pad ses).intervalOrbit =
    (if ses.ioLatched then ses.intervalOrbit else orbit) := by
  simp [packetHead, Session.setLastOrbit]
@[simp] theorem packetHead_unkCh : (packetHead cfg prm ch seq orbit trig pad ses).unkCh = ses.unkCh := by
  simp [packetHead, Session.setLastOrbit]
@[simp] theorem packetHead_map : (packetHead cfg prm ch seq orbit trig pad ses).map = ses.map := by
  simp [packetHead, Session.setLastOrbit]
theorem latchPadding_hasFlag (b : IErrBit) : (latchPadding pad ses).hasFlag b =
    (ses.hasFlag b || (decide (b = .padmix) && (ses.wLatched && pad != ses.w16))) := by
  unfold latchPadding
  cases hw : ses.wLatched
  · simp [Session.hasFlag]
  · by_cases hp : pad = ses.w16
    · simp [hp]
    · have : (pad != ses.w16) = true := bne_iff_ne.mpr hp
      simp [hp, this]

theorem frameStart_hasFlag (b : IErrBit) : (frameStart cfg prm ch orbit ses).hasFlag b =
    (ses.hasFlag b || (decide (b = .lumifull) && decide (ch = .ir) && cfg.lumiEn && ses.ir.fopen &&
      decide (ses.lumi.length = prm.lumiCap.toNat))) := by
  unfold frameStart
  cases ch
  · cases cfg.lumiEn <;> cases ses.ir.fopen <;> simp [Session.hasFlag_congr (ses' := ses)]
    exact (Session.hasFlag_congr (ses' := lumiEmit prm ses) rfl b).trans (lumiEmit_hasFlag prm ses b)
  · simp

/-- R163, R166, R167: the error bits of a packet's first steps. -/
theorem packetHead_hasFlag (b : IErrBit) : (packetHead cfg prm ch seq orbit trig pad ses).hasFlag b =
    (ses.hasFlag b || (decide (b = .padmix) && (ses.wLatched && pad != ses.w16)) ||
      (decide (b = .noframe) && (!cfg.isFrameStart trig seq && !(ses.chan ch).fopen)) ||
      (decide (b = .lumifull) && (cfg.isFrameStart trig seq && decide (ch = .ir) && cfg.lumiEn && ses.ir.fopen &&
        decide (ses.lumi.length = prm.lumiCap.toNat)))) := by
  unfold packetHead Session.setLastOrbit frameStep
  have h : ∀ x, (latchOrbit orbit x).hasFlag b = x.hasFlag b := fun x => Session.hasFlag_congr (by simp) b
  cases hs : cfg.isFrameStart trig seq
  · cases hf : (ses.chan ch).fopen <;> simp [h, hf, latchPadding_hasFlag]
  · simp [h, frameStart_hasFlag, latchPadding_hasFlag, Bool.and_assoc]

theorem packetHead_chan_other {ch' : Channel} (hc : ch' ≠ ch) :
    (packetHead cfg prm ch seq orbit trig pad ses).chan ch' = ses.chan ch' := by
  unfold packetHead Session.setLastOrbit
  rw [Session.chan_setChan_other hc, frameStep_chan_other _ _ _ _ _ _ _ hc]
  simp
/-- R166, R168: the packet's channel when its payload is assembled. -/
theorem packetHead_chan_same : (packetHead cfg prm ch seq orbit trig pad ses).chan ch =
    if cfg.isFrameStart trig seq then
      { ses.chan ch with frameOrbit := orbit, fopen := true, remVal := 0#78, remCnt := 0#7, lastOrbit := orbit }
    else { ses.chan ch with lastOrbit := orbit } := by
  unfold packetHead Session.setLastOrbit
  rw [Session.chan_setChan_same, frameStep_chan_same]
  split <;> simp

end

end Sys2Proof.Machine
end

