-- ==== Sys2Proof/Laws/PerInstr.lean ====
section
/-! SUPPORT. The statements made of every instruction as syntax, one lemma per constructor of Instr. -/

namespace Sys2Proof.Laws.EncodeLength

/-- R82: a well-formed command is encoded in as many words as its length says, and its first word alone says how
many. -/
def Statement (i : Instr) : Prop :=
  i.wellFormed = true → (encode i).length = i.length ∧ ∃ h ws, encode i = h :: ws ∧ headerLength h = i.length

theorem nop : Statement .nop := fun _ => ⟨rfl, _, _, rfl, by decide⟩

theorem beginInterval : Statement .beginInterval := fun _ => ⟨rfl, _, _, rfl, by decide⟩

theorem endInterval : Statement .endInterval := fun _ => ⟨rfl, _, _, rfl, by decide⟩

theorem csrw (csr : BitVec 8) (v : Word) : Statement (.csrw csr v) :=
  fun _ => ⟨rfl, _, _, rfl, by simp [headerLength, headerLegal, Instr.length]⟩

theorem csrr (csr : BitVec 8) : Statement (.csrr csr) :=
  fun _ => ⟨rfl, _, _, rfl, by simp [headerLength, headerLegal, Instr.length]⟩

theorem pkt (pad herr : Bool) (len linkId seq : BitVec 16) (orbit trig : Word) (data : List Word) :
    Statement (.pkt pad herr len linkId seq orbit trig data) := by
  intro h
  have hd : data.length = dataWords len := by simpa [Instr.wellFormed, dataWords] using h
  refine ⟨by simp [encode, Instr.length, hd]; omega, _, _, rfl, ?_⟩
  have hf := (flags_cases pad herr).1
  simp [headerLength, headerLegal, Instr.length, hf]

theorem rddig (idx : Word) : Statement (.rddig idx) :=
  fun _ => ⟨rfl, _, _, rfl, by simp [headerLength, headerLegal, Instr.length]⟩

theorem rdlumi (idx : Word) : Statement (.rdlumi idx) :=
  fun _ => ⟨rfl, _, _, rfl, by simp [headerLength, headerLegal, Instr.length]⟩

theorem srst : Statement .srst := fun _ => ⟨rfl, _, _, rfl, by decide⟩

end Sys2Proof.Laws.EncodeLength
end

