-- ==== Sys2Proof/Laws/Step.lean ====
section
/-! SUPPORT. What a step can do, said once (R181). -/

namespace Sys2Proof.Machine

/-- R51: a step of the closed machine is the spec's step relation at the arguments that stand beside the engine's
state. -/
theorem step_eq_stepWith (s : State) : step s = s.toEngine.stepWith s.params s.input s.resetPin := rfl

/-- A step that answers a next state took the hardware reset, ran one command, or ran ILLCMD. -/
theorem step_cases {s t : State} (h : step s = .next t) :
    (s.resetPin = true ∧ t = s.hwReset) ∨
    (s.resetPin = false ∧ ∃ i rest, decode s.input = .ok (i, rest) ∧ exec i { s with input := rest } = .next t) ∨
    (s.resetPin = false ∧ (decode s.input = .error .unassignedOpcode ∨ decode s.input = .error .reservedField) ∧
      t = ({ s with input := s.input.tail } : State).illCmd) := by
  unfold step at h
  cases hp : s.resetPin with
  | true => simp only [hp, if_true, Host.Outcome.next.injEq] at h; exact .inl ⟨rfl, h.symm⟩
  | false =>
    simp only [hp, Bool.false_eq_true, if_false] at h
    split at h
    · next i rest hd => exact .inr (.inl ⟨rfl, i, rest, hd, h⟩)
    · next hd => exact .inr (.inr ⟨rfl, .inl hd, by simpa using h.symm⟩)
    · next hd => exact .inr (.inr ⟨rfl, .inr hd, by simpa using h.symm⟩)
    · simp at h
    · simp at h

/-- The state a command leaves: every command completes. -/
def execState (i : Instr) (s : State) : State :=
  match i with
  | .nop => s.retire 1
  | .beginInterval => (beginOp s).retire 1
  | .endInterval => (endOp s).retire 1
  | .csrw csr v => (csrWrite csr v s).retire 2
  | .csrr csr => (csrRead csr s).retire 1
  | .pkt pad herr len linkId seq orbit trig data =>
    (pktOp pad herr len linkId seq orbit trig data s).retire (4 + dataWords len)
  | .rddig idx => (s.respPush (digitResponse idx s)).retire 2
  | .rdlumi idx => (s.respPush (sampleResponse idx s)).retire 2
  | .srst => s.resetFields

theorem exec_eq (i : Instr) (s : State) : exec i s = .next (execState i s) := by cases i <;> rfl

/-- Everything BEGIN can do (R183). -/
theorem beginOp_cases (s : State) :
    (s.engine = .active ∧ beginOp s = s.gflag .seq) ∨
    (s.engine ≠ .active ∧ s.cfg.legal = true ∧ beginOp s = { s.clearSession with engine := .active }) ∨
    (s.engine ≠ .active ∧ s.cfg.legal = false ∧ beginOp s = s.clearSession.abort .cfgInvalid) := by
  unfold beginOp
  by_cases h : s.engine = .active
  · exact .inl ⟨h, by simp [h]⟩
  · cases h' : s.cfg.legal
    · exact .inr (.inr ⟨h, rfl, by simp [h, h']⟩)
    · exact .inr (.inl ⟨h, rfl, by simp [h, h']⟩)

/-- Everything END can do (R184). -/
theorem endOp_cases (s : State) :
    (s.engine = .active ∧ endOp s = { s with ses := endIntervalOps s.cfg s.params s.ses, engine := .done }) ∨
    (s.engine = .aborted ∧ endOp s = s) ∨
    ((s.engine = .idle ∨ s.engine = .done) ∧ endOp s = s.gflag .seq) := by
  unfold endOp
  cases h : s.engine <;> simp

/-- Everything PKT can do (R185). -/
theorem pktOp_cases (pad herr : Bool) (len linkId seq : BitVec 16) (orbit trig : Word) (data : List Word)
    (s : State) :
    (s.engine = .active ∧ herr = true ∧ pktOp pad herr len linkId seq orbit trig data s = s.abort .hdrErr) ∨
    (s.engine = .active ∧ herr = false ∧ pktOp pad herr len linkId seq orbit trig data s =
      { s with ses := pktDatapath s.cfg s.params linkId seq orbit trig pad (payloadBytes len data) s.ses }) ∨
    (s.engine = .aborted ∧ pktOp pad herr len linkId seq orbit trig data s = s) ∨
    ((s.engine = .idle ∨ s.engine = .done) ∧ pktOp pad herr len linkId seq orbit trig data s = s.gflag .seq) := by
  unfold pktOp
  cases h : s.engine <;> cases herr <;> simp

/-- Everything CSRW can do (R186). -/
theorem csrWrite_cases (csr : BitVec 8) (v : Word) (s : State) :
    (∃ r, csrAt csr = some r ∧ r.cls = .cfg ∧ s.engine = .active ∧ csrWrite csr v s = s.gflag .cfglock) ∨
    (∃ r, csrAt csr = some r ∧ r.cls = .cfg ∧ s.engine ≠ .active ∧
      csrWrite csr v s = { s with cfg := s.cfg.write v r }) ∨
    (csrClass csr ≠ .cfg ∧ csrWrite csr v s = s.gflag .badcsr) := by
  unfold csrWrite csrClass
  cases h : csrAt csr with
  | none => simp
  | some r =>
    by_cases h1 : r.cls = .cfg
    · by_cases h2 : s.engine = .active <;> simp [h1, h2]
    · simp [h1]

/-- Everything CSRR can do (R187). -/
theorem csrRead_cases (csr : BitVec 8) (s : State) :
    (∃ r, csrAt csr = some r ∧ csrRead csr s = s.respPush [r.value s]) ∨
    (csrAt csr = none ∧ csrRead csr s = (s.respPush [0#32]).gflag .badcsr) := by
  unfold csrRead
  cases h : csrAt csr <;> simp

/-- A write of a register changes the configuration only where the register is configuration (R193). -/
theorem CfgRegs.write_other (cfg : CfgRegs) (v : Word) {r : Csr} (h : r.cls ≠ .cfg) : cfg.write v r = cfg := by
  cases r <;> first | rfl | exact absurd rfl h

/-! ## The fields that a command's operation leaves alone -/

@[simp] theorem beginOp_cpos (s : State) : (beginOp s).cpos = s.cpos := by
  rcases beginOp_cases s with ⟨_, h⟩ | ⟨_, _, h⟩ | ⟨_, _, h⟩ <;> rw [h] <;> rfl
@[simp] theorem beginOp_cfg (s : State) : (beginOp s).cfg = s.cfg := by
  rcases beginOp_cases s with ⟨_, h⟩ | ⟨_, _, h⟩ | ⟨_, _, h⟩ <;> rw [h] <;> rfl
@[simp] theorem beginOp_resp (s : State) : (beginOp s).resp = s.resp := by
  rcases beginOp_cases s with ⟨_, h⟩ | ⟨_, _, h⟩ | ⟨_, _, h⟩ <;> rw [h] <;> rfl
@[simp] theorem beginOp_params (s : State) : (beginOp s).params = s.params := by
  rcases beginOp_cases s with ⟨_, h⟩ | ⟨_, _, h⟩ | ⟨_, _, h⟩ <;> rw [h] <;> rfl
@[simp] theorem beginOp_input (s : State) : (beginOp s).input = s.input := by
  rcases beginOp_cases s with ⟨_, h⟩ | ⟨_, _, h⟩ | ⟨_, _, h⟩ <;> rw [h] <;> rfl
@[simp] theorem beginOp_resetPin (s : State) : (beginOp s).resetPin = s.resetPin := by
  rcases beginOp_cases s with ⟨_, h⟩ | ⟨_, _, h⟩ | ⟨_, _, h⟩ <;> rw [h] <;> rfl
@[simp] theorem endOp_cpos (s : State) : (endOp s).cpos = s.cpos := by
  rcases endOp_cases s with ⟨_, h⟩ | ⟨_, h⟩ | ⟨_, h⟩ <;> rw [h] <;> rfl
@[simp] theorem endOp_cfg (s : State) : (endOp s).cfg = s.cfg := by
  rcases endOp_cases s with ⟨_, h⟩ | ⟨_, h⟩ | ⟨_, h⟩ <;> rw [h] <;> rfl
@[simp] theorem endOp_fatalCause (s : State) : (endOp s).fatalCause = s.fatalCause := by
  rcases endOp_cases s with ⟨_, h⟩ | ⟨_, h⟩ | ⟨_, h⟩ <;> rw [h] <;> rfl
@[simp] theorem endOp_fatalCpos (s : State) : (endOp s).fatalCpos = s.fatalCpos := by
  rcases endOp_cases s with ⟨_, h⟩ | ⟨_, h⟩ | ⟨_, h⟩ <;> rw [h] <;> rfl
@[simp] theorem endOp_resp (s : State) : (endOp s).resp = s.resp := by
  rcases endOp_cases s with ⟨_, h⟩ | ⟨_, h⟩ | ⟨_, h⟩ <;> rw [h] <;> rfl
@[simp] theorem endOp_params (s : State) : (endOp s).params = s.params := by
  rcases endOp_cases s with ⟨_, h⟩ | ⟨_, h⟩ | ⟨_, h⟩ <;> rw [h] <;> rfl
@[simp] theorem endOp_input (s : State) : (endOp s).input = s.input := by
  rcases endOp_cases s with ⟨_, h⟩ | ⟨_, h⟩ | ⟨_, h⟩ <;> rw [h] <;> rfl
@[simp] theorem endOp_resetPin (s : State) : (endOp s).resetPin = s.resetPin := by
  rcases endOp_cases s with ⟨_, h⟩ | ⟨_, h⟩ | ⟨_, h⟩ <;> rw [h] <;> rfl
@[simp] theorem csrWrite_engine (csr : BitVec 8) (v : Word) (s : State) : (csrWrite csr v s).engine = s.engine := by
  rcases csrWrite_cases csr v s with ⟨_, _, _, _, h⟩ | ⟨_, _, _, _, h⟩ | ⟨_, h⟩ <;> rw [h] <;> rfl
@[simp] theorem csrWrite_cpos (csr : BitVec 8) (v : Word) (s : State) : (csrWrite csr v s).cpos = s.cpos := by
  rcases csrWrite_cases csr v s with ⟨_, _, _, _, h⟩ | ⟨_, _, _, _, h⟩ | ⟨_, h⟩ <;> rw [h] <;> rfl
@[simp] theorem csrWrite_fatalCause (csr : BitVec 8) (v : Word) (s : State) : (csrWrite csr v s).fatalCause = s.fatalCause := by
  rcases csrWrite_cases csr v s with ⟨_, _, _, _, h⟩ | ⟨_, _, _, _, h⟩ | ⟨_, h⟩ <;> rw [h] <;> rfl
@[simp] theorem csrWrite_fatalCpos (csr : BitVec 8) (v : Word) (s : State) : (csrWrite csr v s).fatalCpos = s.fatalCpos := by
  rcases csrWrite_cases csr v s with ⟨_, _, _, _, h⟩ | ⟨_, _, _, _, h⟩ | ⟨_, h⟩ <;> rw [h] <;> rfl
@[simp] theorem csrWrite_ses (csr : BitVec 8) (v : Word) (s : State) : (csrWrite csr v s).ses = s.ses := by
  rcases csrWrite_cases csr v s with ⟨_, _, _, _, h⟩ | ⟨_, _, _, _, h⟩ | ⟨_, h⟩ <;> rw [h] <;> rfl
@[simp] theorem csrWrite_resp (csr : BitVec 8) (v : Word) (s : State) : (csrWrite csr v s).resp = s.resp := by
  rcases csrWrite_cases csr v s with ⟨_, _, _, _, h⟩ | ⟨_, _, _, _, h⟩ | ⟨_, h⟩ <;> rw [h] <;> rfl
@[simp] theorem csrWrite_params (csr : BitVec 8) (v : Word) (s : State) : (csrWrite csr v s).params = s.params := by
  rcases csrWrite_cases csr v s with ⟨_, _, _, _, h⟩ | ⟨_, _, _, _, h⟩ | ⟨_, h⟩ <;> rw [h] <;> rfl
@[simp] theorem csrWrite_input (csr : BitVec 8) (v : Word) (s : State) : (csrWrite csr v s).input = s.input := by
  rcases csrWrite_cases csr v s with ⟨_, _, _, _, h⟩ | ⟨_, _, _, _, h⟩ | ⟨_, h⟩ <;> rw [h] <;> rfl
@[simp] theorem csrWrite_resetPin (csr : BitVec 8) (v : Word) (s : State) : (csrWrite csr v s).resetPin = s.resetPin := by
  rcases csrWrite_cases csr v s with ⟨_, _, _, _, h⟩ | ⟨_, _, _, _, h⟩ | ⟨_, h⟩ <;> rw [h] <;> rfl
@[simp] theorem csrRead_engine (csr : BitVec 8) (s : State) : (csrRead csr s).engine = s.engine := by
  rcases csrRead_cases csr s with ⟨_, _, h⟩ | ⟨_, h⟩ <;> rw [h] <;> rfl
@[simp] theorem csrRead_cpos (csr : BitVec 8) (s : State) : (csrRead csr s).cpos = s.cpos := by
  rcases csrRead_cases csr s with ⟨_, _, h⟩ | ⟨_, h⟩ <;> rw [h] <;> rfl
@[simp] theorem csrRead_cfg (csr : BitVec 8) (s : State) : (csrRead csr s).cfg = s.cfg := by
  rcases csrRead_cases csr s with ⟨_, _, h⟩ | ⟨_, h⟩ <;> rw [h] <;> rfl
@[simp] theorem csrRead_fatalCause (csr : BitVec 8) (s : State) : (csrRead csr s).fatalCause = s.fatalCause := by
  rcases csrRead_cases csr s with ⟨_, _, h⟩ | ⟨_, h⟩ <;> rw [h] <;> rfl
@[simp] theorem csrRead_fatalCpos (csr : BitVec 8) (s : State) : (csrRead csr s).fatalCpos = s.fatalCpos := by
  rcases csrRead_cases csr s with ⟨_, _, h⟩ | ⟨_, h⟩ <;> rw [h] <;> rfl
@[simp] theorem csrRead_ses (csr : BitVec 8) (s : State) : (csrRead csr s).ses = s.ses := by
  rcases csrRead_cases csr s with ⟨_, _, h⟩ | ⟨_, h⟩ <;> rw [h] <;> rfl
@[simp] theorem csrRead_params (csr : BitVec 8) (s : State) : (csrRead csr s).params = s.params := by
  rcases csrRead_cases csr s with ⟨_, _, h⟩ | ⟨_, h⟩ <;> rw [h] <;> rfl
@[simp] theorem csrRead_input (csr : BitVec 8) (s : State) : (csrRead csr s).input = s.input := by
  rcases csrRead_cases csr s with ⟨_, _, h⟩ | ⟨_, h⟩ <;> rw [h] <;> rfl
@[simp] theorem csrRead_resetPin (csr : BitVec 8) (s : State) : (csrRead csr s).resetPin = s.resetPin := by
  rcases csrRead_cases csr s with ⟨_, _, h⟩ | ⟨_, h⟩ <;> rw [h] <;> rfl
@[simp] theorem pktOp_cpos (pad herr : Bool) (len link seq : BitVec 16) (orbit trig : Word) (data : List Word)
    (s : State) : (pktOp pad herr len link seq orbit trig data s).cpos = s.cpos := by
  rcases pktOp_cases pad herr len link seq orbit trig data s with ⟨_, _, h⟩ | ⟨_, _, h⟩ | ⟨_, h⟩ | ⟨_, h⟩ <;> rw [h] <;> rfl
@[simp] theorem pktOp_cfg (pad herr : Bool) (len link seq : BitVec 16) (orbit trig : Word) (data : List Word)
    (s : State) : (pktOp pad herr len link seq orbit trig data s).cfg = s.cfg := by
  rcases pktOp_cases pad herr len link seq orbit trig data s with ⟨_, _, h⟩ | ⟨_, _, h⟩ | ⟨_, h⟩ | ⟨_, h⟩ <;> rw [h] <;> rfl
@[simp] theorem pktOp_resp (pad herr : Bool) (len link seq : BitVec 16) (orbit trig : Word) (data : List Word)
    (s : State) : (pktOp pad herr len link seq orbit trig data s).resp = s.resp := by
  rcases pktOp_cases pad herr len link seq orbit trig data s with ⟨_, _, h⟩ | ⟨_, _, h⟩ | ⟨_, h⟩ | ⟨_, h⟩ <;> rw [h] <;> rfl
@[simp] theorem pktOp_params (pad herr : Bool) (len link seq : BitVec 16) (orbit trig : Word) (data : List Word)
    (s : State) : (pktOp pad herr len link seq orbit trig data s).params = s.params := by
  rcases pktOp_cases pad herr len link seq orbit trig data s with ⟨_, _, h⟩ | ⟨_, _, h⟩ | ⟨_, h⟩ | ⟨_, h⟩ <;> rw [h] <;> rfl
@[simp] theorem pktOp_input (pad herr : Bool) (len link seq : BitVec 16) (orbit trig : Word) (data : List Word)
    (s : State) : (pktOp pad herr len link seq orbit trig data s).input = s.input := by
  rcases pktOp_cases pad herr len link seq orbit trig data s with ⟨_, _, h⟩ | ⟨_, _, h⟩ | ⟨_, h⟩ | ⟨_, h⟩ <;> rw [h] <;> rfl
@[simp] theorem pktOp_resetPin (pad herr : Bool) (len link seq : BitVec 16) (orbit trig : Word) (data : List Word)
    (s : State) : (pktOp pad herr len link seq orbit trig data s).resetPin = s.resetPin := by
  rcases pktOp_cases pad herr len link seq orbit trig data s with ⟨_, _, h⟩ | ⟨_, _, h⟩ | ⟨_, h⟩ | ⟨_, h⟩ <;> rw [h] <;> rfl
@[simp] theorem State.illCmd_cfg (s : State) : s.illCmd.cfg = s.cfg := by
  unfold State.illCmd; dsimp only; split <;> rfl
@[simp] theorem State.illCmd_ses (s : State) : s.illCmd.ses = s.ses := by
  unfold State.illCmd; dsimp only; split <;> rfl
@[simp] theorem State.illCmd_resp (s : State) : s.illCmd.resp = s.resp := by
  unfold State.illCmd; dsimp only; split <;> rfl
@[simp] theorem State.illCmd_params (s : State) : s.illCmd.params = s.params := by
  unfold State.illCmd; dsimp only; split <;> rfl
@[simp] theorem State.illCmd_input (s : State) : s.illCmd.input = s.input := by
  unfold State.illCmd; dsimp only; split <;> rfl
@[simp] theorem State.illCmd_resetPin (s : State) : s.illCmd.resetPin = s.resetPin := by
  unfold State.illCmd; dsimp only; split <;> rfl
@[simp] theorem State.illCmd_cpos (s : State) : s.illCmd.cpos = s.cpos + 1#32 := by
  unfold State.illCmd; dsimp only; split <;> rfl

@[simp] theorem State.hasGflag_illCmd (b : GErrBit) (s : State) :
    s.illCmd.hasGflag b = (s.hasGflag b || decide (b = .illcmd)) := by
  rw [← State.hasGflag_gflag]
  apply State.hasGflag_congr
  unfold State.illCmd; dsimp only; split <;> rfl

/-! ## What every command leaves alone -/

@[simp] theorem execState_params (i : Instr) (s : State) : (execState i s).params = s.params := by
  cases i <;> simp [execState]
@[simp] theorem execState_input (i : Instr) (s : State) : (execState i s).input = s.input := by
  cases i <;> simp [execState]
@[simp] theorem execState_resetPin (i : Instr) (s : State) : (execState i s).resetPin = s.resetPin := by
  cases i <;> simp [execState]

/-- R22: every command but SRST advances CPOS by its length. -/
theorem execState_cpos {i : Instr} (h : i ≠ .srst) (s : State) :
    (execState i s).cpos = s.cpos + BitVec.ofNat 32 i.length := by
  cases i <;> first | exact absurd rfl h | simp [execState, Instr.length]

/-- The one induction over steps (R181). A property of states is kept by every step where it survives each of the ways a
step can change the parts of the state that it may speak of: `engine`, `cfg`, `ses`, `params` and the fatal registers.
The fields are: a reset; a step that leaves those parts alone; a CSRW; an abort of an open interval; BEGIN with a legal
and with an illegal configuration; END; and a packet. -/
structure StepClosed (I : State → Prop) : Prop where
  reset : ∀ s t : State, t.engine = .idle → t.ses = Session.clear → t.fatalCause = .none → t.fatalCpos = 0#32 →
    t.cfg = CfgRegs.reset → t.params = s.params → I t
  same : ∀ s t : State, I s → t.engine = s.engine → t.cfg = s.cfg → t.ses = s.ses → t.params = s.params →
    t.fatalCause = s.fatalCause → t.fatalCpos = s.fatalCpos → I t
  config : ∀ s t : State, I s → s.engine ≠ .active → t.engine = s.engine → t.ses = s.ses → t.params = s.params →
    t.fatalCause = s.fatalCause → t.fatalCpos = s.fatalCpos → I t
  aborts : ∀ s t : State, I s → s.engine = .active → t.engine = .aborted → t.cfg = s.cfg → t.ses = s.ses →
    t.params = s.params → t.fatalCause ≠ .none → I t
  begins : ∀ s t : State, I s → t.cfg.legal = true → t.engine = .active → t.ses = Session.clear →
    t.params = s.params → t.fatalCause = .none → t.fatalCpos = 0#32 → I t
  refuses : ∀ s t : State, I s → t.engine = .aborted → t.ses = Session.clear → t.params = s.params →
    t.fatalCause ≠ .none → I t
  ends : ∀ s t : State, I s → s.engine = .active → t.engine = .done → t.cfg = s.cfg →
    t.ses = endIntervalOps s.cfg s.params s.ses → t.params = s.params → t.fatalCause = s.fatalCause →
    t.fatalCpos = s.fatalCpos → I t
  packet : ∀ (s t : State) (linkId seq : BitVec 16) (orbit trig : Word) (pad : Bool) (bytes : List Byte), I s →
    s.engine = .active → t.engine = .active → t.cfg = s.cfg →
    t.ses = pktDatapath s.cfg s.params linkId seq orbit trig pad bytes s.ses → t.params = s.params →
    t.fatalCause = s.fatalCause → t.fatalCpos = s.fatalCpos → I t

theorem StepClosed.keeps {I : State → Prop} (hI : StepClosed I) {s t : State} (hs : I s) (h : step s = .next t) :
    I t := by
  rcases step_cases h with ⟨h1, rfl⟩ | ⟨hp, i, rest, hd, he⟩ | ⟨hp, hd, rfl⟩
  · exact hI.reset s _ rfl rfl rfl rfl rfl rfl
  · rw [exec_eq] at he
    injection he with he
    subst he
    cases i
    case srst => exact hI.reset s _ rfl rfl rfl rfl rfl rfl
    case beginInterval =>
      rcases beginOp_cases { s with input := rest } with ⟨_, h⟩ | ⟨_, hl, h⟩ | ⟨_, _, h⟩ <;> simp only [execState, h]
      · exact hI.same s _ hs rfl rfl rfl rfl rfl rfl
      · exact hI.begins s _ hs hl rfl rfl rfl rfl rfl
      · exact hI.refuses s _ hs rfl rfl rfl (by simp)
    case endInterval =>
      rcases endOp_cases { s with input := rest } with ⟨ha, h⟩ | ⟨_, h⟩ | ⟨_, h⟩ <;> simp only [execState, h]
      · exact hI.ends s _ hs ha rfl rfl rfl rfl rfl rfl
      · exact hI.same s _ hs rfl rfl rfl rfl rfl rfl
      · exact hI.same s _ hs rfl rfl rfl rfl rfl rfl
    case pkt pad herr len linkId seq orbit trig data =>
      rcases pktOp_cases pad herr len linkId seq orbit trig data { s with input := rest } with
        ⟨ha, _, h⟩ | ⟨ha, _, h⟩ | ⟨_, h⟩ | ⟨_, h⟩ <;> simp only [execState, h]
      · exact hI.aborts s _ hs ha rfl rfl rfl rfl (by simp)
      · exact hI.packet s _ _ _ _ _ _ _ hs ha ha rfl rfl rfl rfl rfl
      · exact hI.same s _ hs rfl rfl rfl rfl rfl rfl
      · exact hI.same s _ hs rfl rfl rfl rfl rfl rfl
    case csrw csr v =>
      rcases csrWrite_cases csr v { s with input := rest } with ⟨_, _, _, _, h⟩ | ⟨_, _, _, ha, h⟩ | ⟨_, h⟩ <;>
        simp only [execState, h]
      · exact hI.same s _ hs rfl rfl rfl rfl rfl rfl
      · exact hI.config s _ hs ha rfl rfl rfl rfl rfl
      · exact hI.same s _ hs rfl rfl rfl rfl rfl rfl
    all_goals
      exact hI.same s _ hs (by simp [execState]) (by simp [execState]) (by simp [execState]) (by simp [execState])
        (by simp [execState]) (by simp [execState])
  · by_cases ha : s.engine = .active
    · exact hI.aborts s _ hs ha (by simp [State.illCmd, ha]) (by simp) (by simp) (by simp)
        (by simp [State.illCmd, ha])
    · exact hI.same s _ hs (by simp [State.illCmd, ha]) (by simp) (by simp) (by simp) (by simp [State.illCmd, ha])
        (by simp [State.illCmd, ha])

/-- R162, R173, R185: what a packet of an open interval that is processed does, in one equation. -/
theorem exec_pkt_processed (pad : Bool) (len linkId seq : BitVec 16) (orbit trig : Word) (data : List Word) (s : State)
    (ch : Channel) (ha : s.engine = .active) (hc : s.cfg.chan linkId = some ch)
    (hd : ch = .ir ∨ s.cfg.digitsEn = true) :
    exec (.pkt pad false len linkId seq orbit trig data) s =
      .next (State.retire (4 + dataWords len) { s with
        ses := processPacket s.cfg s.params ch seq orbit trig pad (payloadBytes len data) s.ses }) := by
  rw [exec_eq]
  simp only [execState, pktOp, ha, pktDatapath, hc]
  cases ch
  · rfl
  · simp at hd; simp [hd]

end Sys2Proof.Machine
end

