-- ==== Sys2Proof/Tests/Slice0.lean ====
section
/-! SUPPORT. The model's own tests: the well-formedness smoke test, words written out from the formats of
30_encoding.md, one step of each command against 95_test_vectors.md, and for every statement with hypotheses a
concrete state and operands that meet them. -/

namespace Sys2Proof.Tests

open Sys2Proof Sys2Proof.Machine

/-! ## Well-formedness (R85) -/

/-- R85: LEN = 5 takes two data words; with one the term is no command. -/
theorem test_wellFormed_refuses_short_pkt :
    (Instr.pkt false false 5#16 0#16 0#16 0#32 0#32 [1#32]).wellFormed = false ∧
    (Instr.pkt false false 5#16 0#16 0#16 0#32 0#32 [1#32, 2#32, 3#32]).wellFormed = false ∧
    (Instr.pkt false false 5#16 0#16 0#16 0#32 0#32 [1#32, 2#32]).wellFormed = true := by decide

/-! ## Decoding: words from the listings of 95_test_vectors.md -/

/-- K1. -/
theorem test_decode_nop : decode [0x00000000#32] = .ok (.nop, []) := by rfl

/-- P1, CPOS 4. -/
theorem test_decode_begin : decode [0x01000000#32] = .ok (.beginInterval, []) := by rfl

/-- P1, CPOS 14. -/
theorem test_decode_end : decode [0x02000000#32] = .ok (.endInterval, []) := by rfl

/-- P1, CPOS 2; the word after the command stays. -/
theorem test_decode_csrw : decode [0x03040000#32, 0x00000064#32, 0x01000000#32] =
    .ok (.csrw 0x04#8 100#32, [0x01000000#32]) := by rfl

/-- P1, CPOS 13. -/
theorem test_decode_csrr : decode [0x041A0000#32] = .ok (.csrr 0x1A#8, []) := by rfl

/-- P1, CPOS 5: PAD is A[0]. -/
theorem test_decode_pkt_pad :
    decode [0x05010010#32, 0x00000000#32, 0x00001000#32, 0x00000802#32, 0x00001069#32, 0#32, 0#32, 0#32] =
      .ok (.pkt true false 16#16 0#16 0#16 0x1000#32 0x802#32 [0x00001069#32, 0#32, 0#32, 0#32], []) := by rfl

/-- P5, CPOS 3 (HERR is A[1]); P2, CPOS 27 (SEQ is above LINK_ID). -/
theorem test_decode_pkt_herr_seq :
    decode [0x05020005#32, 0x00000000#32, 0x00000009#32, 0x00000002#32, 0x04030201#32, 0x00000005#32] =
      .ok (.pkt false true 5#16 0#16 0#16 9#32 2#32 [0x04030201#32, 5#32], []) ∧
    decode [0x0500000A#32, 0x00010100#32, 0x00000033#32, 0x00000000#32, 0x00000303#32, 0#32, 0#32] =
      .ok (.pkt false false 10#16 0x0100#16 1#16 51#32 0#32 [0x303#32, 0#32, 0#32], []) := ⟨rfl, rfl⟩

/-- P2, CPOS 39. -/
theorem test_decode_rddig : decode [0x06000000#32, 0x00000001#32] = .ok (.rddig 1#32, []) := by rfl

/-- P3, CPOS 26. -/
theorem test_decode_rdlumi : decode [0x07000000#32, 0x00000001#32] = .ok (.rdlumi 1#32, []) := by rfl

/-- P5, CPOS 16. -/
theorem test_decode_srst : decode [0x0F000000#32] = .ok (.srst, []) := by rfl

/-- I1, I6: unassigned opcodes. -/
theorem test_decode_refuses_unassigned :
    decode [0x08000000#32] = .error .unassignedOpcode ∧ decode [0xFF000000#32] = .error .unassignedOpcode :=
  ⟨rfl, rfl⟩

/-- I2, I3, I4, I5, I7, I8: nonzero reserved fields. -/
theorem test_decode_refuses_reserved :
    ∀ h ∈ [0x01000001#32, 0x04000001#32, 0x05040000#32, 0x06010000#32, 0x00000001#32, 0x03050001#32],
      decode [h, 0#32, 0#32, 0#32] = .error .reservedField := by
  simp only [List.forall_mem_cons]
  exact ⟨rfl, rfl, rfl, rfl, rfl, rfl, by simp⟩

/-- K18: a PKT of LEN 10 without its data words, and no word at all. -/
theorem test_decode_waits :
    decode [0x0500000A#32, 0#32, 5#32, 2#32] = .error .truncated ∧ decode [] = .error .noHeader := ⟨rfl, rfl⟩

/-- spec/opcode_table.json: the bits of a row count on from word to word, and the operand words that it gives no bits
are zeros. -/
theorem test_table_word :
    decodeTableWord 32 0x05000000 = some (.pkt false false 0#16 0#16 0#16 0#32 0#32 []) ∧
    decodeTableWord 64 0x1006000000 = some (.rddig 0x10#32) ∧
    decodeTableWord 32 0x08000000 = none := by decide

/-! ## Datapath operations (95_test_vectors.md, Part 2) -/

/-- A2, A3, A4, A5: payload bytes b[j] = j + 1. -/
theorem test_assemble :
    let b := fun n => (List.range n).map fun j => BitVec.ofNat 8 (j + 1)
    assemble 10 (b 12) = ([0x0A090807060504030201#80, 0x0C0B#80], true) ∧
    assemble 16 (b 16) = ([0x0A090807060504030201#80], false) ∧
    assemble 16 (b 12) = ([0x0A090807060504030201#80], false) ∧
    assemble 16 (b 17) = ([0x0A090807060504030201#80, 0x11#80], true) := by decide

/-- U5 (N = 60, a remnant of 20 bits), and U3b's and U1's chunk counts and remnants for one word. -/
theorem test_unpack :
    unpack 60 0xABCDE 20 0x12345#80 = ([0x12345ABCDE], 0, 40) ∧
    ((unpack 13 0 0 0#80).1.length, (unpack 13 0 0 0#80).2.2) = (6, 2) ∧
    ((unpack 60 0 40 0#80).1.length, (unpack 60 0 40 0#80).2.2) = (2, 0) := by decide

/-- A session whose interval starts at `io`. -/
def sesAt (io : Word) : Session := { Session.clear with intervalOrbit := io }

/-- The reset configuration with OFF_C, LAT1 and LAT2. -/
def cfgOff (offC lat1 lat2 : BitVec 16) : CfgRegs := { CfgRegs.reset with offC := offC, lat1 := lat1, lat2 := lat2 }

/-- B4, B5, B6, B9, B10 and B11. -/
theorem test_build :
    let prm : Params := ⟨1024#32, 1024#32⟩
    (build (cfgOff 100 0 0) prm .ir (0x1 * 2 ^ 12 + 10) 0x1001 (sesAt 0x1000)).map =
      [(⟨0x1000, 3474⟩, ⟨true, 1, false, 0⟩)] ∧
    (build (cfgOff 100 10 5) prm .cl (0x7 * 2 ^ 12 + 200) 0x1001 (sesAt 0x1000)).map =
      [(⟨0x1001, 86⟩, ⟨false, 0, true, 7⟩)] ∧
    (build (cfgOff 0 0 0) prm .cl (0x1 * 2 ^ 12 + 3563) 5 (sesAt 5)).map = [(⟨6, 0⟩, ⟨false, 0, true, 1⟩)] ∧
    build (cfgOff 4000 0 0) prm .ir (0x1 * 2 ^ 12 + 10) 101 (sesAt 100) =
      { sesAt 100 with ir := { ChanState.clear with rej := 1 }, ierr := 0x80 } ∧
    build (cfgOff 100 0 0) prm .ir (0x1 * 2 ^ 12 + 200) 99 (sesAt 100) =
      { sesAt 100 with ir := { ChanState.clear with rej := 1 }, ierr := 0x80 } ∧
    build (cfgOff 0 0 0) prm .cl (0x1 * 2 ^ 12 + 3563) 0xFFFFFFFF (sesAt 0) = { sesAt 0 with ierr := 0x40 } := by
  decide

/-! ## One step of each command (95_test_vectors.md, Parts 2 and 3) -/

/-- A machine in STATE `e` with configuration `cfg`, whose stream holds `ws`. -/
def machine (e : EngineState) (cfg : CfgRegs) (ws : List Word) : State :=
  { State.reset with engine := e, cfg := cfg, input := ws }

/-- K1: only CPOS advances. -/
theorem test_nop : step (machine .idle .reset [0#32]) = .next { State.reset with cpos := 1#32 } := by rfl

/-- K2: NPLD_IR = 12 is refused, STATUS reads 0x203. -/
theorem test_begin_cfg_invalid :
    ∃ t, step (machine .idle { CfgRegs.reset with npldIr := 12 } [0x01000000#32]) = .next t ∧
      t.status = 0x203#32 := ⟨_, rfl, by decide⟩

/-- K6: BEGIN in an open interval sets GERR.SEQ, and STATE stays ACTIVE. -/
theorem test_begin_in_active :
    ∃ t, step (machine .active .reset [0x01000000#32]) = .next t ∧ t.gerr = 2#4 ∧ t.status = 1#32 :=
  ⟨_, rfl, by decide, by decide⟩

/-- The state of M2 before END: 20 bits of remnant that hold chunk(5, 0x1). -/
def m2 : State :=
  { machine .active { CfgRegs.reset with digitsEn := true, lumiEn := true, lmaskA := ⟨1, 0, 0⟩, lmaskB := ⟨2, 0, 0⟩ }
      [0x02000000#32] with
    ses := { sesAt 7 with
      wLatched := true, ioLatched := true, lcntA := 1, lcntB := 1,
      ir := { ChanState.clear with fopen := true, frameOrbit := 7, lastOrbit := 7, remVal := 0x1005, remCnt := 20 },
      map := [(⟨7, 20⟩, ⟨true, 3, false, 0⟩)] } }

/-- M2: END counts and builds the flushed chunk before it takes the final sample. -/
theorem test_end_flushes :
    ∃ t, step m2 = .next t ∧ t.engine = .done ∧ t.ses.lumi = [⟨7, 0, 0, 2, 1⟩] ∧
      t.ses.map = [(⟨7, 5⟩, ⟨true, 1, false, 0⟩), (⟨7, 20⟩, ⟨true, 3, false, 0⟩)] :=
  ⟨_, rfl, by decide, by decide, by decide⟩

/-- K9, K8: OFF_C keeps 16 bits, CTRL two. -/
theorem test_csrw_masks :
    (∃ t, step (machine .idle .reset [0x03040000#32, 0x00010064#32]) = .next t ∧ t.readCsr 0x04#8 = some 0x64#32) ∧
    (∃ t, step (machine .idle .reset [0x03010000#32, 0xFFFFFFFF#32]) = .next t ∧ t.readCsr 0x01#8 = some 3#32) :=
  ⟨⟨_, rfl, by decide⟩, _, rfl, by decide⟩

/-- K14: in ACTIVE a configuration write is dropped with GERR.CFGLOCK. -/
theorem test_csrw_locked :
    ∃ t, step (machine .active .reset [0x03020000#32, 50#32]) = .next t ∧ t.gerr = 4#4 ∧
      t.readCsr 0x02#8 = some 0x3C#32 := ⟨_, rfl, by decide, by decide⟩

/-- K11: the identity. -/
theorem test_csrr_id :
    ∃ t, step (machine .idle .reset [0x04000000#32]) = .next t ∧ t.resp = [0x43545001#32] := ⟨_, rfl, by decide⟩

/-- K7: an unassigned index pushes 0 and sets GERR.BADCSR. -/
theorem test_csrr_unassigned :
    ∃ t, step (machine .idle .reset [0x04FF0000#32]) = .next t ∧ t.resp = [0#32] ∧ t.gerr = 8#4 :=
  ⟨_, rfl, by decide, by decide⟩

/-- P1, CPOS 5: one digit at (0x1000, 5), 20 zero bits of remnant, no rejection. -/
theorem test_pkt_one_digit :
    ∃ t, step (machine .active { cfgOff 100 0 0 with digitsEn := true }
        [0x05010010#32, 0x00000000#32, 0x00001000#32, 0x00000802#32, 0x00001069#32, 0#32, 0#32, 0#32]) = .next t ∧
      t.ses.map = [(⟨0x1000, 5⟩, ⟨true, 1, false, 0⟩)] ∧ t.ses.ir.remCnt = 20 ∧ t.ses.ir.rej = 0 :=
  ⟨_, rfl, by decide, by decide, by decide⟩

/-- O4: a chunk with bc 3564, then a partial group whose chunk starts in the remnant; BCRANGE and PARTIAL. -/
theorem test_pkt_partial_group :
    ∃ t, step (machine .active { CfgRegs.reset with digitsEn := true }
        [0x0500000C#32, 0x00000000#32, 5#32, 2#32, 0x00001DEC#32, 0#32, 0x10690000#32]) = .next t ∧
      t.ses.map = [(⟨5, 0⟩, ⟨true, 0x106900, false, 0⟩)] ∧ t.ses.ir.remCnt = 40 ∧ t.ses.ierr = 0x24 :=
  ⟨_, rfl, by decide, by decide, by decide⟩

/-- A finished interval with the digit of P1 and the first sample of P3. -/
def finished (ws : List Word) : State :=
  { machine .done .reset ws with
    ses := { sesAt 0x1000 with
      map := [(⟨0x1000, 5⟩, ⟨true, 1, false, 0⟩)], lumi := [⟨1000, 0, 0, 1, 0⟩] } }

/-- P1, CPOS 16. -/
theorem test_rddig :
    ∃ t, step (finished [0x06000000#32, 0#32]) = .next t ∧
      t.resp = [0xC0000005, 0x00001000, 1, 0, 0, 0, 0, 0] := ⟨_, rfl, by decide⟩

/-- K16, K15: out of range, and outside DONE. -/
theorem test_rddig_zeros :
    (∃ t, step (finished [0x06000000#32, 5#32]) = .next t ∧ t.resp = List.replicate 8 0) ∧
    (∃ t, step { finished [0x06000000#32, 0#32] with engine := .active } = .next t ∧ t.resp = List.replicate 8 0) :=
  ⟨⟨_, rfl, by decide⟩, _, rfl, by decide⟩

/-- P3, CPOS 24. -/
theorem test_rdlumi :
    ∃ t, step (finished [0x07000000#32, 0#32]) = .next t ∧
      t.resp = [0x80000000, 0x000003E8, 0, 0, 1, 0] := ⟨_, rfl, by decide⟩

/-- K15: outside DONE. -/
theorem test_rdlumi_zeros :
    ∃ t, step { finished [0x07000000#32, 0#32] with engine := .idle } = .next t ∧ t.resp = List.replicate 6 0 :=
  ⟨_, rfl, by decide⟩

/-- K17: SRST in an open interval; the response pushed before it stays. -/
theorem test_srst :
    step { machine .active { CfgRegs.reset with digitsEn := true } [0x0F000000#32] with resp := [1], cpos := 9 } =
      .next { State.reset with resp := [1] } := by rfl

/-- I1, I8: STATUS 0x303, GERR 1, FATAL_CPOS 1; the word after the illegal header stays in the stream. -/
theorem test_illegal_word :
    (∃ t, step { machine .active .reset [0x08000000#32] with cpos := 1 } = .next t ∧ t.status = 0x303#32 ∧
      t.gerr = 1#4 ∧ t.fatalCpos = 1#32) ∧
    (∃ t, step { machine .active .reset [0x03050001#32, 0#32] with cpos := 1 } = .next t ∧ t.status = 0x303#32 ∧
      t.gerr = 1#4 ∧ t.fatalCpos = 1#32 ∧ t.input = [0#32]) :=
  ⟨⟨_, rfl, by decide⟩, _, rfl, by decide⟩

/-- A row's word placed with `withFetchWord` runs as the first command after reset. -/
theorem test_withFetchWord :
    step (State.reset.withFetchWord 64 0x6403040000) =
      .next { State.reset with cpos := 2, cfg := { CfgRegs.reset with offC := 0x64 } } := by rfl

/-! ## Every statement's hypotheses can be met -/

/-- Digits and luminosity on, N[IR] = 16, N[CL] = 13, pattern A is bit 0, pattern B is bit 1. -/
def exCfg : CfgRegs :=
  { CfgRegs.reset with
    digitsEn := true, lumiEn := true, npldIr := 16, npldCl := 13, lmaskA := ⟨1, 0, 0⟩, lmaskB := ⟨2, 0, 0⟩ }

/-- An open interval with nothing received. -/
def openS : State := machine .active exCfg []

/-- A packet of five bytes with HERR as given. -/
def exPkt (herr : Bool) : Instr := .pkt false herr 5#16 0x0100#16 7#16 9#32 2#32 [0x04030201#32, 5#32]

/-- Its words. -/
def exPktWords (herr : Bool) : List Word :=
  [if herr then 0x05020005#32 else 0x05000005#32, 0x00070100#32, 9#32, 2#32, 0x04030201#32, 5#32]

/-- A stream whose first command is not `j`. -/
theorem decodes_to_another {ws r : List Word} {i : Instr} (h : decode ws = .ok (i, r)) (j : Instr) (hi : i ≠ j) :
    ∀ rest, decode ws ≠ .ok (j, rest) := by
  intro rest h'
  rw [h] at h'
  cases h'
  exact hi rfl

/-- A stream with an illegal header. -/
theorem decodes_to_none {ws : List Word} {e : Reject} (h : decode ws = .error e) (j : Instr) :
    ∀ rest, decode ws ≠ .ok (j, rest) := by
  intro rest h'
  rw [h] at h'
  cases h'

/-- Both channels share what `∀ ch` says. -/
theorem forall_channel {P : Channel → Prop} (hi : P .ir) (hc : P .cl) : ∀ ch, P ch
  | .ir => hi
  | .cl => hc

theorem witness_DecodeEncodeRoundTrip : (exPkt true).wellFormed = true ∧ (exPkt false).wellFormed = true ∧
    (Instr.pkt true false 0#16 0#16 0#16 0#32 0#32 []).wellFormed = true := by decide

theorem witness_DecodedWordsAreTheEncoding :
    decode (exPktWords true ++ [0#32]) = .ok (exPkt true, [0#32]) := by rfl

theorem witness_IllegalHeaderWords :
    (∀ h ∈ [0x08000000#32, 0x0E000000#32, 0x10000000#32, 0xFF000000#32],
      decode [h, 7#32] = .error .unassignedOpcode) ∧
    (∀ h ∈ [0x00010000#32, 0x02000001#32, 0x0F000001#32, 0x03FF0001#32, 0x04FF8000#32, 0x05040000#32, 0x06010000#32,
        0x07000001#32], decode [h, 7#32] = .error .reservedField) ∧
    (openS.resetPin = false ∧ { openS with input := [0x08000000#32, 7#32] }.input = 0x08000000#32 :: [7#32]) := by
  simp only [List.forall_mem_cons]
  exact ⟨⟨rfl, rfl, rfl, rfl, by simp⟩, ⟨rfl, rfl, rfl, rfl, rfl, rfl, rfl, rfl, by simp⟩, by decide, by decide⟩

theorem witness_LengthFromHeaderWord :
    decode (0x0F000000#32 :: [7#32]) = .ok (.srst, [7#32]) ∧ decode (0x07000000#32 :: [7#32]) = .ok (.rdlumi 7#32, []) ∧
    decode (0x05000005#32 :: (exPktWords false).tail) = .ok (exPkt false, []) ∧
    decode (0x08000000#32 :: [7#32]) = .error .unassignedOpcode ∧
    decode (0x03050001#32 :: [7#32]) = .error .reservedField := ⟨rfl, rfl, rfl, rfl, rfl⟩

/-- A PKT header of the longest and of no payload, with its operand words and one word short; and a word of no row. -/
theorem witness_OpcodeTableRows :
    decode [0x05030000#32, 0#32, 0#32, 0#32] = .ok (.pkt true true 0#16 0#16 0#16 0#32 0#32 [], []) ∧
    0x03FF0000#32 &&& (opcodeRow (.csrw 0#8 0#32)).1 = (opcodeRow (.csrw 0#8 0#32)).2 ∧
    1 ≤ [7#32].length ∧ ([] : List Word).length < 1 ∧
    0x0503FFFF#32 &&& (opcodeRow (exPkt true)).1 = (opcodeRow (exPkt true)).2 ∧
    0x05000005#32 &&& (opcodeRow (exPkt true)).1 = (opcodeRow (exPkt true)).2 ∧
    3 + ((0x05000005#32).toNat % 2 ^ 16 + 3) / 4 ≤ (exPktWords false).tail.length ∧
    (exPktWords false).tail.dropLast.length < 3 + ((0x05000005#32).toNat % 2 ^ 16 + 3) / 4 ∧
    (∀ i, 0x08000000#32 &&& (opcodeRow i).1 ≠ (opcodeRow i).2) := by
  refine ⟨rfl, by decide, by decide, by decide, by decide, by decide, by simp [exPktWords], by simp [exPktWords],
    fun i => ?_⟩
  cases i <;> (simp only [opcodeRow]; decide)

theorem witness_StepRunsOneCommand : openS.resetPin = false ∧
    decode { openS with input := [0#32] }.input = .ok (.nop, []) ∧
    decode { openS with input := [0x08000000#32] }.input = .error .unassignedOpcode ∧
    decode { openS with input := [1#32] }.input = .error .reservedField ∧
    decode openS.input = .error .noHeader ∧ decode { openS with input := [0x06000000#32] }.input = .error .truncated :=
  ⟨rfl, rfl, rfl, rfl, rfl, rfl⟩

theorem witness_IllegalCommandEffect :
    ({ openS with input := [0x08000000#32] }.resetPin = false ∧
      decode { openS with input := [0x08000000#32] }.input = .error .unassignedOpcode ∧
      { openS with input := [0x08000000#32] }.engine = .active) ∧
    ((machine .idle .reset [1#32]).resetPin = false ∧
      decode (machine .idle .reset [1#32]).input = .error .reservedField ∧
      (machine .idle .reset [1#32]).engine ≠ .active) := ⟨⟨rfl, rfl, rfl⟩, rfl, rfl, by decide⟩

theorem witness_CutStreamIsStuck :
    openS.resetPin = false ∧ (exPkt true).wellFormed = true ∧
    ([] : List Word) <+: encode (exPkt true) ∧ [] ≠ encode (exPkt true) ∧ openS.input = [] ∧
    (exPktWords true).dropLast <+: encode (exPkt true) ∧ (exPktWords true).dropLast ≠ encode (exPkt true) ∧
    { openS with input := (exPktWords true).dropLast }.input = (exPktWords true).dropLast := by decide

theorem witness_WholeCommandCompletes :
    openS.resetPin = false ∧ (exPkt true).wellFormed = true ∧
    { openS with input := exPktWords true ++ [1#32] }.input = encode (exPkt true) ++ [1#32] := by decide

theorem witness_BothResets : { openS with resetPin := true }.resetPin = true := rfl

theorem witness_CposCountsConsumedWords :
    (∃ t, step { openS with input := [0x0F000000#32] } = .next t) ∧
    ∃ t, openS.resetPin = false ∧ step { openS with input := exPktWords false, cpos := 0xFFFFFFFE#32 } = .next t :=
  ⟨⟨_, rfl⟩, _, rfl, rfl⟩

/-- One step for each way in which STATE changes. -/
theorem witness_OnlyTheseChangeTheEngineState :
    ∀ s ∈ [{ openS with resetPin := true }, { openS with input := [0x0F000000#32] }, machine .idle exCfg [0x01000000#32],
        machine .done { exCfg with npldCl := 80 } [0x01000000#32], { openS with input := [0x02000000#32] },
        { openS with input := exPktWords true }, { openS with input := [0x08000000#32] }],
      ∃ t, step s = .next t ∧ t.engine ≠ s.engine := by
  simp only [List.forall_mem_cons]
  exact ⟨⟨_, rfl, by decide⟩, ⟨_, rfl, by decide⟩, ⟨_, rfl, by decide⟩, ⟨_, rfl, by decide⟩, ⟨_, rfl, by decide⟩,
    ⟨_, rfl, by decide⟩, ⟨_, rfl, by decide⟩, by simp⟩

/-- One step for each bit of GERR, and one that sets none. -/
theorem witness_CausesOfGlobalErrors :
    ∀ s ∈ [{ openS with input := [0x08000000#32] }, { openS with input := [0x01000000#32] },
        machine .done exCfg [0x02000000#32], machine .idle exCfg (exPktWords true),
        { openS with input := [0x030E0000#32, 1#32] }, { openS with input := [0x030F0000#32, 1#32] },
        { openS with input := [0x03000000#32, 1#32] }, { openS with input := [0x042D0000#32] },
        { openS with input := [0x042C0000#32] }],
      s.resetPin = false ∧ (∀ rest, decode s.input ≠ .ok (.srst, rest)) ∧ ∃ t, step s = .next t := by
  simp only [List.forall_mem_cons]
  exact ⟨⟨rfl, decodes_to_none rfl _, _, rfl⟩, ⟨rfl, decodes_to_another rfl _ (by decide), _, rfl⟩,
    ⟨rfl, decodes_to_another rfl _ (by decide), _, rfl⟩, ⟨rfl, decodes_to_another rfl _ (by decide), _, rfl⟩,
    ⟨rfl, decodes_to_another rfl _ (by decide), _, rfl⟩, ⟨rfl, decodes_to_another rfl _ (by decide), _, rfl⟩,
    ⟨rfl, decodes_to_another rfl _ (by decide), _, rfl⟩, ⟨rfl, decodes_to_another rfl _ (by decide), _, rfl⟩,
    ⟨rfl, decodes_to_another rfl _ (by decide), _, rfl⟩, by simp⟩

theorem witness_ConfigurationLockedWhileActive : openS.engine = .active ∧ csrClass 0x01#8 = .cfg ∧
    csrClass 0x0E#8 = .cfg ∧ csrClass 0x00#8 ≠ .cfg ∧ csrClass 0x0F#8 ≠ .cfg ∧ Instr.nop ≠ .srst ∧
    ∃ t, exec .nop openS = .next t := ⟨rfl, by decide, by decide, by decide, by decide, by decide, _, rfl⟩

theorem witness_ErrorBitsAreSticky :
    let s := { openS with input := [0x030E0000#32, 1#32], gerr := 8#4, ses := openS.ses.flag .dup }
    s.resetPin = false ∧ (∀ rest, decode s.input ≠ .ok (.srst, rest)) ∧
    (∀ rest, decode s.input ≠ .ok (.beginInterval, rest)) ∧ s.hasGflag .badcsr = true ∧ s.ses.hasFlag .dup = true ∧
    ∃ t, step s = .next t :=
  ⟨rfl, decodes_to_another rfl _ (by decide), decodes_to_another rfl _ (by decide), by decide, by decide, _, rfl⟩

theorem witness_ResponsesPerCommand : openS.resetPin = false ∧
    (∃ t, step { openS with input := [0x04000000#32] } = .next t) ∧
    (∃ t, step { openS with input := [0x06000000#32, 0#32] } = .next t) ∧
    (∃ t, step { openS with input := [0x07000000#32, 0#32] } = .next t) ∧
    ∃ t, step { openS with input := exPktWords false } = .next t :=
  ⟨rfl, ⟨_, rfl⟩, ⟨_, rfl⟩, ⟨_, rfl⟩, _, rfl⟩

/-- One command for each part that some command changes. -/
theorem witness_WritersOfEachPart :
    (∃ t, exec .endInterval openS = .next t ∧ t.engine ≠ openS.engine) ∧
    (∃ t, exec .beginInterval openS = .next t ∧ t.gerr ≠ openS.gerr) ∧
    (∃ t, exec (.csrw 0x04#8 1#32) (machine .idle exCfg []) = .next t ∧ t.cfg ≠ exCfg) ∧
    (∃ t, exec (exPkt false) openS = .next t ∧ t.ses ≠ openS.ses) ∧
    (∃ t, exec (exPkt true) openS = .next t ∧ t.fatalCause ≠ openS.fatalCause) ∧
    (∃ t, exec (.rdlumi 0#32) openS = .next t ∧ t.resp ≠ openS.resp) :=
  ⟨⟨_, rfl, by decide⟩, ⟨_, rfl, by decide⟩, ⟨_, rfl, by decide⟩, ⟨_, rfl, by decide⟩, ⟨_, rfl, by decide⟩, _, rfl,
    by decide⟩

/-- The three cases of BEGIN, and its accepted widths 13 and 79, its refused widths 12 and 80 and equal codes. -/
theorem witness_BeginEffect :
    let legal := fun (c : CfgRegs) => 13 ≤ c.npldIr.toNat ∧ c.npldIr.toNat ≤ 79 ∧ 13 ≤ c.npldCl.toNat ∧
      c.npldCl.toNat ≤ 79 ∧ c.irCode ≠ c.clCode
    openS.engine = .active ∧ (machine .idle exCfg []).engine ≠ .active ∧
    legal { exCfg with npldIr := 13, npldCl := 79 } ∧ legal { exCfg with npldIr := 79, npldCl := 13 } ∧
    ¬ legal { exCfg with npldIr := 12 } ∧ ¬ legal { exCfg with npldIr := 80 } ∧ ¬ legal { exCfg with npldCl := 12 } ∧
    ¬ legal { exCfg with npldCl := 80 } ∧ ¬ legal { exCfg with irCode := 1 } := by decide

/-- An open frame with a remnant; the buffer full or not, and luminosity off. -/
theorem witness_EndClosesInterval :
    m2.engine = .active ∧ (m2.cfg.lumiEn && m2.ses.ir.fopen) = true ∧
    m2.ses.lumi.length ≠ m2.params.lumiCap.toNat ∧
    { m2 with params := ⟨1024, 0⟩ }.ses.lumi.length = ({ m2 with params := ⟨1024, 0⟩ } : State).params.lumiCap.toNat ∧
    openS.engine = .active ∧ (openS.cfg.lumiEn && openS.ses.ir.fopen) = false := by decide

theorem witness_EndFlushesTheRecords : m2.engine = .active ∧ m2.cfg.digitsEn = true ∧ m2.ses.ir.remCnt ≠ 0 ∧
    openS.engine = .active ∧ openS.ses.cl.remCnt = 0 := by decide

theorem witness_IgnoredOrAborted :
    (machine .aborted exCfg []).engine = .aborted ∧ (machine .idle exCfg []).engine = .idle ∧
    (machine .done exCfg []).engine = .done ∧ openS.engine = .active ∧ true = true := by decide

theorem witness_PktNotProcessed :
    openS.engine = .active ∧ (0x0200#16).toNat / 2 ^ 8 % 2 ^ 4 ≠ openS.cfg.irCode.toNat ∧
    (0x0200#16).toNat / 2 ^ 8 % 2 ^ 4 ≠ openS.cfg.clCode.toNat ∧
    { openS with cfg := { exCfg with digitsEn := false } }.engine = .active ∧
    (0xF1FF#16).toNat / 2 ^ 8 % 2 ^ 4 ≠ exCfg.irCode.toNat ∧ (0xF1FF#16).toNat / 2 ^ 8 % 2 ^ 4 = exCfg.clCode.toNat ∧
    ({ exCfg with digitsEn := false } : CfgRegs).digitsEn = false := by decide

theorem openS_remnantInv : openS.RemnantInv :=
  ⟨forall_channel (by decide) (by decide), fun _ => ⟨by decide, forall_channel (by decide) (by decide)⟩⟩

/-- m2 holds a remnant, a padding format and an open frame. -/
theorem m2_remnantInv : m2.RemnantInv :=
  ⟨forall_channel (by decide) (by decide), fun _ => ⟨by decide, forall_channel (by decide) (by decide)⟩⟩

/-- Either channel's code, with every other bit of LINK_ID set or none; a frame start and a packet that is none; a PAD other than the latched one; a closed frame; a
trailing group of 1, 9 and 0 bytes. -/
theorem witness_PktProcessed :
    let code := fun (link : BitVec 16) => link.toNat / 2 ^ 8 % 2 ^ 4
    openS.engine = .active ∧ openS.RemnantInv ∧ [1#32, 2#32, 3#32].length = ((11#16).toNat + 3) / 4 ∧
    [1#32, 2#32, 3#32].length = ((9#16).toNat + 3) / 4 ∧ ([] : List Word).length = ((0#16).toNat + 3) / 4 ∧
    code 0x0000#16 = openS.cfg.irCode.toNat ∧ code 0xF0FF#16 = openS.cfg.irCode.toNat ∧
    code 0xF1FF#16 ≠ openS.cfg.irCode.toNat ∧ code 0xF1FF#16 = openS.cfg.clCode.toNat ∧ openS.cfg.digitsEn = true ∧
    ((2#32 &&& openS.cfg.fsMask) != 0#32 && 0#16 == 0#16) = true ∧
    ((2#32 &&& openS.cfg.fsMask) != 0#32 && 1#16 == 0#16) = false ∧ openS.ses.ir.fopen = false ∧
    m2.engine = .active ∧ m2.RemnantInv ∧ m2.ses.wLatched = true ∧ true ≠ m2.ses.w16 ∧
    code 0x0000#16 = m2.cfg.irCode.toNat ∧ 0 < (11#16).toNat % 10 ∧ (9#16).toNat % 10 < 10 :=
  ⟨by decide, openS_remnantInv, by decide, by decide, by decide, by decide, by decide, by decide, by decide, by decide,
    by decide, by decide, by decide, by decide, m2_remnantInv, by decide, by decide, by decide, by decide, by decide⟩

theorem witness_PacketIsItsChunksInOrder :
    m2.engine = .active ∧ m2.RemnantInv ∧ m2.cfg.chan 0x0000#16 = some .ir ∧ m2.cfg.chan 0x0100#16 = some .cl ∧
    m2.cfg.digitsEn = true := ⟨by decide, m2_remnantInv, by decide, by decide, by decide⟩

/-- The first and the last CFG register, and the indexes just outside. -/
theorem witness_CsrwEffect :
    (machine .idle exCfg []).engine ≠ .active ∧ (0x01#8, 3#32) ∈ cfgFieldMasks ∧ (0x0E#8, 0xFFFFFFFF#32) ∈ cfgFieldMasks ∧
    0x02#8 ≠ 0x01#8 ∧ 0x02#8 ≠ 0x14#8 ∧ (∀ mask, (0x00#8, mask) ∉ cfgFieldMasks) ∧
    (∀ mask, (0x0F#8, mask) ∉ cfgFieldMasks) := by
  refine ⟨by decide, by decide, by decide, by decide, by decide, ?_, ?_⟩ <;> simp [cfgFieldMasks]

/-- The assigned and unassigned indexes where the first two clauses meet, and the ends of the other two clauses' lists. -/
theorem witness_CsrrEffect :
    let un := fun (c : BitVec 8) => c.toNat = 0x0F ∨ 0x2C < c.toNat
    un 0x0F#8 ∧ un 0x2D#8 ∧ un 0xFF#8 ∧ ¬ un 0x00#8 ∧ ¬ un 0x0E#8 ∧ ¬ un 0x10#8 ∧ ¬ un 0x2C#8 ∧ ¬ un 0x11#8 ∧
    m2.readCsr 0x01#8 = some (BitVec.ofNat 32 (m2.cfg.digitsEn.toNat + 2 * m2.cfg.lumiEn.toNat)) ∧
    m2.readCsr 0x0E#8 = some (BitVec.ofNat 32 (m2.cfg.lmaskB.value.toNat / 2 ^ 64)) ∧
    m2.readCsr 0x11#8 = some (BitVec.ofNat 32 m2.ses.ierr.toNat) ∧
    m2.readCsr 0x2C#8 = some (BitVec.ofNat 32 m2.params.lumiCap.toNat) := by decide

/-- The last index in range, the first out of range, and a state other than DONE. -/
theorem witness_RddigEffect :
    (finished []).engine = .done ∧
    (finished []).ses.map[(0#32).toNat]? = some (⟨0x1000, 5⟩, ⟨true, 1, false, 0⟩) ∧
    (finished []).ses.map.length ≤ (1#32).toNat ∧ openS.engine ≠ .done := by decide

/-- Two digits of one orbit and one of the next. -/
def threeDigits : State :=
  { finished [] with
    ses := { sesAt 7 with
      map := [(⟨7, 5⟩, ⟨true, 1, false, 0⟩), (⟨7, 3563⟩, ⟨false, 0, true, 1⟩), (⟨8, 0⟩, ⟨true, 1, true, 1⟩)] } }

theorem witness_DigitsAreReadInOrder :
    threeDigits.engine = .done ∧ threeDigits.MapInv ∧ (0#32).toNat < (1#32).toNat ∧ (1#32).toNat < (2#32).toNat ∧
    (2#32).toNat < threeDigits.ses.map.length := by
  refine ⟨rfl, ⟨?_, by decide⟩, by decide, by decide, by decide⟩
  decide

theorem witness_RdlumiEffect :
    (finished []).engine = .done ∧ (finished []).ses.lumi[(0#32).toNat]? = some ⟨1000, 0, 0, 1, 0⟩ ∧
    (finished []).ses.lumi.length ≤ (1#32).toNat ∧ openS.engine ≠ .done := by decide

/-- One step for each cause. -/
theorem witness_AbortsArePrecise :
    ∀ s ∈ [{ openS with input := exPktWords true }, { openS with input := [0x08000000#32] },
        machine .idle { exCfg with npldIr := 12 } [0x01000000#32]],
      s.resetPin = false ∧ s.engine ≠ .aborted ∧ ∃ t, step s = .next t ∧ t.engine = .aborted := by
  simp only [List.forall_mem_cons]
  exact ⟨⟨rfl, by decide, _, rfl, rfl⟩, ⟨rfl, by decide, _, rfl, rfl⟩, ⟨rfl, by decide, _, rfl, by decide⟩, by simp⟩

/-- BEGIN, SRST and the hardware reset. -/
theorem witness_LeavingAborted :
    ∀ s ∈ [machine .aborted exCfg [0x01000000#32], machine .aborted exCfg [0x0F000000#32],
        { machine .aborted exCfg [] with resetPin := true }],
      s.engine = .aborted ∧ ∃ t, step s = .next t ∧ t.engine ≠ .aborted := by
  simp only [List.forall_mem_cons]
  exact ⟨⟨rfl, _, rfl, by decide⟩, ⟨rfl, _, rfl, by decide⟩, ⟨rfl, _, rfl, by decide⟩, by simp⟩

/-- The unused bytes of the last word differ; the last byte of the payload is the low byte of that word. -/
theorem witness_PayloadByteOrder :
    [0x04030201#32, 0x00000005#32].length = ((5#16).toNat + 3) / 4 ∧
    [0x04030201#32, 0xFFFFFF05#32].length = ((5#16).toNat + 3) / 4 ∧
    ∀ j, j < (5#16).toNat → ([0x04030201#32, 0x00000005#32].getD (j / 4) 0#32).toNat / 2 ^ (8 * (j % 4)) % 2 ^ 8 =
      ([0x04030201#32, 0xFFFFFF05#32].getD (j / 4) 0#32).toNat / 2 ^ (8 * (j % 4)) % 2 ^ 8 := by decide

theorem witness_AssembledWords : (10 = 10 ∨ 10 = 16) ∧ (16 = 10 ∨ 16 = 16) ∧ (0 : Nat) < 10 ∧ 9 < 10 := by decide

/-- The smallest and the largest width, with a remnant one bit short of a chunk. -/
theorem witness_UnpackCutsExactly :
    (13 ≤ 13 ∧ 13 ≤ 79 ∧ 12 < 13 ∧ 4095 < 2 ^ 12) ∧ (13 ≤ 79 ∧ 79 ≤ 79 ∧ 78 < 79 ∧ 2 ^ 78 - 1 < 2 ^ 78) ∧
    (0 < 13 ∧ 0 < 2 ^ 0) := by decide

theorem witness_StreamViewOfASpan : 13 ≤ 13 ∧ 79 ≤ 79 ∧ 0 < 80 * [0x1069#80].length / 60 := by decide

/-- B4 and, for the offset -1, B6. -/
theorem witness_BuildCorrectsTheKey :
    ((cfgOff 100 0 0).legal = true ∧ 10 < 3564 ∧ 1 ≠ 0 ∧ 1 < 2 ^ ((cfgOff 100 0 0).width .ir - 12) ∧
      ¬ ((0x1001#32).toNat ≤ (sesAt 0x1000).intervalOrbit.toNat ∧ (10 : Int) < 100) ∧
      ((sesAt 0x1000).intervalOrbit.toNat : Int) * 3564 ≤ (0x1001#32).toNat * 3564 + 10 - 100 ∧
      ((0x1001#32).toNat : Int) * 3564 + 10 - 100 < 2 ^ 32 * 3564) ∧
    ((cfgOff 0 0 0).legal = true ∧ 3563 < 3564 ∧ 1 < 2 ^ ((cfgOff 0 0 0).width .cl - 12) ∧
      ¬ ((5#32).toNat ≤ (sesAt 5).intervalOrbit.toNat ∧ (3563 : Int) < -1) ∧
      ((sesAt 5).intervalOrbit.toNat : Int) * 3564 ≤ (5#32).toNat * 3564 + 3563 - (-1) ∧
      ((5#32).toNat : Int) * 3564 + 3563 - (-1) < 2 ^ 32 * 3564) := by decide

/-- B7 with its empty payload, B8, B2, B10 and B9, B11. -/
theorem witness_BuildDropsAndRejects :
    (cfgOff 100 0 0).legal = true ∧ 4095 < 4096 ∧ (0 : Nat) = 0 ∧ 1 ≠ 0 ∧ 1 < 2 ^ ((cfgOff 100 0 0).width .ir - 12) ∧
    (cfgOff 0 0 0).legal = true ∧ 1 < 2 ^ ((cfgOff 0 0 0).width .cl - 12) ∧ 3564 ≤ 3564 ∧ 3563 < 3564 ∧
    ((0x1000#32).toNat ≤ (sesAt 0x1000).intervalOrbit.toNat ∧ (99 : Int) < 100) ∧
    ((99#32).toNat : Int) * 3564 + 200 - 100 < ((sesAt 100).intervalOrbit.toNat : Int) * 3564 ∧
    ¬ ((101#32).toNat ≤ (sesAt 100).intervalOrbit.toNat) ∧
    ((101#32).toNat : Int) * 3564 + 10 - 4000 < ((sesAt 100).intervalOrbit.toNat : Int) * 3564 ∧
    ¬ ((0xFFFFFFFF#32).toNat ≤ (sesAt 0).intervalOrbit.toNat ∧ (3563 : Int) < -1) ∧
    ¬ (((0xFFFFFFFF#32).toNat : Int) * 3564 + 3563 + 1 < ((sesAt 0).intervalOrbit.toNat : Int) * 3564) ∧
    2 ^ 32 * 3564 ≤ ((0xFFFFFFFF#32).toNat : Int) * 3564 + 3563 + 1 := by decide

/-- A key that is set, one whose other mask is set, and an absent one, in a map that is full or not. -/
theorem witness_MergeByLookups :
    SortedMap threeDigits.ses.map ∧
    lookupKey ⟨7, 5⟩ threeDigits.ses.map = some ⟨true, 1, false, 0⟩ ∧
    (⟨true, 1, false, 0⟩ : Entry).isSet .ir = true ∧ (⟨true, 1, false, 0⟩ : Entry).isSet .cl = false ∧
    lookupKey ⟨7, 6⟩ threeDigits.ses.map = none ∧ threeDigits.ses.map.length = (⟨3, 0⟩ : Params).mapCap.toNat ∧
    threeDigits.ses.map.length ≠ (⟨4, 0⟩ : Params).mapCap.toNat := by decide

/-- Different keys, and different channels of one key. -/
theorem witness_MergeOrderDoesNotMatter :
    SortedMap threeDigits.ses.map ∧ (⟨7, 6⟩ : Key) ≠ ⟨7, 4⟩ ∧ Channel.ir ≠ .cl ∧
    threeDigits.ses.map.length + 2 ≤ (⟨5, 0⟩ : Params).mapCap.toNat := by decide

/-- N[IR] = 16 has four payload bits: a hit of pattern A at bit 0, and none above the payload. -/
theorem witness_LumiCountsPatterns :
    exCfg.legal = true ∧
    (∃ i, i + 12 < exCfg.npldIr.toNat ∧ (0x1005 : Nat).testBit (i + 12) = true ∧ exCfg.lmaskA.value.getLsbD i = true) ∧
    ¬ (∃ i, i + 12 < exCfg.npldIr.toNat ∧ (0x1005 : Nat).testBit (i + 12) = true ∧
        exCfg.lmaskB.value.getLsbD i = true) ∧ IErrBit.dup ≠ .cntovf := by
  refine ⟨by decide, ⟨0, by decide⟩, ?_, by decide⟩
  rintro ⟨i, hi, h⟩
  have hi' : i < 4 := by
    change i + 12 < 16 at hi
    omega
  revert h
  clear hi
  revert i
  decide

/-- Two machines that differ in everything the statement lets differ. -/
theorem witness_LuminosityIgnoresDigitPath :
    let s := m2
    let s' := { m2 with
      cfg := { m2.cfg with digitsEn := false, offC := 100, lat1 := 1, lat2 := 2 }
      ses := { m2.ses with map := [], ir := { m2.ses.ir with rej := 5, dup := 6 } } }
    s.engine = .active ∧ s'.engine = .active ∧ s.cfg.chan 0x0000#16 = some .ir ∧
    s'.cfg = { s.cfg with
      digitsEn := s'.cfg.digitsEn, offC := s'.cfg.offC, lat1 := s'.cfg.lat1, lat2 := s'.cfg.lat2 } ∧
    s'.params.lumiCap = s.params.lumiCap ∧ (∃ r d, s'.ses.ir = { s.ses.ir with rej := r, dup := d }) ∧
    s'.ses.wLatched = s.ses.wLatched ∧ s'.ses.w16 = s.ses.w16 ∧ s'.ses.lcntA = s.ses.lcntA ∧
    s'.ses.lcntB = s.ses.lcntB ∧ s'.ses.lumi = s.ses.lumi ∧
    (∃ t, exec (.pkt false false 0#16 0#16 0#16 8#32 2#32 []) s = .next t) ∧
    (∃ t, exec (.pkt false false 0#16 0#16 0#16 8#32 2#32 []) s' = .next t) :=
  ⟨rfl, rfl, by decide, rfl, rfl, ⟨5, 6, rfl⟩, rfl, rfl, rfl, rfl, rfl, ⟨_, rfl⟩, _, rfl⟩

theorem witness_FrameStartForgetsRemnant :
    openS.engine = .active ∧ openS.cfg.chan 0x0000#16 = some .ir ∧ openS.cfg.chan 0x0100#16 = some .cl ∧
    openS.cfg.digitsEn = true ∧ (2#32 &&& openS.cfg.fsMask) ≠ 0#32 ∧ (0#16 : BitVec 16) = 0#16 := by decide

/-- No frame open, an open frame with room, and one without. -/
theorem witness_FrameStartEmitsSample :
    (openS.engine = .active ∧ openS.cfg.chan 0x0000#16 = some .ir ∧ (0x800#32 &&& openS.cfg.fsMask) ≠ 0#32 ∧
      (openS.cfg.lumiEn && openS.ses.ir.fopen) = false) ∧
    (m2.engine = .active ∧ m2.cfg.chan 0x0000#16 = some .ir ∧ (0x800#32 &&& m2.cfg.fsMask) ≠ 0#32 ∧
      (m2.cfg.lumiEn && m2.ses.ir.fopen) = true ∧ m2.ses.lumi.length ≠ m2.params.lumiCap.toNat) ∧
    { m2 with params := ⟨0, 0⟩ }.ses.lumi.length = (⟨0, 0⟩ : Params).lumiCap.toNat := by decide

/-- A packet of either channel that makes a digit; m2 has an entry for the other clause. -/
theorem witness_ChannelsAreIsolated :
    m2.cfg.chan 0x0000#16 = some .ir ∧ Channel.cl ≠ .ir ∧ m2.cfg.chan 0x0100#16 = some .cl ∧ Channel.ir ≠ .cl ∧
    lookupKey ⟨7, 20⟩ m2.ses.map = some ⟨true, 3, false, 0⟩ ∧
    (∃ t, exec (.pkt false false 0#16 0#16 0#16 8#32 2#32 []) m2 = .next t ∧
      lookupKey ⟨7, 20⟩ t.ses.map = some ⟨true, 3, false, 0⟩) ∧
    ∃ t, exec (.pkt false false 0#16 0x0100#16 0#16 8#32 2#32 []) m2 = .next t :=
  ⟨by decide, by decide, by decide, by decide, by decide, ⟨_, rfl, by decide⟩, _, rfl⟩

theorem witness_DigitsOffLeavesNoTrace :
    let s := { m2 with cfg := { m2.cfg with digitsEn := false } }
    s.engine = .active ∧ s.cfg.digitsEn = false ∧ Instr.endInterval ≠ .srst ∧ ∃ t, exec .endInterval s = .next t :=
  ⟨rfl, rfl, by decide, _, rfl⟩

theorem witness_LumiOffLeavesNoTrace :
    let s := { openS with cfg := { exCfg with lumiEn := false } }
    (s.engine = .active ∧ s.cfg.lumiEn = false ∧ Instr.endInterval ≠ .srst ∧ s.ses.lcntA = 0#32 ∧ s.ses.lcntB = 0#32 ∧
      ∃ t, exec .endInterval s = .next t) ∧
    (m2.engine = .active ∧ m2.cfg.chan 0x0100#16 = some .cl ∧
      ∃ t, exec (.pkt false false 0#16 0x0100#16 0#16 8#32 2#32 []) m2 = .next t) :=
  ⟨⟨rfl, rfl, by decide, rfl, rfl, _, rfl⟩, rfl, by decide, _, rfl⟩

theorem witness_PktcChunksComeBack :
    13 ≤ 13 ∧ 13 ≤ 79 ∧ 79 ≤ 79 ∧ (∀ c ∈ [0, 2 ^ 13 - 1], c < 2 ^ 13) ∧ (∀ c ∈ [2 ^ 79 - 1], c < 2 ^ 79) := by decide

/-- Two digits, the first at the lowest bc that the offset admits at the interval's start, the second at bc 3563. -/
theorem witness_DigitsSurviveTheRoundTrip :
    let s := { openS with cfg := { exCfg with offC := 100, lumiEn := false } }
    let digits : List (Nat × Nat) := [(100, 1), (3563, 15)]
    s.engine = .active ∧ s.RemnantInv ∧ s.cfg.digitsEn = true ∧ s.cfg.chan 0x0000#16 = some .ir ∧
    (2#32 &&& s.cfg.fsMask) ≠ 0#32 ∧ (s.ses.wLatched = true → s.ses.w16 = true) ∧ s.ses.map = [] ∧
    (pktcData true s.cfg.npldIr.toNat (digits.map fun d => d.2 * 2 ^ 12 + d.1)).length < 2 ^ 16 ∧
    digits.length ≤ s.params.mapCap.toNat ∧ digits.Pairwise (fun a b => a.1 < b.1) ∧
    (∀ d ∈ digits, d.1 < 3564 ∧ d.2 ≠ 0 ∧ d.2 < 2 ^ (s.cfg.npldIr.toNat - 12) ∧
      (if s.ses.ioLatched then s.ses.intervalOrbit.toNat else (7#32).toNat) * 3564 + s.cfg.offC.toNat ≤
        (7#32).toNat * 3564 + d.1) ∧
    s.cfg.lumiEn = false := by
  refine ⟨rfl, ⟨forall_channel (by decide) (by decide), fun _ => ⟨by decide, forall_channel (by decide) (by decide)⟩⟩,
    rfl, by decide, by decide, by decide, rfl, by decide, by decide, by decide, by decide, rfl⟩

/-! The invariants hold in an open interval with a remnant, a digit and counts, and in a finished one; each steps. -/

theorem witness_StepKeepsRemnantInv : m2.RemnantInv ∧ ∃ t, step m2 = .next t := ⟨m2_remnantInv, _, rfl⟩

theorem witness_StepKeepsMapInv : (m2.MapInv ∧ m2.EntryInv) ∧ ∃ t, step m2 = .next t := by
  refine ⟨⟨⟨by decide, by decide⟩, ?_⟩, _, rfl⟩
  simp [State.EntryInv, Entry.WellSet, m2]

theorem witness_StepKeepsMaskWidthInv : m2.MaskWidthInv ∧ ∃ t, step m2 = .next t := by
  refine ⟨fun _ => ⟨by decide, ?_⟩, _, rfl⟩
  decide

theorem witness_StepKeepsIntervalInv : m2.IntervalInv ∧ ∃ t, step m2 = .next t := by
  refine ⟨⟨?_, by decide⟩, _, rfl⟩
  intro h
  cases h

theorem witness_StepKeepsLumiInv :
    (finished [0#32]).LumiInv ∧ ∃ t, step (finished [0#32]) = .next t := ⟨⟨by decide, by decide⟩, _, rfl⟩

theorem witness_StepKeepsGateInv :
    let s := { openS with cfg := { exCfg with digitsEn := false, lumiEn := false }, input := exPktWords false }
    s.GateInv ∧ ∃ t, step s = .next t :=
  ⟨fun _ => ⟨fun _ => ⟨rfl, rfl, rfl, rfl⟩, fun _ => ⟨rfl, rfl, rfl⟩⟩, _, rfl⟩

theorem witness_StepKeepsLifecycleInv :
    (m2.AbortInv ∧ m2.BoundaryInv) ∧ ((finished [0#32]).AbortInv ∧ (finished [0#32]).BoundaryInv) ∧
    (∃ t, step m2 = .next t) ∧ ∃ t, step (finished [0#32]) = .next t :=
  ⟨⟨⟨by decide, by decide⟩, by decide, fun h => by cases h⟩,
    ⟨⟨by decide, by decide⟩, by decide, fun _ => forall_channel (by decide) (by decide)⟩, ⟨_, rfl⟩, _, rfl⟩

end Sys2Proof.Tests
end

section
/-! PROOFS of the state's statements (10_state.md). First the three general shapes of an invariant, each proved once:
of the two outputs, of the session alone, and of an open interval alone. -/

namespace Sys2Proof.Machine

/-! ## Invariants by their shape -/

/-- A property of the two outputs, the digit map and the lumi buffer, is kept by the whole datapath where MERGE's two
writes of the map (R139) and LUMI_EMIT's append (R155) keep it: nothing else writes them. -/
theorem SessionClosed.ofOutputs {cfg : CfgRegs} {prm : Params} {Q : List (Key × Entry) → List LumiSample → Prop}
    (hfill : ∀ ch m l key e pay, Q m l → pay < 2 ^ (cfg.width ch - 12) → lookupKey key m = some e →
      e.isSet ch = false → Q (putKey key (e.fill ch pay) m) l)
    (hnew : ∀ ch m l key pay, Q m l → pay < 2 ^ (cfg.width ch - 12) → lookupKey key m = none →
      m.length ≠ prm.mapCap.toNat → Q (putKey key (Entry.empty.fill ch pay) m) l)
    (hemit : ∀ m l orbit a b, Q m l → l.length ≠ prm.lumiCap.toNat → Q m (l ++ [⟨orbit, 0#32, 0#32, a, b⟩])) :
    SessionClosed cfg prm (fun ses => Q ses.map ses.lumi) where
  flag _ _ _ h := h
  chunks ch _ :=
    { flag := fun _ _ _ _ h => h
      lcntA := fun _ _ ses h => by simpa using h
      lcntB := fun _ _ ses h => by simpa using h
      rej := fun _ ses h => by simpa using h
      dup := fun _ ses h => by simpa using h
      fillHalf := fun _ _ _ _ _ h hp hl hs => hfill ch _ _ _ _ _ h hp hl hs
      newKey := fun _ _ _ _ h hp hl hc _ => hnew ch _ _ _ _ h hp hl hc }
  unpacked _ _ ses _ h := by simpa using h
  noRemnant _ ses h := by simpa using h
  padding _ _ _ h := h
  startOrbit _ _ _ h := h
  openFrame _ _ ses _ h := by simpa using h
  lastOrbit _ _ ses _ h := by simpa [Session.setLastOrbit] using h
  emit _ ses h := by
    rw [lumiEmit_map, lumiEmit_lumi]
    split
    · exact h
    · next hcap => exact hemit _ _ _ _ _ h hcap
  noCounts _ h := h
  unkCh ses h := by simpa using h

/-- An invariant of the session and the parameters alone needs to hold of the cleared session and to be kept by the
datapath: BEGIN and reset clear the session, PKT and END run the datapath on it, and nothing else writes it. -/
theorem StepClosed.ofSession {P : Params → Session → Prop} (hclear : ∀ prm, P prm Session.clear)
    (hclosed : ∀ cfg prm, SessionClosed cfg prm (P prm)) : StepClosed (fun s => P s.params s.ses) where
  reset s t _ hses _ _ _ _ := hses ▸ hclear t.params
  same s t hs _ _ hses hprm _ _ := by rwa [hses, hprm]
  config s t hs _ _ hses hprm _ _ := by rwa [hses, hprm]
  aborts s t hs _ _ _ hses hprm _ := by rwa [hses, hprm]
  begins s t _ _ _ hses _ _ _ := hses ▸ hclear t.params
  refuses s t _ _ hses _ _ := hses ▸ hclear t.params
  ends s t hs _ _ _ hses hprm _ _ := by
    rw [hses, hprm]; exact (hclosed _ _).endIntervalOps hs
  packet s t _ _ _ _ _ _ hs _ _ _ hses hprm _ _ := by
    rw [hses, hprm]; exact (hclosed _ _).pktDatapath _ _ _ _ _ _ hs

/-- An invariant of an open interval alone needs to hold of the session that BEGIN opens and to be kept by the
datapath: only BEGIN enters ACTIVE, and no CSRW changes the configuration there (R49). -/
theorem StepClosed.ofActive {P : CfgRegs → Session → Prop} (hclear : ∀ cfg, cfg.legal = true → P cfg Session.clear)
    (hclosed : ∀ cfg prm, SessionClosed cfg prm (P cfg)) :
    StepClosed (fun s => s.engine = .active → P s.cfg s.ses) where
  reset s t he _ _ _ _ _ := by simp [he]
  same s t hs he hcfg hses _ _ _ := by rwa [he, hcfg, hses]
  config s t _ hna he _ _ _ _ := fun ha => absurd (he ▸ ha) hna
  aborts s t _ _ he _ _ _ _ := by simp [he]
  begins s t _ hl _ hses _ _ _ := fun _ => hses ▸ hclear _ hl
  refuses s t _ he _ _ _ := by simp [he]
  ends s t _ _ he _ _ _ _ _ := by simp [he]
  packet s t _ _ _ _ _ _ hs ha _ hcfg hses _ _ _ := fun _ => by
    rw [hses, hcfg]; exact (hclosed _ _).pktDatapath _ _ _ _ _ _ (hs ha)

/-! ## The lumi buffer (R43) -/

/-- R43: a buffer within its capacity, its reserved fields 0. -/
def LumiOk (prm : Params) (l : List LumiSample) : Prop :=
  l.length ≤ prm.lumiCap.toNat ∧ ∀ x ∈ l, x.r1 = 0#32 ∧ x.r2 = 0#32

theorem LumiOk.append {prm : Params} {l : List LumiSample} (h : LumiOk prm l) (hcap : l.length ≠ prm.lumiCap.toNat)
    (orbit a b : Word) : LumiOk prm (l ++ [⟨orbit, 0#32, 0#32, a, b⟩]) := by
  obtain ⟨hlen, hres⟩ := h
  refine ⟨by rw [List.length_append, List.length_singleton]; omega, fun x hx => ?_⟩
  rcases List.mem_append.mp hx with hx | hx
  · exact hres x hx
  · rw [List.mem_singleton.mp hx]; exact ⟨rfl, rfl⟩

theorem lumiInv_stepClosed : StepClosed State.LumiInv :=
  StepClosed.ofSession (P := fun prm ses => LumiOk prm ses.lumi) (fun _ => ⟨Nat.zero_le _, by simp [Session.clear]⟩)
    fun _ prm => .ofOutputs (Q := fun _ l => LumiOk prm l) (fun _ _ _ _ _ _ h _ _ _ => h) (fun _ _ _ _ _ h _ _ _ => h)
      fun _ _ orbit a b h hcap => h.append hcap orbit a b

/-- Settles O57: only LUMI_EMIT appends a sample, below the capacity and with r1 = r2 = 0. -/
theorem stepKeepsLumiInv : Obligations.StepKeepsLumiInv := fun _ _ => lumiInv_stepClosed.keeps

/-! ## The digit map (R42, R142, R144) -/

theorem Entry.WellSet.fill {e : Entry} (h : e.WellSet) (ch : Channel) (pay : Nat) : (e.fill ch pay).WellSet := by
  obtain ⟨hi, hc, -⟩ := h
  cases ch
  · exact ⟨by simp [Entry.fill], hc, .inl rfl⟩
  · exact ⟨hi, by simp [Entry.fill], .inr rfl⟩

theorem Entry.wellSet_empty_fill (ch : Channel) (pay : Nat) : (Entry.empty.fill ch pay).WellSet := by
  cases ch <;> simp [Entry.WellSet, Entry.fill, Entry.empty]

/-- Writing an entry with a property keeps it over the whole map. -/
theorem forall_mem_putKey {R : Entry → Prop} {m : List (Key × Entry)} (h : ∀ p ∈ m, R p.2) (key : Key) {e : Entry}
    (he : R e) : ∀ p ∈ putKey key e m, R p.2 := by
  intro p hp
  rcases mem_putKey hp with rfl | hp
  · exact he
  · exact h p hp

/-- R42, R142, R144: a map as the digit map is kept: sorted, within the capacity, its entries well set. -/
def MapOk (prm : Params) (m : List (Key × Entry)) : Prop :=
  (SortedMap m ∧ m.length ≤ prm.mapCap.toNat) ∧ ∀ p ∈ m, p.2.WellSet

theorem MapOk.fillHalf {prm : Params} {m : List (Key × Entry)} (h : MapOk prm m) (ch : Channel) {key : Key}
    {e : Entry} (hl : lookupKey key m = some e) (pay : Nat) : MapOk prm (putKey key (e.fill ch pay) m) := by
  obtain ⟨⟨hsort, hlen⟩, hset⟩ := h
  exact ⟨⟨putKey_sorted hsort _ _, by rwa [length_putKey_present hsort hl]⟩,
    forall_mem_putKey hset key ((hset _ (lookupKey_mem hl)).fill ch pay)⟩

theorem MapOk.newKey {prm : Params} {m : List (Key × Entry)} (h : MapOk prm m) (ch : Channel) {key : Key}
    (hl : lookupKey key m = none) (hcap : m.length ≠ prm.mapCap.toNat) (pay : Nat) :
    MapOk prm (putKey key (Entry.empty.fill ch pay) m) := by
  obtain ⟨⟨hsort, hlen⟩, hset⟩ := h
  exact ⟨⟨putKey_sorted hsort _ _, by rw [length_putKey_absent hl]; omega⟩,
    forall_mem_putKey hset key (Entry.wellSet_empty_fill ch pay)⟩

theorem mapInv_stepClosed : StepClosed (fun s => s.MapInv ∧ s.EntryInv) :=
  StepClosed.ofSession (P := fun prm ses => MapOk prm ses.map)
    (fun _ => ⟨⟨List.Pairwise.nil, Nat.zero_le _⟩, by simp [Session.clear]⟩)
    fun _ prm => .ofOutputs (Q := fun m _ => MapOk prm m) (fun ch _ _ _ _ pay h _ hl _ => h.fillHalf ch hl pay)
      (fun ch _ _ _ pay h _ hl hcap => h.newKey ch hl hcap pay) (fun _ _ _ _ _ h _ => h)

/-- Settles O54: MERGE's two writes keep the order of the keys; the second adds a key only below MAP_CAP. -/
theorem stepKeepsMapInv : Obligations.StepKeepsMapInv := fun _ _ => mapInv_stepClosed.keeps

/-! ## The widths of the masks (R93) -/

/-- R93: both masks of an entry fit the payload widths. -/
def Entry.Fits (cfg : CfgRegs) (e : Entry) : Prop :=
  e.imask.toNat < 2 ^ (cfg.width .ir - 12) ∧ e.cmask.toNat < 2 ^ (cfg.width .cl - 12)

theorem Entry.Fits.fill {cfg : CfgRegs} {e : Entry} (h : e.Fits cfg) {ch : Channel} {pay : Nat}
    (hp : pay < 2 ^ (cfg.width ch - 12)) : (e.fill ch pay).Fits cfg := by
  have hpay : (BitVec.ofNat 96 pay).toNat < 2 ^ (cfg.width ch - 12) :=
    (BitVec.toNat_ofNat .. ▸ Nat.mod_le _ _ : (BitVec.ofNat 96 pay).toNat ≤ pay).trans_lt hp
  obtain ⟨hi, hc⟩ := h
  cases ch
  · exact ⟨hpay, hc⟩
  · exact ⟨hi, hpay⟩

theorem Entry.fits_empty (cfg : CfgRegs) : Entry.empty.Fits cfg := ⟨Nat.two_pow_pos _, Nat.two_pow_pos _⟩

/-- R93: the configuration is one that BEGIN accepts and every mask of the map fits it. -/
def MasksOk (cfg : CfgRegs) (m : List (Key × Entry)) : Prop := cfg.legal = true ∧ ∀ p ∈ m, p.2.Fits cfg

theorem maskWidthInv_stepClosed : StepClosed State.MaskWidthInv :=
  StepClosed.ofActive (P := fun cfg ses => MasksOk cfg ses.map) (fun _ hl => ⟨hl, by simp [Session.clear]⟩)
    fun cfg _ => .ofOutputs (Q := fun m _ => MasksOk cfg m)
      (fun _ _ _ key _ _ ⟨hl, hm⟩ hp hlook _ => ⟨hl, forall_mem_putKey hm key ((hm _ (lookupKey_mem hlook)).fill hp)⟩)
      (fun _ _ _ key _ ⟨hl, hm⟩ hp _ _ => ⟨hl, forall_mem_putKey hm key ((Entry.fits_empty cfg).fill hp)⟩)
      (fun _ _ _ _ _ h _ => h)

/-- Settles O55: MERGE writes a payload, and a payload fits its channel's payload width. -/
theorem stepKeepsMaskWidthInv : Obligations.StepKeepsMaskWidthInv := fun _ _ => maskWidthInv_stepClosed.keeps

end Sys2Proof.Machine
end

section
/-! PROOFS about the remnants and the lifecycle of an interval (R23, R35, R39, R123, R184). -/

namespace Sys2Proof.Machine

/-! ## The remnants (R39, R123) -/

/-- R39: no bit of the remnant stands at or above its count. -/
def ChanState.RemnantFits (c : ChanState) : Prop := c.remVal.toNat < 2 ^ c.remCnt.toNat

/-- R123: each channel's remnant fits its count and is shorter than the channel's chunks. -/
def RemnantsShort (cfg : CfgRegs) (ses : Session) : Prop :=
  ∀ ch, (ses.chan ch).RemnantFits ∧ (ses.chan ch).remCnt.toNat < cfg.width ch

/-- Writing a channel whose remnant is as good as asked keeps both remnants so. -/
theorem RemnantsShort.setChan {cfg : CfgRegs} {ses : Session} (h : RemnantsShort cfg ses) {ch : Channel}
    {c : ChanState} (hc : c.RemnantFits ∧ c.remCnt.toNat < cfg.width ch) : RemnantsShort cfg (ses.setChan ch c) := by
  intro ch'
  by_cases hch : ch' = ch
  · rwa [hch, Session.chan_setChan_same]
  · rw [Session.chan_setChan_other hch]; exact h ch'

theorem RemnantsShort.noteWrap {cfg : CfgRegs} {ses : Session} (h : RemnantsShort cfg ses) (c : Word) :
    RemnantsShort cfg (ses.noteWrap c) := by simpa [RemnantsShort] using h

/-- A remnant shorter than a legal chunk width fits the fields that hold it. -/
theorem RemnantsShort.setRemnant {cfg : CfgRegs} (hl : cfg.legal = true) {ses : Session} (h : RemnantsShort cfg ses)
    {ch : Channel} {val cnt : Nat} (hv : val < 2 ^ cnt) (hc : cnt < cfg.width ch) :
    RemnantsShort cfg (ses.setRemnant ch val cnt) := by
  have hw := (cfg.legal_width hl ch).2
  have hcnt : (BitVec.ofNat 7 cnt).toNat = cnt := by
    rw [BitVec.toNat_ofNat]; exact Nat.mod_eq_of_lt (by omega)
  have hval : (BitVec.ofNat 78 val).toNat ≤ val := by
    rw [BitVec.toNat_ofNat]; exact Nat.mod_le _ _
  refine h.setChan ⟨?_, ?_⟩
  · show (BitVec.ofNat 78 val).toNat < 2 ^ (BitVec.ofNat 7 cnt).toNat
    rw [hcnt]; exact hval.trans_lt hv
  · show (BitVec.ofNat 7 cnt).toNat < cfg.width ch
    rwa [hcnt]

theorem remnantFits_clear (ch : Channel) : (Session.clear.chan ch).RemnantFits := by
  cases ch <;> exact Nat.one_pos

theorem remnantsShort_clear {cfg : CfgRegs} (hl : cfg.legal = true) : RemnantsShort cfg Session.clear := by
  intro ch
  have hw := (cfg.legal_width hl ch).1
  have hpos : 0 < cfg.width ch := by omega
  refine ⟨remnantFits_clear ch, ?_⟩
  cases ch <;> exact hpos

/-- R123: UNPACK leaves short remnants, FRAME_START and FLUSH leave none, and nothing else writes them. -/
theorem remnantsShort_sessionClosed {cfg : CfgRegs} (hl : cfg.legal = true) (prm : Params) :
    SessionClosed cfg prm (RemnantsShort cfg) where
  flag _ _ ses h := by simpa [RemnantsShort] using h
  chunks ch _ :=
    { flag := fun _ _ _ ses h => by simpa [RemnantsShort] using h
      lcntA := fun _ _ ses h => by simpa [RemnantsShort] using h
      lcntB := fun _ _ ses h => by simpa [RemnantsShort] using h
      rej := fun _ ses h => (h.setChan (c := { ses.chan ch with rej := (ses.chan ch).rej + 1#32 }) (h ch)).noteWrap _
      dup := fun _ ses h => (h.setChan (c := { ses.chan ch with dup := (ses.chan ch).dup + 1#32 }) (h ch)).noteWrap _
      fillHalf := fun _ _ _ _ _ h _ _ _ => h
      newKey := fun _ _ _ _ h _ _ _ _ => h }
  unpacked ch _ ses w h := by
    have hN := (cfg.legal_width hl ch).1
    obtain ⟨hcnt, hval⟩ := unpack_remnant_lt (N := cfg.width ch) (by omega) (h ch).1 w
    exact h.setRemnant hl hval hcnt
  noRemnant ch ses h := by
    have hN := (cfg.legal_width hl ch).1
    exact h.setRemnant hl (by decide) (by omega)
  padding _ _ _ h := h
  startOrbit _ _ _ h := h
  openFrame ch _ ses _ h := h.setChan (h ch)
  lastOrbit ch _ ses _ h := h.setChan (h ch)
  emit _ ses h := by simpa [RemnantsShort] using h
  noCounts _ h := h
  unkCh ses h := by simpa [RemnantsShort] using h

theorem RemnantsShort.remnantInv {s : State} (h : RemnantsShort s.cfg s.ses) (hl : s.cfg.legal = true) :
    s.RemnantInv := ⟨fun ch => (h ch).1, fun _ => ⟨hl, fun ch => (h ch).2⟩⟩

theorem State.RemnantInv.short {s : State} (h : s.RemnantInv) (ha : s.engine = .active) :
    s.cfg.legal = true ∧ RemnantsShort s.cfg s.ses := by
  obtain ⟨hfit, hact⟩ := h
  obtain ⟨hl, hcnt⟩ := hact ha
  exact ⟨hl, fun ch => ⟨hfit ch, hcnt ch⟩⟩

/-- Outside an open interval only the first half of the remnant invariant says anything. -/
theorem remnantInv_of_not_active {s : State} (ha : s.engine ≠ .active) (hfit : ∀ ch, (s.ses.chan ch).RemnantFits) :
    s.RemnantInv := ⟨hfit, fun h => absurd h ha⟩

theorem remnantInv_stepClosed : StepClosed State.RemnantInv where
  reset s t he hses _ _ _ _ := remnantInv_of_not_active (by simp [he]) (hses ▸ remnantFits_clear)
  same s t hs he hcfg hses _ _ _ := by rwa [State.RemnantInv, he, hcfg, hses]
  config s t hs hna he hses _ _ _ := remnantInv_of_not_active (he ▸ hna) (hses ▸ hs.1)
  aborts s t hs _ he _ hses _ _ := remnantInv_of_not_active (by simp [he]) (hses ▸ hs.1)
  begins s t _ hl _ hses _ _ _ := (hses ▸ remnantsShort_clear hl : RemnantsShort t.cfg t.ses).remnantInv hl
  refuses s t _ he hses _ _ := remnantInv_of_not_active (by simp [he]) (hses ▸ remnantFits_clear)
  ends s t hs ha he _ hses _ _ _ := by
    obtain ⟨hl, hshort⟩ := hs.short ha
    refine remnantInv_of_not_active (by simp [he]) fun ch => ?_
    rw [hses]
    exact ((remnantsShort_sessionClosed hl s.params).endIntervalOps hshort ch).1
  packet s t _ _ _ _ _ _ hs ha _ hcfg hses _ _ _ := by
    obtain ⟨hl, hshort⟩ := hs.short ha
    refine RemnantsShort.remnantInv ?_ (hcfg ▸ hl)
    rw [hses, hcfg]
    exact (remnantsShort_sessionClosed hl s.params).pktDatapath _ _ _ _ _ _ hshort

/-- Settles O53: a packet's UNPACK leaves a short remnant in a legal configuration, which stays legal while the interval
is open, and END keeps what a packet keeps. -/
theorem stepKeepsRemnantInv : Obligations.StepKeepsRemnantInv := fun _ _ => remnantInv_stepClosed.keeps

/-! ## STATE, the recorded cause, the empty session and the empty remnants (R23, R35, R184) -/

/-- R184: END leaves no remnant. -/
theorem endIntervalOps_remCnt (cfg : CfgRegs) (prm : Params) (ses : Session) (ch : Channel) :
    ((endIntervalOps cfg prm ses).chan ch).remCnt = 0#7 := by
  have h := endIntervalOps_held cfg prm ses ch
  simp only [ChanState.held, Prod.mk.injEq] at h
  obtain ⟨-, -, -, -, hcnt⟩ := h
  exact hcnt

/-- A state with no cause recorded, and not ABORTED. -/
theorem abortInv_of_none {s : State} (he : s.engine ≠ .aborted) (hc : s.fatalCause = .none)
    (hp : s.fatalCpos = 0#32) : s.AbortInv := ⟨by simp [he, hc], fun _ => hp⟩

theorem abortInv_of_aborted {s : State} (he : s.engine = .aborted) (hc : s.fatalCause ≠ .none) : s.AbortInv :=
  ⟨by simp [he, hc], fun h => absurd h hc⟩

/-- An open interval has no cause recorded. -/
theorem State.AbortInv.none_of_active {s : State} (h : s.AbortInv) (ha : s.engine = .active) :
    s.fatalCause = .none ∧ s.fatalCpos = 0#32 := by
  obtain ⟨hiff, hcpos⟩ := h
  have hc : s.fatalCause = .none := by simpa [ha] using hiff
  exact ⟨hc, hcpos hc⟩

theorem boundaryInv_of_idle {s : State} (he : s.engine = .idle) (hs : s.ses = Session.clear) : s.BoundaryInv :=
  ⟨fun _ => hs, fun h => by simp [he] at h⟩

theorem boundaryInv_of_done {s : State} (he : s.engine = .done) (hs : ∀ ch, (s.ses.chan ch).remCnt = 0#7) :
    s.BoundaryInv := ⟨fun h => by simp [he] at h, fun _ => hs⟩

/-- The boundary invariant speaks of IDLE and DONE only. -/
theorem boundaryInv_of_inside {s : State} (he : s.engine = .active ∨ s.engine = .aborted) : s.BoundaryInv := by
  rcases he with he | he <;> exact ⟨fun h => by simp [he] at h, fun h => by simp [he] at h⟩

theorem lifecycleInv_stepClosed : StepClosed (fun s => s.AbortInv ∧ s.BoundaryInv) where
  reset s t he hses hc hp _ _ := ⟨abortInv_of_none (by simp [he]) hc hp, boundaryInv_of_idle he hses⟩
  same s t hs he _ hses _ hc hp := by rwa [State.AbortInv, State.BoundaryInv, he, hses, hc, hp]
  config s t hs _ he hses _ hc hp := by rwa [State.AbortInv, State.BoundaryInv, he, hses, hc, hp]
  aborts s t _ _ he _ _ _ hc := ⟨abortInv_of_aborted he hc, boundaryInv_of_inside (.inr he)⟩
  begins s t _ _ he _ _ hc hp := ⟨abortInv_of_none (by simp [he]) hc hp, boundaryInv_of_inside (.inl he)⟩
  refuses s t _ he _ _ hc := ⟨abortInv_of_aborted he hc, boundaryInv_of_inside (.inr he)⟩
  ends s t hs ha he _ hses _ hc hp := by
    obtain ⟨hnone, hcpos⟩ := hs.1.none_of_active ha
    exact ⟨abortInv_of_none (by simp [he]) (hc.trans hnone) (hp.trans hcpos),
      boundaryInv_of_done he fun ch => hses ▸ endIntervalOps_remCnt ..⟩
  packet s t _ _ _ _ _ _ hs ha he _ _ _ hc hp := by
    obtain ⟨hnone, hcpos⟩ := hs.1.none_of_active ha
    exact ⟨abortInv_of_none (by simp [he]) (hc.trans hnone) (hp.trans hcpos), boundaryInv_of_inside (.inl he)⟩

/-- Settles O59: an abort records its cause with STATE, BEGIN and reset clear both, and END leaves no remnant. -/
theorem stepKeepsLifecycleInv : Obligations.StepKeepsLifecycleInv := fun _ _ => lifecycleInv_stepClosed.keeps

end Sys2Proof.Machine
end

section
/-! PROOFS about the writers of each part of the state (R46, R49, R192, R203) and about what the registers read
(R32, R47, R232). -/

namespace Sys2Proof.Machine

/-! ## What an operation leaves alone -/

/-- Only a packet with HERR enters ABORTED (R185, R203). -/
theorem pktOp_engine (pad : Bool) (len link seq : BitVec 16) (orbit trig : Word) (data : List Word) (s : State) :
    (pktOp pad false len link seq orbit trig data s).engine = s.engine := by
  rcases pktOp_cases pad false len link seq orbit trig data s with ⟨_, he, _⟩ | ⟨_, _, h⟩ | ⟨_, h⟩ | ⟨_, h⟩
  · cases he
  all_goals simp [h]

theorem pktOp_fatal (pad : Bool) (len link seq : BitVec 16) (orbit trig : Word) (data : List Word) (s : State) :
    (pktOp pad false len link seq orbit trig data s).fatalCause = s.fatalCause ∧
      (pktOp pad false len link seq orbit trig data s).fatalCpos = s.fatalCpos := by
  rcases pktOp_cases pad false len link seq orbit trig data s with ⟨_, he, _⟩ | ⟨_, _, h⟩ | ⟨_, h⟩ | ⟨_, h⟩
  · cases he
  all_goals rw [h]; exact ⟨rfl, rfl⟩

/-- R49: in an open interval CSRW writes no configuration register. -/
theorem csrWrite_cfg_of_active (csr : BitVec 8) (v : Word) {s : State} (ha : s.engine = .active) :
    (csrWrite csr v s).cfg = s.cfg := by
  rcases csrWrite_cases csr v s with ⟨_, _, _, _, h⟩ | ⟨_, _, _, hna, _⟩ | ⟨_, h⟩
  · rw [h]; rfl
  · exact absurd ha hna
  · rw [h]; rfl

/-- R49: in an open interval CSRW of a configuration register does nothing but set GERR.CFGLOCK. -/
theorem csrWrite_of_active {csr : BitVec 8} (hcls : csrClass csr = .cfg) (v : Word) {s : State}
    (ha : s.engine = .active) : csrWrite csr v s = s.gflag .cfglock := by
  rcases csrWrite_cases csr v s with ⟨_, _, _, _, h⟩ | ⟨_, _, _, hna, _⟩ | ⟨hncls, _⟩
  · exact h
  · exact absurd ha hna
  · exact absurd hcls hncls

/-! ## The writers of each part of the state, command by command -/

theorem writers_of_engine {i : Instr} {s : State} (h : (execState i s).engine ≠ s.engine) :
    i = .beginInterval ∨ i = .endInterval ∨ i = .srst ∨
      ∃ pad len link seq orbit trig data, i = .pkt pad true len link seq orbit trig data := by
  cases i with
  | pkt pad herr len link seq orbit trig data =>
    cases herr
    · exact absurd (pktOp_engine pad len link seq orbit trig data s) h
    · simp
  | _ => simp [execState] at h ⊢

theorem writers_of_fatal {i : Instr} {s : State}
    (h : (execState i s).fatalCause ≠ s.fatalCause ∨ (execState i s).fatalCpos ≠ s.fatalCpos) :
    i = .beginInterval ∨ i = .srst ∨
      ∃ pad len link seq orbit trig data, i = .pkt pad true len link seq orbit trig data := by
  cases i with
  | pkt pad herr len link seq orbit trig data =>
    cases herr
    · obtain ⟨hc, hp⟩ := pktOp_fatal pad len link seq orbit trig data s
      exact absurd h (not_or.mpr ⟨not_not.mpr hc, not_not.mpr hp⟩)
    · simp
  | _ => simp [execState] at h ⊢

theorem writers_of_gerr {i : Instr} {s : State} (h : (execState i s).gerr ≠ s.gerr) :
    i = .beginInterval ∨ i = .endInterval ∨ i = .srst ∨ (∃ csr v, i = .csrw csr v) ∨ (∃ csr, i = .csrr csr) ∨
      ∃ pad herr len link seq orbit trig data, i = .pkt pad herr len link seq orbit trig data := by
  cases i <;> simp [execState] at h ⊢

theorem writers_of_cfg {i : Instr} {s : State} (h : (execState i s).cfg ≠ s.cfg) :
    i = .srst ∨ ∃ csr v, i = .csrw csr v := by
  cases i <;> simp [execState] at h ⊢

theorem writers_of_ses {i : Instr} {s : State} (h : (execState i s).ses ≠ s.ses) :
    i = .beginInterval ∨ i = .endInterval ∨ i = .srst ∨
      ∃ pad herr len link seq orbit trig data, i = .pkt pad herr len link seq orbit trig data := by
  cases i <;> simp [execState] at h ⊢

theorem writers_of_resp {i : Instr} {s : State} (h : (execState i s).resp ≠ s.resp) :
    (∃ csr, i = .csrr csr) ∨ (∃ idx, i = .rddig idx) ∨ ∃ idx, i = .rdlumi idx := by
  cases i <;> simp [execState] at h ⊢

/-- Settles O19: the writers of each part, one lemma per part, over the state that `exec` answers. -/
theorem writersOfEachPart : Obligations.WritersOfEachPart := by
  intro i s t h
  obtain rfl : execState i s = t := by simpa [exec_eq] using h
  refine ⟨writers_of_engine, ?_, writers_of_gerr, writers_of_cfg, writers_of_ses, writers_of_fatal, writers_of_resp,
    execState_params i s, execState_input i s, execState_resetPin i s⟩
  cases i
  case srst => rfl
  all_goals exact execState_cpos (by simp) s

/-- Settles O16: CSRW is the one command beside SRST that writes the configuration, and not while ACTIVE. -/
theorem configurationLockedWhileActive : Obligations.ConfigurationLockedWhileActive := by
  intro s ha
  refine ⟨fun csr v hcls => ?_, fun i t hi h => ?_⟩
  · rw [exec_eq, execState, csrWrite_of_active hcls v ha]
    rfl
  · obtain rfl : execState i s = t := by simpa [exec_eq] using h
    by_contra hne
    rcases writers_of_cfg hne with rfl | ⟨csr, v, rfl⟩
    · exact hi rfl
    · exact hne (csrWrite_cfg_of_active csr v ha)

/-! ## What the registers read -/

/-- Only the two capacity registers read anything but the engine's state (R46, R51). -/
theorem readCsr_withArgs (prm : Params) (words : List Word) (rst : Bool) (e : Engine) {idx : BitVec 8}
    (hm : idx ≠ 0x2B#8) (hl : idx ≠ 0x2C#8) :
    (e.withArgs prm words rst).readCsr idx = (e.withArgs ⟨0#32, 0#32⟩ [] false).readCsr idx := by
  unfold State.readCsr
  cases hr : csrAt idx with
  | none => rfl
  | some r =>
    cases r
    case mapCap => exact absurd (csrAt_eq_some hr) hm
    case lumiCap => exact absurd (csrAt_eq_some hr) hl
    all_goals rfl

/-- Settles O12: beside MAP_CAP and LUMI_CAP no register reads the parameters, so each other value is one number. -/
theorem registersAtReset : Obligations.RegistersAtReset := by
  refine ⟨rfl, fun prm words rst => ⟨?_, fun n hn => ?_⟩⟩
  · simp only [List.forall_mem_cons, List.not_mem_nil, false_implies, implies_true, and_true]
    refine ⟨?_, ?_, ?_, ?_, ?_, rfl, rfl⟩
    all_goals
      rw [readCsr_withArgs _ _ _ _ (by decide) (by decide)]
      decide
  · have hne : BitVec.ofNat 8 n ≠ 0x2B#8 ∧ BitVec.ofNat 8 n ≠ 0x2C#8 := by revert n; decide
    rw [readCsr_withArgs _ _ _ _ hne.1 hne.2]
    revert n
    decide

theorem toNat_append_eq_add {m n : Nat} (x : BitVec m) (y : BitVec n) :
    (x ++ y).toNat = x.toNat * 2 ^ n + y.toNat := by
  rw [BitVec.toNat_append, ← Nat.shiftLeft_add_eq_or_of_lt y.isLt, Nat.shiftLeft_eq]

/-- R32: STATUS as the sum of its fields, each at its place. -/
theorem State.status_toNat (s : State) : s.status.toNat =
    s.engine.code.toNat + 4 * s.ses.wLatched.toNat + 8 * s.ses.w16.toNat + 16 * s.ses.ioLatched.toNat +
      32 * s.ses.ir.fopen.toNat + 64 * s.ses.cl.fopen.toNat + 256 * s.fatalCause.code.toNat := by
  simp only [State.status, toNat_append_eq_add, BitVec.toNat_ofBool, BitVec.toNat_ofNat]
  ring

/-- R32: every field of STATUS at its bits, and 0 in the reserved ones. -/
theorem State.status_fields (s : State) :
    s.status.toNat % 4 = s.engine.code.toNat ∧ s.status.toNat / 4 % 2 = s.ses.wLatched.toNat ∧
    s.status.toNat / 8 % 2 = s.ses.w16.toNat ∧ s.status.toNat / 16 % 2 = s.ses.ioLatched.toNat ∧
    s.status.toNat / 32 % 2 = s.ses.ir.fopen.toNat ∧ s.status.toNat / 64 % 2 = s.ses.cl.fopen.toNat ∧
    s.status.toNat / 128 % 2 = 0 ∧ s.status.toNat / 256 % 16 = s.fatalCause.code.toNat ∧
    s.status.toNat / 4096 = 0 := by
  have hsum := s.status_toNat
  have hengine := s.engine.code.isLt
  have hcause := s.fatalCause.code.isLt
  have hw := s.ses.wLatched.toNat_le
  have hw16 := s.ses.w16.toNat_le
  have hio := s.ses.ioLatched.toNat_le
  have hir := s.ses.ir.fopen.toNat_le
  have hcl := s.ses.cl.fopen.toNat_le
  omega

/-- A sticky bit as the arithmetic of the register's number sees it. -/
theorem odd_div_two_pow_iff_getLsbD {w : Nat} (x : BitVec w) (i : Nat) :
    x.toNat / 2 ^ i % 2 = 1 ↔ x.getLsbD i = true := by
  rw [BitVec.getLsbD, Nat.testBit_eq_decide_div_mod_eq, decide_eq_true_eq]

/-- Settles O30: STATUS from its fields' sum, the error bits from the register's own bits. -/
theorem statusFields : Obligations.StatusFields := by
  refine ⟨by decide, fun s => ⟨rfl, ⟨s.status, rfl, ?_⟩, ⟨s.ses.ierr.setWidth 32, rfl, ?_⟩,
    s.gerr.setWidth 32, rfl, ?_⟩⟩
  · obtain ⟨hengine, hw, hw16, hio, hir, hcl, hres, hcause, hhigh⟩ := s.status_fields
    simp only [hengine, hw, hw16, hio, hir, hcl, hcause, Bool.toNat_eq_one, true_and]
    refine ⟨?_, hres, ?_, hhigh⟩
    · cases s.engine <;> rfl
    · cases s.fatalCause <;> rfl
  · rw [BitVec.toNat_setWidth_of_le (by decide)]
    refine ⟨Nat.div_eq_of_lt s.ses.ierr.isLt, fun p hp => ?_⟩
    have hidx : p.1 = p.2.index := by revert p; decide
    rw [hidx, odd_div_two_pow_iff_getLsbD, Session.hasFlag]
  · rw [BitVec.toNat_setWidth_of_le (by decide)]
    refine ⟨Nat.div_eq_of_lt s.gerr.isLt, fun p hp => ?_⟩
    have hidx : p.1 = p.2.index := by revert p; decide
    rw [hidx, odd_div_two_pow_iff_getLsbD, State.hasGflag]

end Sys2Proof.Machine
end

section
/-! PROOFS of the memory's statements (20_memory.md): the two channels (R74), the digit index space (R62) and the
packet payload (R64). -/

namespace Sys2Proof.Machine

/-! ## Isolation of the two channels (R74, R142) -/

/-- What a key's entry records for a channel; for an absent key, what the empty entry does. -/
def halfAt (ch : Channel) (k : Key) (m : List (Key × Entry)) : Bool × Bits96 :=
  let e := (lookupKey k m).getD Entry.empty
  (e.isSet ch, e.mask ch)

/-- R142: the map `m'` records for channel `ch` what `m` does, and has every key that `m` has. -/
def HalfKept (ch : Channel) (m m' : List (Key × Entry)) : Prop :=
  ∀ k, halfAt ch k m' = halfAt ch k m ∧ ((lookupKey k m).isSome → (lookupKey k m').isSome)

theorem HalfKept.refl (ch : Channel) (m : List (Key × Entry)) : HalfKept ch m m := fun _ => ⟨rfl, id⟩

/-- Filling the half of one channel at a key, in its entry or in a new one, keeps the half of the other. -/
theorem HalfKept.fill {ch ch' : Channel} (hc : ch' ≠ ch) {m m' : List (Key × Entry)} (h : HalfKept ch' m m')
    (key : Key) (pay : Nat) :
    HalfKept ch' m (putKey key (((lookupKey key m').getD Entry.empty).fill ch pay) m') := by
  intro k
  obtain ⟨hhalf, hkey⟩ := h k
  by_cases hk : k = key
  · subst hk
    refine ⟨?_, fun _ => by simp⟩
    rw [← hhalf]
    simp [halfAt, Entry.fill_isSet_other hc, Entry.fill_mask_other hc]
  · simpa only [halfAt, lookupKey_putKey_other hk] using ⟨hhalf, hkey⟩

/-- R142: the payload of one channel's packet keeps the halves of the other channel. -/
theorem halfKept_bodyClosed (cfg : CfgRegs) (prm : Params) {ch ch' : Channel} (hc : ch' ≠ ch)
    (m : List (Key × Entry)) : BodyClosed cfg prm ch (fun ses => HalfKept ch' m ses.map) where
  flag _ _ _ _ h := h
  lcntA _ _ ses h := by simpa using h
  lcntB _ _ ses h := by simpa using h
  rej _ ses h := by simpa using h
  dup _ ses h := by simpa using h
  fillHalf _ _ key e pay h _ hl _ := by simpa [hl] using h.fill hc key pay
  newKey _ _ key pay h _ hl _ _ := by simpa [hl] using h.fill hc key pay
  partialWord _ h := h
  unpacked ses _ h := by simpa using h

/-- R41, R43: the luminosity part of the session. -/
def Session.lumiPart (ses : Session) : Word × Word × List LumiSample := (ses.lcntA, ses.lcntB, ses.lumi)

/-- R74, R152: the payload of a class-record packet has no part in the luminosity. -/
theorem lumiPart_bodyClosed (cfg : CfgRegs) (prm : Params) (v : Word × Word × List LumiSample) :
    BodyClosed cfg prm .cl (fun ses => ses.lumiPart = v) where
  flag _ _ _ _ h := h
  lcntA hch := by cases hch
  lcntB hch := by cases hch
  rej _ ses h := by simpa [Session.lumiPart] using h
  dup _ ses h := by simpa [Session.lumiPart] using h
  fillHalf _ _ _ _ _ h _ _ _ := h
  newKey _ _ _ _ h _ _ _ _ := h
  partialWord _ h := h
  unpacked ses _ h := by simpa [Session.lumiPart] using h

section
variable (cfg : CfgRegs) (prm : Params) (seq : BitVec 16) (orbit trig : Word) (pad : Bool) (bytes : List Byte)
  (ses : Session)

/-- R166: only an interaction-record frame start emits a sample or clears the counts. -/
theorem packetHead_cl_lumiPart : (packetHead cfg prm .cl seq orbit trig pad ses).lumiPart = ses.lumiPart := by
  have hstart : ∀ x, (frameStart cfg prm .cl orbit x).lumiPart = x.lumiPart := fun x => by
    simp [frameStart, Session.lumiPart]
  have hstep : ∀ x, (frameStep cfg prm .cl seq orbit trig x).lumiPart = x.lumiPart := fun x => by
    unfold frameStep
    split
    · exact hstart x
    · split <;> rfl
  calc (packetHead cfg prm .cl seq orbit trig pad ses).lumiPart
      = (latchOrbit orbit (latchPadding pad ses)).lumiPart := hstep _
    _ = ses.lumiPart := by simp [Session.lumiPart]

theorem processPacket_cl_lumiPart : (processPacket cfg prm .cl seq orbit trig pad bytes ses).lumiPart = ses.lumiPart :=
  (lumiPart_bodyClosed cfg prm _).packetBody orbit bytes (packetHead_cl_lumiPart cfg prm seq orbit trig pad ses)

theorem processPacket_chan_other {ch ch' : Channel} (hc : ch' ≠ ch) :
    (processPacket cfg prm ch seq orbit trig pad bytes ses).chan ch' = ses.chan ch' := by
  rw [processPacket, packetBody_chan_other _ _ _ _ _ _ hc, packetHead_chan_other _ _ _ _ _ _ _ _ hc]

theorem processPacket_halfKept {ch ch' : Channel} (hc : ch' ≠ ch) :
    HalfKept ch' ses.map (processPacket cfg prm ch seq orbit trig pad bytes ses).map :=
  (halfKept_bodyClosed cfg prm hc ses.map).packetBody orbit bytes
    (by rw [packetHead_map]; exact HalfKept.refl ch' ses.map)

end

/-- R161, R173, R185: a packet of a recognized channel leaves the session alone or is processed on its channel. -/
theorem exec_pkt_ses {pad herr : Bool} {len link seq : BitVec 16} {orbit trig : Word} {data : List Word} {s t : State}
    {ch : Channel} (hch : s.cfg.chan link = some ch)
    (h : exec (.pkt pad herr len link seq orbit trig data) s = .next t) :
    t.ses = s.ses ∨
      t.ses = processPacket s.cfg s.params ch seq orbit trig pad (payloadBytes len data) s.ses := by
  rw [exec_eq] at h
  injection h with h
  subst h
  rcases pktOp_cases pad herr len link seq orbit trig data s with
    ⟨_, _, h⟩ | ⟨_, _, h⟩ | ⟨_, h⟩ | ⟨_, h⟩ <;> simp only [execState, h]
  · exact .inl rfl
  · cases ch with
    | ir => exact .inr (by simp [pktDatapath, hch])
    | cl =>
      cases hd : s.cfg.digitsEn
      · exact .inl (by simp [pktDatapath, hch, hd])
      · exact .inr (by simp [pktDatapath, hch, hd])
  · exact .inl rfl
  · exact .inl rfl

/-- The halves of a channel, as the lookups of an entry and of an absent key show them. -/
theorem HalfKept.of_lookup {ch : Channel} {m m' : List (Key × Entry)} (h : HalfKept ch m m') {k : Key} {e' : Entry}
    (he' : lookupKey k m' = some e') :
    (∃ e, lookupKey k m = some e ∧ e'.isSet ch = e.isSet ch ∧ e'.mask ch = e.mask ch) ∨
      (lookupKey k m = none ∧ e'.isSet ch = false ∧ e'.mask ch = 0#96) := by
  have hhalf := (h k).1
  simp only [halfAt, he', Option.getD_some, Prod.mk.injEq] at hhalf
  cases hm : lookupKey k m with
  | some e => exact .inl ⟨e, rfl, by simpa [hm] using hhalf⟩
  | none =>
    rw [hm] at hhalf
    refine .inr ⟨rfl, ?_⟩
    cases ch <;> exact hhalf

/-- Settles O48: a packet either leaves the session alone or is processed on its own channel, whose writes keep the
other channel's state and halves, and on the class-record channel the luminosity. -/
theorem channelsAreIsolated : Obligations.ChannelsAreIsolated := by
  intro pad herr len link seq orbit trig data s t ch ch' hch hc h
  have hkept : t.ses.chan ch' = s.ses.chan ch' ∧ HalfKept ch' s.ses.map t.ses.map ∧
      (ch = .cl → t.ses.lumiPart = s.ses.lumiPart) := by
    rcases exec_pkt_ses hch h with hses | hses <;> rw [hses]
    · exact ⟨rfl, HalfKept.refl _ _, fun _ => rfl⟩
    · refine ⟨processPacket_chan_other _ _ _ _ _ _ _ _ hc, processPacket_halfKept _ _ _ _ _ _ _ _ hc, ?_⟩
      rintro rfl
      exact processPacket_cl_lumiPart _ _ _ _ _ _ _ _
  obtain ⟨hchan, hhalf, hlumi⟩ := hkept
  refine ⟨hchan, fun k e' he' => hhalf.of_lookup he', fun k e he => ?_, fun hcl => ?_⟩
  · exact Option.isSome_iff_exists.mp ((hhalf k).2 (by rw [he]; rfl))
  · simpa [Session.lumiPart] using hlumi hcl

/-! ## The digit index space (R62, R93) -/

/-- R42: the order of keys, orbit first. -/
theorem Key.lt_iff (a b : Key) : a.lt b = true ↔
    a.orbit.toNat < b.orbit.toNat ∨ (a.orbit = b.orbit ∧ a.bc.val < b.bc.val) := by
  simp only [Key.lt, BitVec.ult_eq_decide, Bool.or_eq_true, Bool.and_eq_true, decide_eq_true_eq, beq_iff_eq,
    Fin.lt_def]

/-- R93: the first word of a valid response, as the sum of its fields. -/
theorem digitHeader_toNat (k : Key) (e : Entry) :
    (1#1 ++ BitVec.ofBool e.iset ++ BitVec.ofBool e.cset ++ 0#17 ++ BitVec.ofNat 12 k.bc.val).toNat =
      2 ^ 31 + 2 ^ 30 * e.iset.toNat + 2 ^ 29 * e.cset.toNat + k.bc.val := by
  have hbc : k.bc.val % 2 ^ 12 = k.bc.val := Nat.mod_eq_of_lt (k.bc.isLt.trans (by decide))
  simp only [toNat_append_eq_add, BitVec.toNat_ofBool, BitVec.toNat_ofNat, hbc]
  ring

/-- R93: a valid response has VALID at bit 31 of its first word and the key's bc in the low twelve bits; its second
word is the key's orbit. -/
theorem digitWords_eq (k : Key) (e : Entry) : ∃ w ws, digitWords k e = w :: k.orbit :: ws ∧
    2 ^ 31 ≤ w.toNat ∧ w.toNat % 2 ^ 12 = k.bc.val := by
  refine ⟨_, _, rfl, ?_⟩
  have hbc := k.bc.isLt
  rw [digitHeader_toNat]
  omega

/-- R188: what RDDIG of an index of DONE's map answers. -/
theorem exec_rddig_of_done {s : State} (hd : s.engine = .done) {i : Word} (hi : i.toNat < s.ses.map.length) :
    exec (.rddig i) s =
      .next ((s.respPush (digitWords s.ses.map[i.toNat].1 s.ses.map[i.toNat].2)).retire 2) := by
  have hresp : digitResponse i s = digitWords s.ses.map[i.toNat].1 s.ses.map[i.toNat].2 := by
    simp [digitResponse, hd, List.getElem?_eq_getElem hi]
  rw [exec_eq, execState, hresp]

/-- Settles O32: the response words show the key at the index, and the map holds its keys in strictly rising order. -/
theorem digitsAreReadInOrder : Obligations.DigitsAreReadInOrder := by
  rintro s i j hd ⟨hsorted, hcap⟩ hij hj
  have hi : i.toNat < s.ses.map.length := by omega
  obtain ⟨w, ws, hw, hvalid, hbc⟩ := digitWords_eq s.ses.map[i.toNat].1 s.ses.map[i.toNat].2
  obtain ⟨w', ws', hw', hvalid', hbc'⟩ := digitWords_eq s.ses.map[j.toNat].1 s.ses.map[j.toNat].2
  refine ⟨rfl, hcap, _, _, w, _, w', _, ws, ws', exec_rddig_of_done hd hi, exec_rddig_of_done hd hj,
    by rw [← hw]; rfl, by rw [← hw']; rfl, hvalid, hvalid', ?_⟩
  rw [hbc, hbc', ← Key.lt_iff]
  exact List.pairwise_iff_getElem.mp hsorted i.toNat j.toNat hi hj hij

/-! ## The payload bytes (R64) -/

theorem wordBytes_getD (w : Word) {j : Nat} (hj : j < 4) :
    ((wordBytes w).getD j 0#8).toNat = w.toNat / 2 ^ (8 * j) % 2 ^ 8 := by
  have hcases : j = 0 ∨ j = 1 ∨ j = 2 ∨ j = 3 := by omega
  rcases hcases with rfl | rfl | rfl | rfl <;> simp [wordBytes, Nat.shiftRight_eq_div_pow]

theorem length_flatMap_wordBytes (data : List Word) : (data.flatMap wordBytes).length = 4 * data.length := by
  induction data with
  | nil => rfl
  | cons w ws ih => simp [wordBytes, ih]; omega

/-- R64: byte `j` of the data words, four to a word; past the last word both sides are 0. -/
theorem flatMap_wordBytes_getD (data : List Word) (j : Nat) :
    ((data.flatMap wordBytes).getD j 0#8).toNat = (data.getD (j / 4) 0#32).toNat / 2 ^ (8 * (j % 4)) % 2 ^ 8 := by
  induction data generalizing j with
  | nil => simp
  | cons w ws ih =>
    rw [List.flatMap_cons]
    by_cases hj : j < 4
    · rw [List.getD_append _ _ _ _ (by simpa [wordBytes] using hj), wordBytes_getD w hj, Nat.mod_eq_of_lt hj,
        Nat.div_eq_of_lt hj, List.getD_cons_zero]
    · obtain ⟨i, rfl⟩ : ∃ i, j = i + 4 := ⟨j - 4, by omega⟩
      rw [List.getD_append_right _ _ _ _ (by simp [wordBytes]), show i + 4 - (wordBytes w).length = i from rfl, ih,
        Nat.add_mod_right, Nat.add_div_right i (by decide), List.getD_cons_succ]

section
variable {len : BitVec 16} {data : List Word}

theorem payloadBytes_length (hl : data.length = (len.toNat + 3) / 4) : (payloadBytes len data).length = len.toNat := by
  rw [payloadBytes, List.length_take, length_flatMap_wordBytes]
  omega

theorem payloadBytes_getD {j : Nat} (hj : j < len.toNat) :
    ((payloadBytes len data).getD j 0#8).toNat = (data.getD (j / 4) 0#32).toNat / 2 ^ (8 * (j % 4)) % 2 ^ 8 := by
  rw [← flatMap_wordBytes_getD, payloadBytes, List.getD_eq_getElem?_getD, List.getElem?_take_of_lt hj,
    List.getD_eq_getElem?_getD]

/-- R185: PKT sees its data words only through the payload bytes. -/
theorem exec_pkt_congr {data' : List Word} (hb : payloadBytes len data = payloadBytes len data') (pad herr : Bool)
    (link seq : BitVec 16) (orbit trig : Word) (s : State) :
    exec (.pkt pad herr len link seq orbit trig data) s = exec (.pkt pad herr len link seq orbit trig data') s := by
  simp only [exec_eq, execState, pktOp, hb]

end

/-- Settles O36: the bytes' places by induction over the data words, and their irrelevance because two payloads of one
length with the same bytes are one payload. -/
theorem payloadByteOrder : Obligations.PayloadByteOrder := by
  intro len data hl
  refine ⟨payloadBytes_length hl, fun j hj => payloadBytes_getD hj, ?_⟩
  intro data' hl' hbytes pad herr link seq orbit trig s
  refine exec_pkt_congr ?_ pad herr link seq orbit trig s
  refine List.ext_getElem ((payloadBytes_length hl).trans (payloadBytes_length hl').symm) fun j hj hj' => ?_
  have hlen : j < len.toNat := payloadBytes_length hl ▸ hj
  rw [← List.getD_eq_getElem _ 0#8 hj, ← List.getD_eq_getElem _ 0#8 hj', ← BitVec.toNat_inj,
    payloadBytes_getD hlen, payloadBytes_getD hlen, hbytes j hlen]

end Sys2Proof.Machine
end


section
/-! PROOFS of the encoding's statements (30_encoding.md), first part: the decoder, the encoder and the opcode table. -/

namespace Sys2Proof

/-! ## Which header words are legal (R89) -/

/-- R89: the legal header words, by the class of their format. -/
theorem headerLegal_iff (h : Word) : headerLegal h = true ↔
    ((hdrOpc h).toNat ∈ [0, 1, 2, 15, 6, 7] ∧ hdrA h = 0#8 ∧ hdrB h = 0#16) ∨
    ((hdrOpc h).toNat ∈ [3, 4] ∧ hdrB h = 0#16) ∨
    ((hdrOpc h).toNat = 5 ∧ (hdrA h).extractLsb' 2 6 = 0#6) := by
  unfold headerLegal
  split <;> simp_all

/-- R89: an illegal header word is rejected as such, whatever follows it. -/
theorem decode_of_not_legal {h : Word} (hl : headerLegal h = false) (rest : List Word) :
    decode (h :: rest) = .error .unassignedOpcode ∨ decode (h :: rest) = .error .reservedField := by
  unfold headerLegal at hl
  rw [decode_cons]
  split <;> simp_all [decodeZ, decodeI, decodeC1, decodeC2, decodeP]

/-! ## What a legal header word reads (R82, R88) -/

/-- What decoding a command of `n` operand words answers on the words `rest` behind its header: a command and the words
after the `n`, or, where fewer have arrived, that it waits (R66, R241). -/
def ReadsOperands (n : Nat) (rest : List Word) (r : Except Reject (Instr × List Word)) : Prop :=
  (n ≤ rest.length → ∃ i, r = .ok (i, rest.drop n)) ∧ (rest.length < n → r = .error .truncated)

section
variable {h : Word} (rest : List Word)

theorem decodeZ_reads (i : Instr) (hA : hdrA h = 0#8) (hB : hdrB h = 0#16) :
    ReadsOperands 0 rest (decodeZ h i rest) := by
  simp [ReadsOperands, decodeZ, hA, hB]

theorem decodeC1_reads (hB : hdrB h = 0#16) : ReadsOperands 0 rest (decodeC1 h rest) := by
  simp [ReadsOperands, decodeC1, hB]

theorem decodeC2_reads (hB : hdrB h = 0#16) : ReadsOperands 1 rest (decodeC2 h rest) := by
  cases rest <;> simp [ReadsOperands, decodeC2, hB]

theorem decodeI_reads (mk : Word → Instr) (hA : hdrA h = 0#8) (hB : hdrB h = 0#16) :
    ReadsOperands 1 rest (decodeI h mk rest) := by
  cases rest <;> simp [ReadsOperands, decodeI, hA, hB]

theorem decodeP_reads (hA : (hdrA h).extractLsb' 2 6 = 0#6) :
    ReadsOperands (3 + dataWords (hdrB h)) rest (decodeP h rest) := by
  match rest with
  | [] | [_] | [_, _] =>
    refine ⟨fun hn => ?_, fun _ => by simp [decodeP, hA]⟩
    simp only [List.length_cons, List.length_nil] at hn
    omega
  | h0 :: h1 :: h2 :: rest =>
    by_cases hn : dataWords (hdrB h) ≤ rest.length
    · simp [ReadsOperands, decodeP, hA, takeWords, hn, Nat.add_comm 3]
    · simp [ReadsOperands, decodeP, hA, takeWords, hn]; omega

/-- R82, R88: a legal header word reads as many words as its length says, its own included. -/
theorem decode_reads_headerLength (hl : headerLegal h = true) :
    ReadsOperands (headerLength h - 1) rest (decode (h :: rest)) := by
  rcases (headerLegal_iff h).mp hl with ⟨ho, hA, hB⟩ | ⟨ho, hB⟩ | ⟨ho, hA⟩
  · simp only [List.mem_cons, List.not_mem_nil, or_false] at ho
    rcases ho with ho | ho | ho | ho | ho | ho <;>
      simp [decode_cons, headerLength, hl, ho, decodeZ_reads, decodeI_reads, hA, hB]
  · simp only [List.mem_cons, List.not_mem_nil, or_false] at ho
    rcases ho with ho | ho <;>
      simp [decode_cons, headerLength, hl, ho, decodeC2_reads, decodeC1_reads, hB]
  · have hlen : headerLength h - 1 = 3 + dataWords (hdrB h) := by
      simp [headerLength, hl, ho]
    rw [hlen, decode_cons, ho]
    exact decodeP_reads rest hA

end

/-- R89: a header word decodes to an illegal verdict exactly where it is not legal. -/
theorem decode_illegal_iff (h : Word) (rest : List Word) :
    (decode (h :: rest) = .error .unassignedOpcode ∨ decode (h :: rest) = .error .reservedField) ↔
      headerLegal h = false := by
  refine ⟨fun hd => ?_, fun hl => decode_of_not_legal hl rest⟩
  by_contra hl
  obtain ⟨hok, hcut⟩ := decode_reads_headerLength rest (Bool.eq_true_of_not_eq_false hl)
  by_cases hn : headerLength h - 1 ≤ rest.length
  · obtain ⟨i, hi⟩ := hok hn
    simp [hi] at hd
  · simp [hcut (not_le.mp hn)] at hd

/-! ## Decoding and encoding (R83 to R88) -/

/-- Settles O1, by the command's format: the header gives its fields back, and so do the flags, H0 and the data words
of a packet. -/
theorem decodeEncodeRoundTrip : Obligations.DecodeEncodeRoundTrip := by
  intro i rest hw
  cases i
  case pkt pad herr len link seq orbit trig data =>
    obtain ⟨hres, hpad, hherr⟩ := flags_cases pad herr
    obtain ⟨hlink, hseq⟩ := h0_fields seq link
    have hlen : data.length = dataWords len := by simpa [Instr.wellFormed, dataWords] using hw
    simp only [encode, List.cons_append, decode_cons, hdrOpc_header, BitVec.reduceToNat]
    simp only [decodeP, hdrA_header, hdrB_header, hres, hpad, hherr, hlink, hseq, ← hlen, takeWords_append, if_true]
  all_goals simp [encode, decode_cons, decodeZ, decodeI, decodeC1, decodeC2]

/-- R81: a header word whose fields are known. -/
theorem header_eq {h : Word} {n : Nat} {opc a : BitVec 8} {b : BitVec 16} (ho : (hdrOpc h).toNat = n)
    (hopc : opc.toNat = n) (hA : hdrA h = a) (hB : hdrB h = b) : h = header opc a b := by
  rw [← header_fields h, hA, hB, BitVec.eq_of_toNat_eq (ho.trans hopc.symm)]

/-- Settles O2, by the opcode: each format accepts only the words that it writes. -/
theorem decodedWordsAreTheEncoding : Obligations.DecodedWordsAreTheEncoding := by
  rintro (_ | ⟨h, ws⟩) i rest hd
  · simp [decode] at hd
  rw [decode_cons] at hd
  split at hd
  case h_4 ho =>
    obtain ⟨hB, v, rfl, rfl⟩ := decodeC2_eq_ok hd
    exact ⟨rfl, congrArg (· :: _) (header_eq ho rfl rfl hB)⟩
  case h_5 ho =>
    obtain ⟨hB, rfl, rfl⟩ := decodeC1_eq_ok hd
    exact ⟨rfl, congrArg (· :: _) (header_eq ho rfl rfl hB)⟩
  case h_6 ho =>
    obtain ⟨hres, h0, h1, h2, data, rfl, hlen, rfl⟩ := decodeP_eq_ok hd
    refine ⟨by simpa [Instr.wellFormed, dataWords] using hlen, ?_⟩
    rw [encode, flags_fields _ hres, h0_of_fields, ← header_eq ho rfl rfl rfl]
    rfl
  case h_7 ho | h_8 ho =>
    obtain ⟨hA, hB, idx, rfl, rfl⟩ := decodeI_eq_ok hd
    exact ⟨rfl, congrArg (· :: _) (header_eq ho rfl hA hB)⟩
  case h_10 => cases hd
  all_goals
    next ho =>
      obtain ⟨hA, hB, rfl, rfl⟩ := decodeZ_eq_ok hd
      exact ⟨rfl, congrArg (· :: _) (header_eq ho rfl hA hB)⟩

/-- R82: the encoding of every well-formed command is as long as its header word says. -/
theorem encode_length_header : ∀ i, Laws.EncodeLength.Statement i
  | .nop => Laws.EncodeLength.nop
  | .beginInterval => Laws.EncodeLength.beginInterval
  | .endInterval => Laws.EncodeLength.endInterval
  | .csrw csr v => Laws.EncodeLength.csrw csr v
  | .csrr csr => Laws.EncodeLength.csrr csr
  | .pkt pad herr len link seq orbit trig data => Laws.EncodeLength.pkt pad herr len link seq orbit trig data
  | .rddig idx => Laws.EncodeLength.rddig idx
  | .rdlumi idx => Laws.EncodeLength.rdlumi idx
  | .srst => Laws.EncodeLength.srst

/-- Settles O4: the words of a decoded command are its encoding, whose header word says its length. -/
theorem lengthFromHeaderWord : Obligations.LengthFromHeaderWord := by
  intro h rest
  refine ⟨fun i rest' hd => ?_, fun hd => by simp [headerLength, (decode_illegal_iff h rest).mp hd]⟩
  obtain ⟨hw, heq⟩ := decodedWordsAreTheEncoding _ _ _ hd
  obtain ⟨hlen, h', ws, henc, hhdr⟩ := encode_length_header i hw
  obtain ⟨rfl, -⟩ : h = h' ∧ rest = ws ++ rest' := by simpa [henc] using heq
  refine ⟨?_, by rw [hhdr]; cases i <;> rfl⟩
  simpa [hhdr, hlen] using congrArg List.length heq

/-! ## The opcode table (spec/opcode_table.json) -/

/-- A word has the bits `v` under the mask `m` exactly where each of its header fields has. -/
theorem and_eq_iff_fields (h m v : Word) : h &&& m = v ↔
    hdrOpc h &&& hdrOpc m = hdrOpc v ∧ hdrA h &&& hdrA m = hdrA v ∧ hdrB h &&& hdrB m = hdrB v := by
  simp only [hdrOpc, hdrA, hdrB, ← BitVec.extractLsb'_and]
  refine ⟨fun e => by simp [e], fun ⟨ho, hA, hB⟩ => ?_⟩
  rw [← header_fields (h &&& m), ← header_fields v]
  simp only [hdrOpc, hdrA, hdrB, ho, hA, hB]

/-- The header word of every encoding matches its command's row. -/
theorem encode_matches_row {i : Instr} {h : Word} {ws : List Word} (he : encode i = h :: ws) :
    h &&& (Machine.opcodeRow i).1 = (Machine.opcodeRow i).2 := by
  rw [and_eq_iff_fields]
  cases i <;> (obtain ⟨rfl, -⟩ := List.cons.inj he)
  case pkt pad herr len link seq orbit trig data =>
    simp only [Machine.opcodeRow, hdrOpc_header, hdrA_header, hdrB_header]
    cases pad <;> cases herr <;> simp [hdrOpc, hdrA, hdrB]
  all_goals
    simp only [Machine.opcodeRow, hdrOpc_header, hdrA_header, hdrB_header]
    simp [hdrOpc, hdrA, hdrB]

/-- A header word that decodes to a command matches that command's row. -/
theorem decoded_matches_row {h : Word} {rest rest' : List Word} {i : Instr} (hd : decode (h :: rest) = .ok (i, rest')) :
    h &&& (Machine.opcodeRow i).1 = (Machine.opcodeRow i).2 := by
  obtain ⟨hw, heq⟩ := decodedWordsAreTheEncoding _ _ _ hd
  obtain ⟨-, h', ws, henc, -⟩ := encode_length_header i hw
  obtain ⟨rfl, -⟩ : h = h' ∧ rest = ws ++ rest' := by simpa [henc] using heq
  exact encode_matches_row henc

/-- R82: how many operand words follow a header word `h` that matches the row of a command. -/
def rowOperands (h : Word) : Instr → Nat
  | .nop | .beginInterval | .endInterval | .srst | .csrr _ => 0
  | .csrw _ _ | .rddig _ | .rdlumi _ => 1
  | .pkt _ _ _ _ _ _ _ _ => 3 + dataWords (hdrB h)

/-- The nine rows of spec/opcode_table.json, mask and match. -/
def commandRows : List (Word × Word) :=
  [(0xFFFFFFFF#32, 0x00000000#32), (0xFFFFFFFF#32, 0x01000000#32), (0xFFFFFFFF#32, 0x02000000#32),
   (0xFF00FFFF#32, 0x03000000#32), (0xFF00FFFF#32, 0x04000000#32), (0xFFFC0000#32, 0x05000000#32),
   (0xFFFFFFFF#32, 0x06000000#32), (0xFFFFFFFF#32, 0x07000000#32), (0xFFFFFFFF#32, 0x0F000000#32)]

theorem opcodeRow_mem (i : Instr) : Machine.opcodeRow i ∈ commandRows := by
  cases i <;> simp [Machine.opcodeRow, commandRows]

/-- Every row fixes all bits of OPC, and the bits of A and B that it looks at are 0. -/
theorem commandRows_fields : ∀ r ∈ commandRows,
    hdrOpc r.1 = BitVec.allOnes 8 ∧ hdrA r.2 = 0#8 ∧ hdrB r.2 = 0#16 := by
  simp [commandRows, hdrOpc, hdrA, hdrB]

/-- No two rows have the same opcode. -/
theorem commandRows_opc_nodup : (commandRows.map fun r => hdrOpc r.2).Nodup := by simp [commandRows, hdrOpc]

section
variable {h : Word} {i : Instr} (hm : h &&& (Machine.opcodeRow i).1 = (Machine.opcodeRow i).2)
include hm

/-- A word that matches a row has the row's opcode, and 0 where the row looks at A and B. -/
theorem fields_of_matches_row : hdrOpc h = hdrOpc (Machine.opcodeRow i).2 ∧
    hdrA h &&& hdrA (Machine.opcodeRow i).1 = 0#8 ∧ hdrB h &&& hdrB (Machine.opcodeRow i).1 = 0#16 := by
  obtain ⟨hmask, hA, hB⟩ := commandRows_fields _ (opcodeRow_mem i)
  rwa [and_eq_iff_fields, hmask, BitVec.and_allOnes, hA, hB] at hm

/-- The row names the command: a word matches one row only. -/
theorem opcodeRow_eq_of_matches {j : Instr} (hm' : h &&& (Machine.opcodeRow j).1 = (Machine.opcodeRow j).2) :
    Machine.opcodeRow j = Machine.opcodeRow i :=
  List.inj_on_of_nodup_map commandRows_opc_nodup (opcodeRow_mem j) (opcodeRow_mem i)
    ((fields_of_matches_row hm').1.symm.trans (fields_of_matches_row hm).1)

/-- R82, R89: a word that matches a command's row is a legal header word of that command's length. -/
theorem headerLegal_of_matches_row : headerLegal h = true ∧ headerLength h - 1 = rowOperands h i := by
  obtain ⟨ho, hA, hB⟩ := fields_of_matches_row hm
  have hopc := congrArg BitVec.toNat ho
  rw [hdrOpc_toNat (Machine.opcodeRow i).2] at hopc
  have hallA : hdrA 0xFFFFFFFF#32 = BitVec.allOnes 8 := by decide
  have hallB : hdrB 0xFFFFFFFF#32 = BitVec.allOnes 16 := by decide
  have hcsrB : hdrB 0xFF00FFFF#32 = BitVec.allOnes 16 := by decide
  have hpktA : hdrA 0xFFFC0000#32 = 0xFC#8 := by decide
  have hflags : ∀ a : BitVec 8, a &&& 0xFC#8 = 0#8 → a.extractLsb' 2 6 = 0#6 := by decide
  cases i <;> simp only [Machine.opcodeRow, BitVec.reduceToNat, Nat.reducePow, Nat.reduceDiv, hallA, hallB, hcsrB, hpktA,
    BitVec.and_allOnes] at hopc hA hB
  case pkt => simp [headerLegal, headerLength, rowOperands, hopc, hflags _ hA]
  case csrw | csrr => simp [headerLegal, headerLength, rowOperands, hopc, hB]
  all_goals simp [headerLegal, headerLength, rowOperands, hopc, hA, hB]

end

/-- Settles O5: a decoded header word heads the command's encoding and so matches its row; a word that matches a row is
legal, and a legal word reads its operands; and a legal word decodes once enough words follow it, so it matches a row. -/
theorem opcodeTableRows : Obligations.OpcodeTableRows := by
  refine ⟨fun h rest i rest' hd => decoded_matches_row hd, fun h rest i hm => ?_, fun h rest hno => ?_⟩
  · obtain ⟨hl, hlen⟩ := headerLegal_of_matches_row hm
    obtain ⟨hok, hcut⟩ := hlen ▸ decode_reads_headerLength rest hl
    have hrow : rowOperands h i ≤ rest.length → ∃ j, decode (h :: rest) = .ok (j, rest.drop (rowOperands h i)) ∧
        Machine.opcodeRow j = Machine.opcodeRow i := fun hn => by
      obtain ⟨j, hj⟩ := hok hn
      exact ⟨j, hj, opcodeRow_eq_of_matches hm (decoded_matches_row hj)⟩
    cases i
    case pkt => simpa only [rowOperands, dataWords, hdrB_toNat] using And.intro hrow hcut
    all_goals exact ⟨hrow, hcut⟩
  · rw [decode_illegal_iff, ← Bool.not_eq_true]
    intro hl
    obtain ⟨i, hi⟩ := (decode_reads_headerLength (List.replicate (headerLength h - 1) 0#32) hl).1 (by simp)
    exact hno i (decoded_matches_row hi)

/-- Settles O6: the decoder run on each word. -/
theorem specWordsDecode : Obligations.SpecWordsDecode := ⟨rfl, rfl, rfl, rfl, rfl, rfl, rfl, rfl, rfl⟩

end Sys2Proof

namespace Sys2Proof.Machine

/-! ## The step on what is decoded (R181) -/

/-- R181: with no reset pending, a step runs the decoded command on the words after it. -/
theorem step_of_decode {s : State} {i : Instr} {rest : List Word} (hr : s.resetPin = false)
    (hd : decode s.input = .ok (i, rest)) : step s = exec i { s with input := rest } := by
  simp [step, hr, hd]

/-- R191: with no reset pending, a step on an illegal header word runs ILLCMD on the words after it. -/
theorem step_of_illegal {s : State} (hr : s.resetPin = false)
    (hd : decode s.input = .error .unassignedOpcode ∨ decode s.input = .error .reservedField) :
    step s = .next ({ s with input := s.input.tail } : State).illCmd := by
  rcases hd with hd | hd <;> simp [step, hr, hd]

/-- Settles O3: the illegal header words are those that are not legal, whose fields are compared by arithmetic. -/
theorem illegalHeaderWords : Obligations.IllegalHeaderWords := by
  intro h rest opc a b
  refine ⟨?_, fun hd s hr hin => ⟨_, step_of_illegal hr (hin ▸ hd), by simp [hin], by simp⟩⟩
  rw [decode_illegal_iff, ← Bool.not_eq_true, headerLegal_iff, flags_reserved_iff, ← BitVec.toNat_inj, ← BitVec.toNat_inj,
    hdrOpc_toNat, hdrA_toNat, hdrB_toNat]
  change ¬ ((opc ∈ _ ∧ a = 0 ∧ b = 0) ∨ (opc ∈ _ ∧ b = 0) ∨ (opc = 5 ∧ a < 4)) ↔ _
  simp only [List.mem_cons, List.not_mem_nil, or_false]
  omega

/-- Settles O10: the words of a whole command decode to it, every command completes, and none takes further words. -/
theorem wholeCommandCompletes : Obligations.WholeCommandCompletes := by
  intro s i rest hr hw hin
  have hd : decode s.input = .ok (i, rest) := hin ▸ decodeEncodeRoundTrip i rest hw
  exact ⟨_, (step_of_decode hr hd).trans (exec_eq i _), by simp⟩

end Sys2Proof.Machine
end

section
/-! PROOFS of the encoding's statements (30_encoding.md R95, 95_test_vectors.md), second part: the payload of PKTC on its
way through ASSEMBLE, UNPACK, BUILD and MERGE. -/

namespace Sys2Proof.Machine

/-! ## UNPACK of successive words (R121, R125) -/

/-- A field below bit `q * N` does not see what is added from there on. -/
theorem field_add_above {N j q : Nat} (hj : j < q) (s x : Nat) :
    (s + 2 ^ (q * N) * x) / 2 ^ (j * N) % 2 ^ N = s / 2 ^ (j * N) % 2 ^ N := by
  obtain ⟨d, rfl⟩ := Nat.exists_eq_add_of_lt hj
  have hpow : 2 ^ ((j + d + 1) * N) * x = 2 ^ (j * N) * (2 ^ N * (2 ^ (d * N) * x)) := by
    rw [Nat.add_mul, Nat.add_mul, Nat.one_mul, Nat.pow_add, Nat.pow_add]; ring
  rw [hpow, Nat.add_mul_div_left _ _ (Nat.two_pow_pos _), Nat.add_mul_mod_self_left]

/-- R125: the chunks of successive words are the consecutive `N`-bit fields of the remnant with the word stream above
it, and what is left is what lies above them. -/
theorem unpackAll_eq {N : Nat} (ws : List Word80) (val : Nat) {cnt : Nat} (hcnt : cnt < N) :
    unpackAll N ws val cnt =
      ((List.range ((cnt + 80 * ws.length) / N)).map (fun j => (val + wordStream ws * 2 ^ cnt) / 2 ^ (j * N) % 2 ^ N),
        (val + wordStream ws * 2 ^ cnt) / 2 ^ ((cnt + 80 * ws.length) / N * N), (cnt + 80 * ws.length) % N) := by
  induction ws generalizing val cnt with
  | nil => simp [unpackAll, wordStream, Nat.div_eq_of_lt hcnt, Nat.mod_eq_of_lt hcnt]
  | cons w ws ih =>
    have hN : 1 ≤ N := by omega
    have hsplit : (cnt + 80) / N * N + (cnt + 80) % N = cnt + 80 := Nat.div_add_mod' _ _
    rw [unpackAll]
    simp only [unpack_eq hN, Nat.shiftRight_eq_div_pow, ih _ (Nat.mod_lt (cnt + 80) hN)]
    generalize (cnt + 80) / N = q at hsplit ⊢
    generalize (cnt + 80) % N = r at hsplit ⊢
    have hbits : val + wordStream (w :: ws) * 2 ^ cnt =
        val + w.toNat * 2 ^ cnt + 2 ^ (q * N) * (wordStream ws * 2 ^ r) := by
      have hpow : 2 ^ (q * N) * 2 ^ r = 2 ^ cnt * 2 ^ 80 := by rw [← Nat.pow_add, ← Nat.pow_add, hsplit]
      calc val + (w.toNat + 2 ^ 80 * wordStream ws) * 2 ^ cnt
          = val + w.toNat * 2 ^ cnt + wordStream ws * (2 ^ cnt * 2 ^ 80) := by ring
        _ = val + w.toNat * 2 ^ cnt + 2 ^ (q * N) * (wordStream ws * 2 ^ r) := by rw [← hpow]; ring
    have htotal : cnt + 80 * (w :: ws).length = r + 80 * ws.length + q * N := by
      rw [List.length_cons]; omega
    rw [htotal, hbits, Nat.add_mul_div_right _ _ hN, Nat.add_mul_mod_self_right, Nat.add_comm (_ / N) q]
    generalize val + w.toNat * 2 ^ cnt = s
    have habove : ∀ j, (s + 2 ^ (q * N) * (wordStream ws * 2 ^ r)) / 2 ^ ((q + j) * N) =
        (s / 2 ^ (q * N) + wordStream ws * 2 ^ r) / 2 ^ (j * N) := fun j => by
      rw [Nat.add_mul, Nat.pow_add, ← Nat.div_div_eq_div_mul, Nat.add_mul_div_left _ _ (Nat.two_pow_pos _)]
    rw [habove, List.range_add, List.map_append, List.map_map]
    congr 2
    · exact List.map_congr_left fun j hj => (field_add_above (List.mem_range.mp hj) _ _).symm
    · exact List.map_congr_left fun j _ => by rw [Function.comp, habove]

/-! ## The chunks of PKTC's payload (R95) -/

/-- R95 steps 1 and 2: the words of PKTC are cut, from an empty remnant, into its chunks and zero chunks, with nothing but
zeros left. -/
theorem unpackAll_pktcWords {N : Nat} (hN : 1 ≤ N) {cs : List Chunk} (hcs : ∀ c ∈ cs, c < 2 ^ N) {k : Nat}
    (hk : cs.length * N ≤ 80 * k) :
    ∃ z, unpackAll N (streamWords k (chunkStream N cs)) 0 0 = (cs ++ List.replicate z 0, 0, 80 * k % N) := by
  have hS : chunkStream N cs < 2 ^ (80 * k) := (chunkStream_lt cs hcs).trans_le (Nat.pow_le_pow_right (by decide) hk)
  have hlen : cs.length ≤ 80 * k / N := (Nat.le_div_iff_mul_le hN).mpr hk
  have hfields : (List.range (80 * k / N)).map (fun j => chunkStream N cs / 2 ^ (j * N) % 2 ^ N) =
      cs ++ List.replicate (80 * k / N - cs.length) 0 := by
    refine List.ext_getElem (by simp; omega) fun j hj _ => ?_
    simp only [List.getElem_map, List.getElem_range, chunkStream_field cs j hcs, List.getD_eq_getElem?_getD]
    by_cases hjc : j < cs.length
    · simp [hjc, List.getElem_append_left]
    · simp [hjc, List.getElem_append_right (Nat.le_of_not_lt hjc)]
  have hrest : chunkStream N cs / 2 ^ (80 * k / N * N) = 0 :=
    Nat.div_eq_of_lt ((chunkStream_lt cs hcs).trans_le
      (Nat.pow_le_pow_right (by decide) (Nat.mul_le_mul_right N hlen)))
  refine ⟨80 * k / N - cs.length, ?_⟩
  rw [unpackAll_eq _ _ hN, wordStream_streamWords, streamWords_length, Nat.mod_eq_of_lt hS]
  simp only [Nat.zero_add, Nat.pow_zero, Nat.mul_one, hfields, hrest]

/-- Settles O51: the payload assembles to the words of the chunks' stream, whose fields are the chunks. -/
theorem pktcChunksComeBack : Obligations.PktcChunksComeBack := by
  intro pad N cs hN _ hcs asm r
  have hasm : asm = (streamWords ((cs.length * N + 79) / 80) (chunkStream N cs), false) := assemble_dataGroups pad _
  obtain ⟨z, hz⟩ := unpackAll_pktcWords (k := (cs.length * N + 79) / 80) (by omega) hcs (by omega)
  have hr : r = (cs ++ List.replicate z 0, 0, _) := (congrArg (fun a => unpackAll N a.1 0 0) hasm).trans hz
  exact ⟨by rw [hasm], ⟨z, by rw [hr]⟩, by rw [hr]⟩

/-! ## The payload of a packet is its chunks (R121, R169, R170) -/

theorem Session.setRemnant_self (ch : Channel) (ses : Session) :
    ses.setRemnant ch (ses.chan ch).remVal.toNat (ses.chan ch).remCnt.toNat = ses := by
  simp only [Session.setRemnant, BitVec.ofNat_toNat, BitVec.setWidth_eq]
  exact Session.setChan_chan ch ses

/-- R122, R169: cutting and dispatching word by word, with a remnant between, dispatches the chunks of the whole word
stream in order. -/
theorem foldl_unpackWord {cfg : CfgRegs} (hl : cfg.legal = true) (prm : Params) (ch : Channel) (orbit : Word)
    (ws : List Word80) {ses : Session} (hfit : (ses.chan ch).RemnantFits)
    (hshort : (ses.chan ch).remCnt.toNat < cfg.width ch) :
    let cut := unpackAll (cfg.width ch) ws (ses.chan ch).remVal.toNat (ses.chan ch).remCnt.toNat
    ws.foldl (unpackWord cfg prm ch orbit) ses =
      cut.1.foldl (dispatchChunk cfg prm ch orbit) (ses.setRemnant ch cut.2.1 cut.2.2) := by
  induction ws generalizing ses with
  | nil => exact (Session.setRemnant_self ch ses).symm
  | cons w ws ih =>
    obtain ⟨hN, hN'⟩ := cfg.legal_width hl ch
    obtain ⟨hcnt, hval⟩ := unpack_remnant_lt (N := cfg.width ch) (by omega) hfit w
    rw [List.foldl_cons, unpackWord, unpackAll]
    generalize unpack (cfg.width ch) _ _ w = r at hcnt hval ⊢
    have hv : (BitVec.ofNat 78 r.2.1).toNat = r.2.1 := Nat.mod_eq_of_lt
      (hval.trans_le (Nat.pow_le_pow_right (by decide) (by omega)))
    have hc : (BitVec.ofNat 7 r.2.2).toNat = r.2.2 := Nat.mod_eq_of_lt (by omega)
    rw [foldl_dispatchChunk_setRemnant]
    generalize hx : r.1.foldl (dispatchChunk cfg prm ch orbit) ses = x
    have hchan : ((x.setRemnant ch r.2.1 r.2.2).chan ch).remVal.toNat = r.2.1 ∧
        ((x.setRemnant ch r.2.1 r.2.2).chan ch).remCnt.toNat = r.2.2 := by simp [hv, hc]
    have hnext := ih (ses := x.setRemnant ch r.2.1 r.2.2) (by rw [ChanState.RemnantFits, hchan.1, hchan.2]; exact hval)
      (by rw [hchan.2]; exact hcnt)
    rw [hchan.1, hchan.2] at hnext
    rw [hnext, Session.setRemnant_setRemnant, ← hx, ← foldl_dispatchChunk_setRemnant, ← List.foldl_append]

/-- R169: the payload of a processed packet, as its chunks in order. -/
theorem packetBody_eq {cfg : CfgRegs} (hl : cfg.legal = true) (prm : Params) (ch : Channel) (orbit : Word)
    (bytes : List Byte) {ses : Session} (hfit : (ses.chan ch).RemnantFits)
    (hshort : (ses.chan ch).remCnt.toNat < cfg.width ch) :
    let asm := assemble ses.groupBytes bytes
    let cut := unpackAll (cfg.width ch) asm.1 (ses.chan ch).remVal.toNat (ses.chan ch).remCnt.toNat
    let flagged := if asm.2 then ses.flag .partialWord else ses
    packetBody cfg prm ch orbit bytes ses =
      cut.1.foldl (dispatchChunk cfg prm ch orbit) (flagged.setRemnant ch cut.2.1 cut.2.2) := by
  intro asm cut flagged
  have hchan : flagged.chan ch = ses.chan ch := by unfold flagged; split <;> simp
  have hbody := foldl_unpackWord hl prm ch orbit asm.1 (ses := flagged) (by rwa [hchan]) (by rwa [hchan])
  rw [hchan] at hbody
  exact hbody

/-- R133: a zero chunk counts nothing and records nothing. -/
theorem dispatchChunk_zero (cfg : CfgRegs) (prm : Params) (ch : Channel) (orbit : Word) (ses : Session) :
    dispatchChunk cfg prm ch orbit ses 0 = ses := by
  have hpay : ∀ N, chunkPay N 0 = 0 := fun N => by simp [chunkPay, slice]
  simp [dispatchChunk, lumiCount, build, patternMatches, hpay]

theorem foldl_dispatchChunk_zeros (cfg : CfgRegs) (prm : Params) (ch : Channel) (orbit : Word) (z : Nat)
    (ses : Session) : (List.replicate z 0).foldl (dispatchChunk cfg prm ch orbit) ses = ses := by
  induction z with
  | zero => rfl
  | succ z ih => rw [List.replicate_succ, List.foldl_cons, dispatchChunk_zero, ih]

/-- R95, R169: a packet's body that PKTC computed, on an empty remnant and in the latched padding format, is the dispatch
of its chunks. -/
theorem packetBody_pktcData {cfg : CfgRegs} (hl : cfg.legal = true) (prm : Params) (ch : Channel) (orbit : Word)
    {cs : List Chunk} (hcs : ∀ c ∈ cs, c < 2 ^ cfg.width ch) {ses : Session} (hv : (ses.chan ch).remVal = 0#78)
    (hc : (ses.chan ch).remCnt = 0#7) :
    ∃ n, packetBody cfg prm ch orbit (pktcData ses.w16 (cfg.width ch) cs) ses =
      (cs.foldl (dispatchChunk cfg prm ch orbit) ses).setRemnant ch 0 n := by
  obtain ⟨hN, -⟩ := cfg.legal_width hl ch
  have hbody := packetBody_eq hl prm ch orbit (pktcData ses.w16 (cfg.width ch) cs) (ses := ses)
    (by simp [ChanState.RemnantFits, hv, hc]) (by rw [hc]; exact Nat.lt_of_lt_of_le (by decide) hN)
  obtain ⟨z, hz⟩ := unpackAll_pktcWords (k := (cs.length * cfg.width ch + 79) / 80) (by omega) hcs (by omega)
  have hasm : assemble ses.groupBytes (pktcData ses.w16 (cfg.width ch) cs) =
      (streamWords ((cs.length * cfg.width ch + 79) / 80) (chunkStream (cfg.width ch) cs), false) :=
    assemble_dataGroups ses.w16 _
  simp only [hasm, hv, hc, BitVec.toNat_zero, hz, Bool.false_eq_true, if_false] at hbody
  exact ⟨_, by rw [hbody, List.foldl_append, foldl_dispatchChunk_zeros, foldl_dispatchChunk_setRemnant]⟩

/-- R64, R94: the assembler's packing of fewer than 2^16 bytes is unpacked to them. -/
theorem payloadBytes_packBytes {bytes : List Byte} (h : bytes.length < 2 ^ 16) :
    payloadBytes (BitVec.ofNat 16 bytes.length) (packBytes bytes) = bytes := by
  rw [payloadBytes, BitVec.toNat_ofNat, Nat.mod_eq_of_lt h, packBytes_wordBytes]

/-! ## Recording one digit (R131 to R141) -/

/-- R131, R135: a contribution that no check drops is merged, at its corrected point of the timeline. -/
theorem build_eq_merge {cfg : CfgRegs} (prm : Params) {ch : Channel} {c : Chunk} {orbit : Word} {ses : Session}
    (hpay : chunkPay (cfg.width ch) c ≠ 0) (hbc : chunkBc c < 3564) (hA : ¬ rejectA cfg ch (chunkBc c) orbit ses)
    (hB : ¬ rejectB cfg ch (chunkBc c) orbit ses)
    (hT : (orbit.toNat * 3564 + chunkBc c : Int) - cfg.offset ch < 2 ^ 32 * 3564) :
    ∃ key : Key, (key.time : Int) = (orbit.toNat * 3564 + chunkBc c : Int) - cfg.offset ch ∧
      build cfg prm ch c orbit ses = merge prm ch key (chunkPay (cfg.width ch) c) ses := by
  rcases build_cases cfg prm ch c orbit ses with
    ⟨h, -⟩ | ⟨-, h, -⟩ | ⟨-, -, h, -⟩ | ⟨-, -, -, h, -⟩ | ⟨-, -, -, -, h, -⟩ | ⟨-, -, -, -, h⟩
  · exact absurd h hpay
  · exact absurd hbc (by omega)
  · exact absurd h hA
  · exact absurd h hB
  · exact absurd hT (by omega)
  · exact h

section
variable {m : List (Key × Entry)} {k : Key} (hlast : ∀ p ∈ m, p.1.time < k.time)
include hlast

theorem lookupKey_none_of_last : lookupKey k m = none := by
  cases h : lookupKey k m with
  | none => rfl
  | some e => exact absurd (hlast _ (lookupKey_mem h)) (Nat.lt_irrefl _)

/-- R42: a key after all others is written at the end. -/
theorem putKey_of_last (e : Entry) : putKey k e m = m ++ [(k, e)] := by
  induction m with
  | nil => rfl
  | cons p m ih =>
    obtain ⟨hp, hm⟩ := List.forall_mem_cons.mp hlast
    have hne : p.1 ≠ k := fun h => Nat.lt_irrefl _ (h ▸ hp)
    have hlt : ¬ k.lt p.1 = true := by rw [Key.lt_iff_time]; omega
    rw [putKey, if_neg hne, if_neg hlt, ih hm, List.cons_append]

end

/-- R139, R141: a contribution to a key after all others, where there is room, is appended. -/
theorem merge_of_last {prm : Params} {ses : Session} {key : Key} (hlast : ∀ p ∈ ses.map, p.1.time < key.time)
    (hroom : ses.map.length ≠ prm.mapCap.toNat) (ch : Channel) (pay : Nat) :
    merge prm ch key pay ses = { ses with map := ses.map ++ [(key, Entry.empty.fill ch pay)] } := by
  rw [merge, lookupKey_none_of_last hlast]
  simp only [if_neg hroom, putKey_of_last hlast]

/-- R151: LUMI_COUNT sets no error bit but CNTOVF. -/
theorem lumiCount_hasFlag {b : IErrBit} (hb : b ≠ .cntovf) (cfg : CfgRegs) (c : Chunk) (ses : Session) :
    (lumiCount cfg c ses).hasFlag b = ses.hasFlag b := by
  unfold lumiCount
  dsimp only
  split <;> split <;> simp [hb]

/-! ## Recording the digits of one frame (95_test_vectors.md, Round-trip) -/

/-- 95_test_vectors.md, Round-trip: what is asked of a digit (bc, payload) of the frame at `orbit`, in an interval that
starts at orbit `io`. -/
def DigitFits (cfg : CfgRegs) (io : Nat) (orbit : Word) (d : Nat × Nat) : Prop :=
  d.1 < 3564 ∧ d.2 ≠ 0 ∧ d.2 < 2 ^ (cfg.width .ir - 12) ∧ io * 3564 + cfg.offC.toNat ≤ orbit.toNat * 3564 + d.1

/-- R132: the chunk of a digit. -/
def digitChunk (d : Nat × Nat) : Chunk := d.2 * 2 ^ 12 + d.1

/-- R135, R136: the point of the timeline that a digit of the frame at `orbit` is recorded at. -/
def digitTime (cfg : CfgRegs) (orbit : Word) (d : Nat × Nat) : Nat := orbit.toNat * 3564 + d.1 - cfg.offC.toNat

/-- The session `ses` is `base` with the digits `ds` of the frame at `orbit` recorded, and nothing else of the Record
Builder changed; the error bits are those of `base`, but for CNTOVF where luminosity is on. -/
structure DigitsRecorded (cfg : CfgRegs) (orbit : Word) (base : Session) (ds : List (Nat × Nat)) (ses : Session) :
    Prop where
  map : ses.map.map (fun p => (p.1.time, p.2)) = ds.map fun d => (digitTime cfg orbit d, Entry.empty.fill .ir d.2)
  ir : ses.ir = base.ir
  intervalOrbit : ses.intervalOrbit = base.intervalOrbit
  hasFlag : ∀ b, b ≠ .cntovf ∨ cfg.lumiEn = false → ses.hasFlag b = base.hasFlag b

section
variable {cfg : CfgRegs} {orbit : Word} {base ses : Session} {ds : List (Nat × Nat)}

theorem digitChunk_lt {io : Nat} {d : Nat × Nat} (hl : cfg.legal = true) (hd : DigitFits cfg io orbit d) :
    digitChunk d < 2 ^ cfg.width .ir := by
  obtain ⟨hbc, -, hpay, -⟩ := hd
  obtain ⟨hN, -⟩ := cfg.legal_width hl .ir
  have hpow : 2 ^ cfg.width .ir = 2 ^ (cfg.width .ir - 12) * 2 ^ 12 := by rw [← Nat.pow_add]; congr 1; omega
  show d.2 * 2 ^ 12 + d.1 < (2 ^ cfg.width .ir : Nat)
  omega

/-- R170: counting a digit's chunk, before it is recorded. -/
theorem DigitsRecorded.count (h : DigitsRecorded cfg orbit base ds ses) (c : Chunk) :
    DigitsRecorded cfg orbit base ds (if Channel.ir = .ir ∧ cfg.lumiEn then lumiCount cfg c ses else ses) := by
  split
  · next hlumi =>
    obtain ⟨a, b, e, hframe⟩ := lumiCount_frame cfg c ses
    refine ⟨?_, ?_, ?_, fun f hf => ?_⟩
    · rw [hframe]; exact h.map
    · rw [hframe]; exact h.ir
    · rw [hframe]; exact h.intervalOrbit
    · have hne : f ≠ .cntovf := by simpa [hlumi.2] using hf
      rw [lumiCount_hasFlag hne, h.hasFlag f hf]
  · exact h

/-- R131, R139: BUILD of a fitting digit after all that are recorded appends it. -/
theorem DigitsRecorded.build {prm : Params} (hl : cfg.legal = true) (h : DigitsRecorded cfg orbit base ds ses)
    (hds : ∀ d ∈ ds, DigitFits cfg base.intervalOrbit.toNat orbit d) {d : Nat × Nat}
    (hd : DigitFits cfg base.intervalOrbit.toNat orbit d) (hlast : ∀ d' ∈ ds, d'.1 < d.1)
    (hroom : ds.length < prm.mapCap.toNat) :
    DigitsRecorded cfg orbit base (ds ++ [d]) (build cfg prm .ir (digitChunk d) orbit ses) := by
  obtain ⟨hbc, hne, hpay, hio⟩ := hd
  have hchunkBc : chunkBc (digitChunk d) = d.1 := chunkBc_mk (by omega) _
  have hchunkPay : chunkPay (cfg.width .ir) (digitChunk d) = d.2 :=
    chunkPay_mk (cfg.legal_width hl .ir).1 (by omega) hpay
  have horbit := orbit.isLt
  obtain ⟨key, hkey, hbuild⟩ := build_eq_merge (cfg := cfg) prm (ch := .ir) (c := digitChunk d) (orbit := orbit)
    (ses := ses) (by rwa [hchunkPay]) (by rwa [hchunkBc])
    (by simp only [rejectA, hchunkBc, CfgRegs.offset, h.intervalOrbit]; omega)
    (by simp only [rejectB, hchunkBc, CfgRegs.offset, h.intervalOrbit]; omega)
    (by simp only [hchunkBc, CfgRegs.offset]; omega)
  have htime : key.time = digitTime cfg orbit d := by
    simp only [hchunkBc, CfgRegs.offset] at hkey
    simp only [digitTime]
    omega
  have hlen : ses.map.length = ds.length := by simpa using congrArg List.length h.map
  have hlastKey : ∀ p ∈ ses.map, p.1.time < key.time := fun p hp => by
    obtain ⟨d', hd', heq⟩ := List.mem_map.mp (h.map ▸ List.mem_map_of_mem hp)
    have hfits := (hds d' hd').2.2.2
    have hlt := hlast d' hd'
    have htime' : digitTime cfg orbit d' = p.1.time := congrArg Prod.fst heq
    rw [htime, ← htime']
    simp only [digitTime]
    omega
  rw [hbuild, hchunkPay, merge_of_last hlastKey (by omega)]
  exact ⟨by simp [h.map, htime], h.ir, h.intervalOrbit, h.hasFlag⟩

/-- R170: dispatching the chunks of the fitting digits of one frame, in rising bc, records them. -/
theorem digitsRecorded_foldl {prm : Params} (hl : cfg.legal = true) (hen : cfg.digitsEn = true)
    (hmap : base.map = []) (hds : ∀ d ∈ ds, DigitFits cfg base.intervalOrbit.toNat orbit d)
    (hsort : ds.Pairwise fun a b => a.1 < b.1) (hroom : ds.length ≤ prm.mapCap.toNat) :
    DigitsRecorded cfg orbit base ds ((ds.map digitChunk).foldl (dispatchChunk cfg prm .ir orbit) base) := by
  induction ds using List.reverseRecOn with
  | nil => exact ⟨by simp [hmap], rfl, rfl, fun _ _ => rfl⟩
  | append_singleton ds d ih =>
    obtain ⟨hsort', -, hlast⟩ := List.pairwise_append.mp hsort
    obtain ⟨hds', hd⟩ := List.forall_mem_append.mp hds
    rw [List.length_append, List.length_singleton] at hroom
    rw [List.map_append, List.foldl_append]
    have hcount := (ih hds' hsort' (by omega)).count (digitChunk d)
    have hbuild := hcount.build (prm := prm) hl hds' (hd d (List.mem_singleton_self d))
      (fun d' hd' => hlast d' hd' d (List.mem_singleton_self d)) (by omega)
    simpa [dispatchChunk, hen] using hbuild

end

/-! ## The first steps of the frame-start packet (R163 to R168) -/

section
variable {cfg : CfgRegs} {ses : Session} {pad : Bool} (hpad : ses.wLatched = true → ses.w16 = pad)
include hpad

theorem packetHead_w16_of_latched (prm : Params) (ch : Channel) (seq : BitVec 16) (orbit trig : Word) :
    (packetHead cfg prm ch seq orbit trig pad ses).w16 = pad := by
  rw [packetHead_w16]
  cases hw : ses.wLatched
  · rfl
  · exact hpad hw

/-- A frame start in the latched padding format sets no error bit but LUMIFULL, and that only with luminosity on. -/
theorem packetHead_hasFlag_of_frameStart {trig : Word} {seq : BitVec 16} (hstart : cfg.isFrameStart trig seq = true)
    {b : IErrBit} (hb : b ≠ .lumifull ∨ cfg.lumiEn = false) (prm : Params) (ch : Channel) (orbit : Word) :
    (packetHead cfg prm ch seq orbit trig pad ses).hasFlag b = ses.hasFlag b := by
  have hmix : (ses.wLatched && pad != ses.w16) = false := by
    cases hw : ses.wLatched
    · rfl
    · simp [hpad hw]
  rw [packetHead_hasFlag, hstart, hmix]
  rcases hb with hb | hb <;> simp [hb]

end

/-- Settles O52: the frame start leaves an empty remnant and no digit; the payload is the chunks of the digits, and each
is recorded after the ones before it. -/
theorem digitsSurviveTheRoundTrip : Obligations.DigitsSurviveTheRoundTrip := by
  intro s pad link orbit trig digits N payload io ha hinv hen hch htrig hpad hmap hlen hcap hsort hdigits
  have hl : s.cfg.legal = true := (hinv.2 ha).1
  have hstart : s.cfg.isFrameStart trig 0#16 = true := by simp [CfgRegs.isFrameStart, htrig]
  let head := packetHead s.cfg s.params .ir 0#16 orbit trig pad s.ses
  have hir := packetHead_chan_same s.cfg s.params .ir 0#16 orbit trig pad s.ses
  rw [hstart, if_pos rfl] at hir
  have hio : head.intervalOrbit.toNat = io := by rw [packetHead_intervalOrbit, apply_ite BitVec.toNat]
  have hfits : ∀ d ∈ digits, DigitFits s.cfg head.intervalOrbit.toNat orbit d := hio ▸ hdigits
  have hflags : ∀ b, b ≠ .lumifull ∨ s.cfg.lumiEn = false → head.hasFlag b = s.ses.hasFlag b :=
    fun b hb => packetHead_hasFlag_of_frameStart hpad hstart hb s.params .ir orbit
  have hrec := digitsRecorded_foldl (prm := s.params) hl hen (base := head)
    ((packetHead_map _ _ _ _ _ _ _ _).trans hmap) hfits hsort hcap
  have hend := hrec.ir.trans hir
  obtain ⟨n, hbody⟩ := packetBody_pktcData hl s.params .ir orbit (cs := digits.map digitChunk) (ses := head)
    (List.forall_mem_map.mpr fun d hd => digitChunk_lt hl (hfits d hd)) (by rw [hir]) (by rw [hir])
  rw [packetHead_w16_of_latched hpad] at hbody
  have hses : processPacket s.cfg s.params .ir 0#16 orbit trig pad payload s.ses = _ := hbody
  refine ⟨_, exec_pkt_processed pad _ link 0#16 orbit trig _ s .ir ha hch (.inl rfl), ?_⟩
  rw [payloadBytes_packBytes hlen, hses]
  simp only [State.retire_ses, Session.setRemnant_map, Session.hasFlag_setRemnant]
  refine ⟨hrec.map, ?_, ?_, fun b hb hb' => ?_, fun hlumi b => ?_⟩
  · exact (congrArg ChanState.rej hend :)
  · exact (congrArg ChanState.dup hend :)
  · rw [hrec.hasFlag b (.inl hb), hflags b (.inl hb')]
  · rw [hrec.hasFlag b (.inr hlumi), hflags b (.inr hlumi)]

end Sys2Proof.Machine
end

section
/-! PROOFS of the word assembler's statement (41_word_assembler.md R112 to R117): the words of ASSEMBLE and their bytes. -/

namespace Sys2Proof.Machine

/-- Byte `k` of the list that a group's word is made from is the payload's byte `k` of that group. -/
theorem getD_take_drop (bytes : List Byte) (off : Nat) {n k : Nat} (hk : k < n) :
    ((bytes.drop off).take n).getD k 0#8 = bytes.getD (off + k) 0#8 := by
  simp [List.getD_eq_getElem?_getD, List.getElem?_take_of_lt hk]

/-- R117: `(len + (W - 1)) / W` groups hold every byte of the payload. -/
theorem length_le_of_groups_le {W len g : Nat} (hW : 0 < W) (hg : (len + (W - 1)) / W ≤ g) : len ≤ g * W := by
  have := (Nat.div_lt_iff_lt_mul hW).mp (Nat.lt_succ_of_le hg)
  rw [Nat.succ_mul] at this
  omega

/-- Settles O37: word `g` is the group word of group `g`, and past the last group there is neither a word nor a byte. -/
theorem assembledWords : Obligations.AssembledWords := by
  intro W bytes hW
  have hW10 : 10 ≤ W := by omega
  rw [assemble_eq hW10 _ bytes le_rfl]
  refine ⟨by simp, fun g k hk => ?_, by simp⟩
  by_cases hg : g < (bytes.length + (W - 1)) / W
  · rw [List.getD_eq_getElem _ _ (by simpa using hg), List.getElem_map, List.getElem_range, groupWord_byte _ hk,
      getD_take_drop _ _ hk]
  · have hlen := length_le_of_groups_le (by omega) (Nat.le_of_not_lt hg)
    rw [List.getD_eq_default _ _ (by simpa using hg), List.getD_eq_default _ _ (by omega), BitVec.extractLsb'_zero]

end Sys2Proof.Machine
end

section
/-! PROOFS of the chunk unpacker's statements (42_chunk_unpacker.md): what one UNPACK does to the bits, the stream view
of a span, and the payload of a packet as its chunks in order. -/

namespace Sys2Proof.Machine

/-! ## One UNPACK and a span of them (R121 to R126) -/

/-- The stream of the lowest `q` fields of `s` is `s` without what lies above them. -/
theorem chunkStream_fields (N q s : Nat) :
    chunkStream N ((List.range q).map fun j => s / 2 ^ (j * N) % 2 ^ N) = s % 2 ^ (q * N) := by
  induction q generalizing s with
  | zero => simp [chunkStream, Nat.mod_one]
  | succ q ih =>
    have hshift : ∀ j, s / 2 ^ ((j + 1) * N) = s / 2 ^ N / 2 ^ (j * N) := fun j => by
      rw [Nat.div_div_eq_div_mul, ← Nat.pow_add, Nat.add_mul, Nat.one_mul, Nat.add_comm]
    simp only [List.range_succ_eq_map, List.map_cons, List.map_map, Function.comp_def, Nat.succ_eq_add_one, hshift,
      chunkStream, ih, Nat.zero_mul, Nat.pow_zero, Nat.div_one]
    rw [Nat.add_mul, Nat.one_mul, Nat.add_comm (q * N), Nat.pow_add, Nat.mod_mul]

/-- R126: UNPACK drops no bit and makes none up. -/
theorem unpack_conserves_bits {N : Nat} (hN : 1 ≤ N) (val cnt : Nat) (w : Word80) :
    chunkStream N (unpack N val cnt w).1 + (unpack N val cnt w).2.1 * 2 ^ (N * (unpack N val cnt w).1.length) =
      val + w.toNat * 2 ^ cnt := by
  rw [unpack_length hN, unpack_eq hN]
  simp only [Nat.shiftRight_eq_div_pow, chunkStream_fields, Nat.mul_comm N]
  exact Nat.mod_add_div' _ _

/-- Settles O38: the chunks are the low fields of the remnant with the word above it, so their stream is its low part
and the new remnant the rest. -/
theorem unpackCutsExactly : Obligations.UnpackCutsExactly := by
  intro N val cnt w hN hN' hcnt hval r
  have hpos : 1 ≤ N := by omega
  have hlen : r.1.length = (cnt + 80) / N := unpack_length hpos val cnt w
  have hleft : r.2.2 = (cnt + 80) % N := unpack_cnt hpos val cnt w
  have hmost : (cnt + 80) / N < 8 := (Nat.div_lt_iff_lt_mul hpos).mpr (by omega)
  have hleast : 1 ≤ (cnt + 80) / N := (Nat.one_le_div_iff hpos).mpr (by omega)
  obtain ⟨hshort, hfits⟩ := unpack_remnant_lt hpos hval w
  refine ⟨by omega, by omega, hlen, hleft, hshort, hfits, fun c => unpack_chunk_lt hpos, ?_,
    unpack_conserves_bits hpos val cnt w⟩
  rw [hlen, hleft]
  exact Nat.div_add_mod _ _

/-- Settles O39: the words of a span that starts with an empty remnant spell the whole stream that is cut. -/
theorem streamViewOfASpan : Obligations.StreamViewOfASpan := by
  intro N ws hN _ r s t
  have hr : r = ((List.range (80 * t / N)).map (fun j => s / 2 ^ (j * N) % 2 ^ N),
      s / 2 ^ (80 * t / N * N), 80 * t % N) := by
    simpa using unpackAll_eq ws 0 (by omega : 0 < N)
  rw [hr]
  refine ⟨by simp, fun j hj => ?_, rfl, by rw [Nat.mul_comm N]⟩
  rw [List.getD_eq_getElem _ _ (by simpa using hj), List.getElem_map, List.getElem_range]

/-! ## A packet is its chunks (R121, R122, R169, R170) -/

/-- The first steps of a processed packet keep what every elementary write keeps. -/
theorem SessionClosed.packetHead {cfg : CfgRegs} {prm : Params} {P : Session → Prop} (hP : SessionClosed cfg prm P)
    {ch : Channel} (hc : ch = .ir ∨ cfg.digitsEn = true) (seq : BitVec 16) (orbit trig : Word) (pad : Bool)
    {ses : Session} (hs : P ses) : P (packetHead cfg prm ch seq orbit trig pad ses) :=
  hP.lastOrbit ch hc _ _ (hP.frameStep hc _ _ _ (hP.latchOrbit _ (hP.latchPadding _ hs)))

/-- Settles O27: the packet's first steps leave a short remnant, from which cutting the payload word by word dispatches
the chunks of its whole word stream in order. -/
theorem packetIsItsChunksInOrder : Obligations.PacketIsItsChunksInOrder := by
  intro pad len link seq orbit trig data s ch ha hinv hch hproc head asm cut flagged
  obtain ⟨hl, hshort⟩ := hinv.short ha
  obtain ⟨hfit, hcnt⟩ :=
    (remnantsShort_sessionClosed hl s.params).packetHead hproc seq orbit trig pad hshort ch
  exact ⟨_, exec_pkt_processed pad len link seq orbit trig data s ch ha hch hproc,
    packetBody_eq hl s.params ch orbit (payloadBytes len data) hfit hcnt⟩

end Sys2Proof.Machine
end

section
/-! PROOFS of the record builder's invariants (43_record_builder.md R137, R143; R152, R164, R173): what an open interval
leaves without a trace where an output is not enabled, and the interval-start orbit. -/

namespace Sys2Proof.Machine

/-! ## The datapath's part in a command -/

/-- In an open interval no command but SRST writes the session, except that END and a packet run the datapath on it. -/
theorem SessionClosed.execState {s : State} {P : Session → Prop} (hP : SessionClosed s.cfg s.params P)
    (ha : s.engine = .active) {i : Instr} (hi : i ≠ .srst) (hs : P s.ses) : P (execState i s).ses := by
  cases i with
  | srst => exact absurd rfl hi
  | beginInterval =>
    rcases beginOp_cases s with ⟨_, h⟩ | ⟨hna, _⟩ | ⟨hna, _⟩
    · simpa [Machine.execState, h] using hs
    · exact absurd ha hna
    · exact absurd ha hna
  | endInterval =>
    rcases endOp_cases s with ⟨_, h⟩ | ⟨_, h⟩ | ⟨_, h⟩ <;> simp only [Machine.execState, h]
    · exact hP.endIntervalOps hs
    · exact hs
    · exact hs
  | pkt pad herr len linkId seq orbit trig data =>
    rcases pktOp_cases pad herr len linkId seq orbit trig data s with
      ⟨_, _, h⟩ | ⟨_, _, h⟩ | ⟨_, h⟩ | ⟨_, h⟩ <;> simp only [Machine.execState, h]
    · exact hs
    · exact hP.pktDatapath _ _ _ _ _ _ hs
    · exact hs
    · exact hs
  | _ => simpa [Machine.execState] using hs

/-! ## Digits off (R143) -/

/-- R40: the counts of a channel that only BUILD and MERGE advance. -/
def ChanState.counts (c : ChanState) : Word × Word := (c.rej, c.dup)

/-- Writing other fields of a channel keeps the counts of both. -/
theorem Session.setChan_counts {ses : Session} {ch : Channel} {c : ChanState} (h : c.counts = (ses.chan ch).counts)
    (ch' : Channel) : ((ses.setChan ch c).chan ch').counts = (ses.chan ch').counts := by
  by_cases hch : ch' = ch
  · rw [hch, Session.chan_setChan_same, h]
  · rw [Session.chan_setChan_other hch]

/-- R143: the session `ses` shows the digits, the counts and the flags of the Record Builder that `base` does. -/
def BuilderKept (base ses : Session) : Prop :=
  ses.map = base.map ∧ (∀ ch, (ses.chan ch).counts = (base.chan ch).counts) ∧
    ∀ b ∈ buildFlags, ses.hasFlag b = base.hasFlag b

theorem BuilderKept.setChan {base ses : Session} (h : BuilderKept base ses) {ch : Channel} {c : ChanState}
    (hc : c.counts = (ses.chan ch).counts) : BuilderKept base (ses.setChan ch c) := by
  obtain ⟨hmap, hcounts, hflags⟩ := h
  refine ⟨?_, fun ch' => (Session.setChan_counts hc ch').trans (hcounts ch'), fun b hb => ?_⟩
  · rwa [Session.setChan_map]
  · rw [Session.hasFlag_setChan, hflags b hb]

/-- A step of the datapath that leaves the map and the channels alone, and no other flag than one that is not of the
Record Builder, is no trace. -/
theorem BuilderKept.of_frame {base ses ses' : Session} (h : BuilderKept base ses) (hmap : ses'.map = ses.map)
    (hchan : ∀ ch, ses'.chan ch = ses.chan ch) (hflag : ∀ b ∈ buildFlags, ses'.hasFlag b = ses.hasFlag b) :
    BuilderKept base ses' :=
  ⟨hmap.trans h.1, fun ch => by rw [hchan, h.2.1], fun b hb => (hflag b hb).trans (h.2.2 b hb)⟩

theorem ne_of_mem_buildFlags {b c : IErrBit} (hb : b ∈ buildFlags) (hc : c ∉ buildFlags) : b ≠ c :=
  fun h => hc (h ▸ hb)

theorem packetFlags_disjoint : ∀ b ∈ packetFlags, b ∉ buildFlags := by decide

/-- R143, R170: with digits off no chunk reaches BUILD, and the rest of the datapath writes nothing of it. -/
theorem builderKept_sessionClosed {cfg : CfgRegs} (hd : cfg.digitsEn = false) (prm : Params) (base : Session) :
    SessionClosed cfg prm (BuilderKept base) where
  flag c hc ses h := h.of_frame rfl (by simp) fun b hb => by
    simp [ne_of_mem_buildFlags hb (packetFlags_disjoint c hc)]
  chunks _ _ :=
    { flag := fun hen => by simp [hd] at hen
      lcntA := fun _ _ ses h => h.of_frame (by simp) (by simp) fun b hb => by
        simp [ne_of_mem_buildFlags hb (c := .cntovf) (by decide)]
      lcntB := fun _ _ ses h => h.of_frame (by simp) (by simp) fun b hb => by
        simp [ne_of_mem_buildFlags hb (c := .cntovf) (by decide)]
      rej := fun hen => by simp [hd] at hen
      dup := fun hen => by simp [hd] at hen
      fillHalf := fun hen => by simp [hd] at hen
      newKey := fun hen => by simp [hd] at hen }
  unpacked _ _ _ _ h := h.setChan rfl
  noRemnant _ _ h := h.setChan rfl
  padding _ _ _ h := h.of_frame rfl (fun ch => by cases ch <;> rfl) fun _ _ => rfl
  startOrbit _ _ _ h := h.of_frame rfl (fun ch => by cases ch <;> rfl) fun _ _ => rfl
  openFrame _ _ _ _ h := h.setChan rfl
  lastOrbit _ _ _ _ h := h.setChan rfl
  emit _ ses h := h.of_frame (by simp) (by simp) fun b hb => by
    simp [lumiEmit_hasFlag, ne_of_mem_buildFlags hb (c := .lumifull) (by decide)]
  noCounts _ h := h.of_frame rfl (fun ch => by cases ch <;> rfl) fun _ _ => rfl
  unkCh ses h := h.of_frame (by simp) (fun ch => by cases ch <;> simp) fun b hb => by
    simp [ne_of_mem_buildFlags hb (c := .cntovf) (by decide)]

/-- Settles O49: only the datapath of END and PKT writes the session of an open interval, and with digits off it keeps
all that is BUILD's. -/
theorem digitsOffLeavesNoTrace : Obligations.DigitsOffLeavesNoTrace := by
  intro i s t ha hd hi h
  obtain rfl : execState i s = t := by simpa [exec_eq] using h
  obtain ⟨hmap, hcounts, hflags⟩ := (builderKept_sessionClosed hd s.params s.ses).execState ha hi
    ⟨rfl, fun _ => rfl, fun _ _ => rfl⟩
  exact ⟨hmap, fun ch => Prod.mk.inj (hcounts ch), hflags⟩

/-! ## Outputs that are not enabled (R143, R152, R173) -/

/-- R143, R173: no digit, an untouched class-record channel, and no count of the interaction-record channel. -/
def NoDigitTrace (ses : Session) : Prop :=
  ses.map = [] ∧ ses.cl = ChanState.clear ∧ ses.ir.rej = 0#32 ∧ ses.ir.dup = 0#32

/-- R152: no sample and no count. -/
def NoLumiTrace (ses : Session) : Prop := ses.lumi = [] ∧ ses.lcntA = 0#32 ∧ ses.lcntB = 0#32

/-- R143, R152, R173: an output that is not enabled left no trace. -/
def Gated (cfg : CfgRegs) (ses : Session) : Prop :=
  (cfg.digitsEn = false → NoDigitTrace ses) ∧ (cfg.lumiEn = false → NoLumiTrace ses)

/-- A write of the session keeps the gates where each trace is kept while its output is off. -/
theorem Gated.step {cfg : CfgRegs} {ses ses' : Session} (h : Gated cfg ses)
    (hdig : cfg.digitsEn = false → NoDigitTrace ses → NoDigitTrace ses')
    (hlum : cfg.lumiEn = false → NoLumiTrace ses → NoLumiTrace ses') : Gated cfg ses' :=
  ⟨fun hd => hdig hd (h.1 hd), fun hl => hlum hl (h.2 hl)⟩

/-- Writing a channel's frame fields or remnant leaves no trace of the digits: with digits off it is the
interaction-record channel (R173), or the class-record channel's reset values. -/
theorem Gated.setChan {cfg : CfgRegs} {ses : Session} (h : Gated cfg ses) {ch : Channel} {c : ChanState}
    (hc : c.counts = (ses.chan ch).counts) (hoff : ch = .ir ∨ cfg.digitsEn = true ∨ (ses.cl = .clear → c = .clear)) :
    Gated cfg (ses.setChan ch c) := by
  refine h.step (fun hd ⟨hmap, hcl, hrej, hdup⟩ => ?_) (fun _ hl => by simpa [NoLumiTrace] using hl)
  cases ch with
  | ir =>
    obtain ⟨hrej', hdup'⟩ := Prod.mk.inj hc
    exact ⟨hmap, hcl, hrej'.trans hrej, hdup'.trans hdup⟩
  | cl =>
    have hclear : ses.cl = .clear → c = .clear := by simpa [hd] using hoff
    exact ⟨hmap, hclear hcl, hrej, hdup⟩

/-- R143, R152, R173: each elementary write of a trace happens with its output enabled. -/
theorem gated_sessionClosed (cfg : CfgRegs) (prm : Params) : SessionClosed cfg prm (Gated cfg) where
  flag _ _ _ h := h
  chunks _ _ :=
    { flag := fun _ _ _ _ h => h
      lcntA := fun _ hl ses h => h.step (fun _ hd => by simpa [NoDigitTrace] using hd) (by simp [hl])
      lcntB := fun _ hl ses h => h.step (fun _ hd => by simpa [NoDigitTrace] using hd) (by simp [hl])
      rej := fun hd ses h => h.step (by simp [hd]) (fun _ hl => by simpa [NoLumiTrace] using hl)
      dup := fun hd ses h => h.step (by simp [hd]) (fun _ hl => by simpa [NoLumiTrace] using hl)
      fillHalf := fun hd ses _ _ _ h _ _ _ => h.step (by simp [hd]) fun _ hl => hl
      newKey := fun hd ses _ _ h _ _ _ _ => h.step (by simp [hd]) fun _ hl => hl }
  unpacked _ hproc _ _ h := h.setChan rfl (hproc.imp_right .inl)
  noRemnant ch ses h := by
    cases ch with
    | ir => exact h.setChan rfl (.inl rfl)
    | cl => exact h.setChan rfl (.inr (.inr fun hcl => by rw [Session.chan_cl, hcl]; rfl))
  padding _ _ _ h := h
  startOrbit _ _ _ h := h
  openFrame _ hproc _ _ h := h.setChan rfl (hproc.imp_right .inl)
  lastOrbit _ hproc _ _ h := h.setChan rfl (hproc.imp_right .inl)
  emit hl ses h := h.step (fun _ hd => by simpa [NoDigitTrace] using hd) (by simp [hl])
  noCounts _ h := h.step (fun _ hd => hd) fun _ hl => ⟨hl.1, rfl, rfl⟩
  unkCh ses h := h.step (fun _ hd => by simpa [NoDigitTrace] using hd) fun _ hl => by simpa [NoLumiTrace] using hl

theorem gateInv_stepClosed : StepClosed State.GateInv :=
  StepClosed.ofActive (P := Gated) (fun _ _ => ⟨fun _ => ⟨rfl, rfl, rfl, rfl⟩, fun _ => ⟨rfl, rfl, rfl⟩⟩)
    gated_sessionClosed

/-- Settles O58: BEGIN opens an interval without a trace, and the datapath writes a trace only where its output is
enabled. -/
theorem stepKeepsGateInv : Obligations.StepKeepsGateInv := fun _ _ => gateInv_stepClosed.keeps

/-! ## The interval-start orbit (R137, R164) -/

/-- R137: the interval-start orbit is latched and no digit lies before it. -/
def DigitsFromStart (ses : Session) : Prop :=
  ses.ioLatched = true ∧ ∀ p ∈ ses.map, ses.intervalOrbit.toNat ≤ p.1.orbit.toNat

/-- Writing an entry at an orbit that is not before the start keeps every digit so. -/
theorem DigitsFromStart.putKey {ses : Session} (h : DigitsFromStart ses) {key : Key}
    (hkey : ses.intervalOrbit.toNat ≤ key.orbit.toNat) (e : Entry) :
    DigitsFromStart { ses with map := putKey key e ses.map } := by
  refine ⟨h.1, fun p hp => ?_⟩
  rcases mem_putKey hp with rfl | hp
  · exact hkey
  · exact h.2 p hp

/-- R137, R164: once the orbit is latched it stays, and BUILD rejects what lies before it. -/
theorem digitsFromStart_sessionClosed (cfg : CfgRegs) (prm : Params) : SessionClosed cfg prm DigitsFromStart where
  flag _ _ _ h := h
  chunks _ _ :=
    { flag := fun _ _ _ _ h => h
      lcntA := fun _ _ ses h => by simpa [DigitsFromStart] using h
      lcntB := fun _ _ ses h => by simpa [DigitsFromStart] using h
      rej := fun _ ses h => by simpa [DigitsFromStart] using h
      dup := fun _ ses h => by simpa [DigitsFromStart] using h
      fillHalf := fun _ _ _ _ _ h _ hl _ => h.putKey (h.2 _ (lookupKey_mem hl)) _
      newKey := fun _ _ _ _ h _ _ _ hkey => h.putKey hkey _ }
  unpacked _ _ ses _ h := by simpa [DigitsFromStart] using h
  noRemnant _ ses h := by simpa [DigitsFromStart] using h
  padding _ _ _ h := h
  startOrbit _ _ hno h := by simp [h.1] at hno
  openFrame _ _ ses _ h := by simpa [DigitsFromStart] using h
  lastOrbit _ _ ses _ h := by simpa [DigitsFromStart, Session.setLastOrbit] using h
  emit _ ses h := by simpa [DigitsFromStart] using h
  noCounts _ h := h
  unkCh ses h := by simpa [DigitsFromStart] using h

/-- R164: before the orbit is latched there is no digit and no remnant to make one from. -/
def NothingRecorded (ses : Session) : Prop :=
  ses.ioLatched = false ∧ ses.map = [] ∧ ∀ ch, (ses.chan ch).remCnt = 0#7

/-- R137, R164: the orbit is latched, or nothing is recorded. -/
def IntervalOk (ses : Session) : Prop := DigitsFromStart ses ∨ NothingRecorded ses

theorem State.intervalInv_iff (s : State) : s.IntervalInv ↔ IntervalOk s.ses := by
  unfold State.IntervalInv IntervalOk DigitsFromStart NothingRecorded
  cases s.ses.ioLatched with
  | true => simp
  | false => simpa using fun hmap _ => by simp [hmap]

/-- R164: a processed packet latches the orbit before anything is recorded. -/
theorem NothingRecorded.processPacket {ses : Session} (h : NothingRecorded ses) {cfg : CfgRegs} (prm : Params)
    {ch : Channel} (hproc : ch = .ir ∨ cfg.digitsEn = true) (seq : BitVec 16) (orbit trig : Word) (pad : Bool)
    (bytes : List Byte) : DigitsFromStart (processPacket cfg prm ch seq orbit trig pad bytes ses) := by
  have hhead : DigitsFromStart (packetHead cfg prm ch seq orbit trig pad ses) := by simp [DigitsFromStart, h.2.1]
  exact ((digitsFromStart_sessionClosed cfg prm).body hproc).packetBody orbit bytes hhead

theorem NothingRecorded.pktDatapath {ses : Session} (h : NothingRecorded ses) (cfg : CfgRegs) (prm : Params)
    (linkId seq : BitVec 16) (orbit trig : Word) (pad : Bool) (bytes : List Byte) :
    IntervalOk (pktDatapath cfg prm linkId seq orbit trig pad bytes ses) := by
  unfold Machine.pktDatapath
  split
  · exact .inr (by simpa [NothingRecorded, Session.chan] using h)
  · exact .inl (h.processPacket prm (.inl rfl) _ _ _ _ _)
  · split
    · next hd => exact .inl (h.processPacket prm (.inr hd) _ _ _ _ _)
    · exact .inr h

/-- R171: with no remnant END has nothing to flush. -/
theorem NothingRecorded.endIntervalOps {ses : Session} (h : NothingRecorded ses) (cfg : CfgRegs) (prm : Params) :
    NothingRecorded (endIntervalOps cfg prm ses) := by
  have hflush : ∀ ch, flush cfg prm ch ses = ses := fun ch => if_pos (h.2.2 ch)
  unfold Machine.endIntervalOps
  rw [hflush, hflush]
  dsimp only
  split
  · simpa [NothingRecorded] using h
  · exact h

theorem intervalOk_clear : IntervalOk Session.clear := .inr ⟨rfl, rfl, fun ch => by cases ch <;> rfl⟩

theorem IntervalOk.pktDatapath {ses : Session} (h : IntervalOk ses) (cfg : CfgRegs) (prm : Params)
    (linkId seq : BitVec 16) (orbit trig : Word) (pad : Bool) (bytes : List Byte) :
    IntervalOk (pktDatapath cfg prm linkId seq orbit trig pad bytes ses) := by
  rcases h with h | h
  · exact .inl ((digitsFromStart_sessionClosed cfg prm).pktDatapath linkId seq orbit trig pad bytes h)
  · exact h.pktDatapath cfg prm linkId seq orbit trig pad bytes

theorem IntervalOk.endIntervalOps {ses : Session} (h : IntervalOk ses) (cfg : CfgRegs) (prm : Params) :
    IntervalOk (endIntervalOps cfg prm ses) :=
  h.imp (digitsFromStart_sessionClosed cfg prm).endIntervalOps fun h => h.endIntervalOps cfg prm

theorem intervalOk_stepClosed : StepClosed (fun s => IntervalOk s.ses) where
  reset _ _ _ hses _ _ _ _ := hses ▸ intervalOk_clear
  same _ _ hs _ _ hses _ _ _ := hses ▸ hs
  config _ _ hs _ _ hses _ _ _ := hses ▸ hs
  aborts _ _ hs _ _ _ hses _ _ := hses ▸ hs
  begins _ _ _ _ _ hses _ _ _ := hses ▸ intervalOk_clear
  refuses _ _ _ _ hses _ _ := hses ▸ intervalOk_clear
  ends s _ hs _ _ _ hses _ _ _ := hses ▸ hs.endIntervalOps s.cfg s.params
  packet s _ linkId seq orbit trig pad bytes hs _ _ _ hses _ _ _ :=
    hses ▸ hs.pktDatapath s.cfg s.params linkId seq orbit trig pad bytes

/-- Settles O56: a packet latches the orbit before its chunks reach BUILD, which rejects what lies before it; END has
nothing to flush until then. -/
theorem stepKeepsIntervalInv : Obligations.StepKeepsIntervalInv := fun s t hs h =>
  t.intervalInv_iff.mpr (intervalOk_stepClosed.keeps (s.intervalInv_iff.mp hs) h)

end Sys2Proof.Machine
end

section
/-! PROOFS of the record builder's statements (43_record_builder.md R131 to R145): what BUILD drops, rejects and merges,
and MERGE by what every key looks up. -/

namespace Sys2Proof.Machine

/-! ## The outcomes of MERGE (R139 to R141) -/

section
variable {prm : Params} {ch : Channel} {key : Key} {ses : Session} {e : Entry}

theorem merge_of_set (hl : lookupKey key ses.map = some e) (he : e.isSet ch = true) (pay : Nat) :
    merge prm ch key pay ses = (ses.incDup ch).flag .dup := by simp [merge, hl, he]

theorem merge_of_unset (hl : lookupKey key ses.map = some e) (he : e.isSet ch = false) (pay : Nat) :
    merge prm ch key pay ses = { ses with map := putKey key (e.fill ch pay) ses.map } := by simp [merge, hl, he]

theorem merge_of_full (hl : lookupKey key ses.map = none) (hcap : ses.map.length = prm.mapCap.toNat) (pay : Nat) :
    merge prm ch key pay ses = ses.flag .mapfull := by simp [merge, hl, hcap]

theorem merge_of_absent (hl : lookupKey key ses.map = none) (hcap : ses.map.length ≠ prm.mapCap.toNat) (pay : Nat) :
    merge prm ch key pay ses = { ses with map := putKey key (Entry.empty.fill ch pay) ses.map } := by
  simp [merge, hl, hcap]

end

/-- MERGE leaves the map alone or writes the entry of its key. -/
theorem merge_map_cases (prm : Params) (ch : Channel) (key : Key) (pay : Nat) (ses : Session) :
    (merge prm ch key pay ses).map = ses.map ∨ ∃ e, (merge prm ch key pay ses).map = putKey key e ses.map := by
  rcases merge_cases prm ch key pay ses with ⟨e, _, _, h⟩ | ⟨e, _, _, h⟩ | ⟨_, _, h⟩ | ⟨_, _, h⟩ <;> rw [h]
  · exact .inl (by simp)
  · exact .inr ⟨_, rfl⟩
  · exact .inl rfl
  · exact .inr ⟨_, rfl⟩

theorem merge_sorted {ses : Session} (hs : SortedMap ses.map) (prm : Params) (ch : Channel) (key : Key) (pay : Nat) :
    SortedMap (merge prm ch key pay ses).map := by
  rcases merge_map_cases prm ch key pay ses with h | ⟨e, h⟩ <;> rw [h]
  · exact hs
  · exact putKey_sorted hs key e

theorem lookupKey_merge_other {k key : Key} (hk : k ≠ key) (prm : Params) (ch : Channel) (pay : Nat) (ses : Session) :
    lookupKey k (merge prm ch key pay ses).map = lookupKey k ses.map := by
  rcases merge_map_cases prm ch key pay ses with h | ⟨e, h⟩ <;> rw [h]
  exact lookupKey_putKey_other hk e ses.map

/-- Settles O42: each of MERGE's four outcomes, by the lookups after its one write of the map. -/
theorem mergeByLookups : Obligations.MergeByLookups := by
  intro prm ch key pay ses hs after
  refine ⟨merge_sorted hs prm ch key pay, fun k hk => lookupKey_merge_other hk prm ch pay ses,
    fun e hl he => ?_, fun e hl he => ?_, fun hl hcap => ?_, fun hl hcap => ?_⟩
  · have h : after = (ses.incDup ch).flag .dup := merge_of_set hl he pay
    rw [h, Session.incDup_eq]
    rfl
  · have h : after = { ses with map := putKey key (e.fill ch pay) ses.map } := merge_of_unset hl he pay
    rw [h]
    exact ⟨rfl, length_putKey_present hs hl _, e.fill ch pay, lookupKey_putKey_same .., e.fill_isSet ch pay,
      e.fill_mask ch pay, fun ch' hch => ⟨Entry.fill_isSet_other hch e pay, Entry.fill_mask_other hch e pay⟩⟩
  · exact merge_of_full hl hcap pay
  · have h : after = { ses with map := putKey key (Entry.empty.fill ch pay) ses.map } := merge_of_absent hl hcap pay
    rw [h]
    refine ⟨rfl, length_putKey_absent hl _, Entry.empty.fill ch pay, lookupKey_putKey_same .., Entry.fill_isSet ..,
      Entry.fill_mask .., fun ch' hch => ?_⟩
    rw [Entry.fill_isSet_other hch, Entry.fill_mask_other hch]
    cases ch' <;> exact ⟨rfl, rfl⟩

/-! ## The order of merges (R145) -/

/-- R139, R140: what MERGE makes of a key's entry: the first contribution of a channel wins. -/
def Entry.record (ch : Channel) (pay : Nat) (e : Entry) : Entry := if e.isSet ch then e else e.fill ch pay

theorem Entry.fill_comm {ch ch' : Channel} (h : ch ≠ ch') (pay pay' : Nat) (e : Entry) :
    (e.fill ch' pay').fill ch pay = (e.fill ch pay).fill ch' pay' := by
  cases ch <;> cases ch' <;> first | rfl | exact absurd rfl h

/-- R142: the two channels' halves of an entry are recorded independently. -/
theorem Entry.record_comm {ch ch' : Channel} (h : ch ≠ ch') (pay pay' : Nat) (e : Entry) :
    (e.record ch' pay').record ch pay = (e.record ch pay).record ch' pay' := by
  have hkeep := Entry.fill_isSet_other h e pay'
  have hkeep' := Entry.fill_isSet_other h.symm e pay
  cases hs : e.isSet ch <;> cases hs' : e.isSet ch' <;> simp [Entry.record, hs, hs', hkeep, hkeep', Entry.fill_comm h]

/-- Where there is room, MERGE records its contribution at its key, in the entry that is there or in a new one. -/
theorem lookupKey_merge_same {prm : Params} {ses : Session} (hroom : ses.map.length ≠ prm.mapCap.toNat) (ch : Channel)
    (key : Key) (pay : Nat) : lookupKey key (merge prm ch key pay ses).map =
      some (((lookupKey key ses.map).getD Entry.empty).record ch pay) := by
  rcases merge_cases prm ch key pay ses with ⟨e, hl, he, h⟩ | ⟨e, hl, he, h⟩ | ⟨_, hfull, _⟩ | ⟨hl, _, h⟩
  · simp [h, hl, he, Entry.record]
  · simp [h, hl, he, Entry.record]
  · exact absurd hfull hroom
  · cases ch <;> simp [h, hl, Entry.record, Entry.isSet, Entry.empty]

theorem length_merge_le {ses : Session} (hs : SortedMap ses.map) (prm : Params) (ch : Channel) (key : Key) (pay : Nat) :
    (merge prm ch key pay ses).map.length ≤ ses.map.length + 1 := by
  rcases merge_cases prm ch key pay ses with ⟨e, _, _, h⟩ | ⟨e, hl, _, h⟩ | ⟨_, _, h⟩ | ⟨hl, _, h⟩ <;> rw [h]
  · simp
  · simp [length_putKey_present hs hl]
  · simp
  · simp [length_putKey_absent hl]

/-- Settles O43: a sorted map is its lookups, and what the two merges record at a key does not depend on their order. -/
theorem mergeOrderDoesNotMatter : Obligations.MergeOrderDoesNotMatter := by
  intro prm ch ch' k k' pay pay' ses hs hne hroom
  have h0 : ses.map.length ≠ prm.mapCap.toNat := by omega
  have h1 : ∀ c x p, (merge prm c x p ses).map.length ≠ prm.mapCap.toNat := fun c x p => by
    have := length_merge_le hs prm c x p
    omega
  refine map_ext (merge_sorted (merge_sorted hs ..) ..) (merge_sorted (merge_sorted hs ..) ..) fun x => ?_
  by_cases hx : x = k
  · subst hx
    by_cases hx' : x = k'
    · subst hx'
      have hch : ch ≠ ch' := by simpa using hne
      simp only [lookupKey_merge_same h0, lookupKey_merge_same (h1 _ _ _), Option.getD_some, Entry.record_comm hch]
    · rw [lookupKey_merge_same (h1 _ _ _), lookupKey_merge_other hx', lookupKey_merge_other hx',
        lookupKey_merge_same h0]
  · rw [lookupKey_merge_other hx]
    by_cases hx' : x = k'
    · subst hx'
      rw [lookupKey_merge_same h0, lookupKey_merge_same (h1 _ _ _), lookupKey_merge_other hx]
    · rw [lookupKey_merge_other hx', lookupKey_merge_other hx', lookupKey_merge_other hx]

/-! ## The outcomes of BUILD (R131 to R138) -/

section
variable {cfg : CfgRegs} {ch : Channel} {c : Chunk} {orbit : Word} {ses : Session}

theorem build_of_pay_zero (h : chunkPay (cfg.width ch) c = 0) (prm : Params) : build cfg prm ch c orbit ses = ses := by
  simp [build, h]

variable (hpay : chunkPay (cfg.width ch) c ≠ 0)
include hpay

theorem build_of_bc_ge (hbc : 3564 ≤ chunkBc c) (prm : Params) :
    build cfg prm ch c orbit ses = ses.flag .bcrange := by
  simp [build, hpay, hbc]

variable (hbc : chunkBc c < 3564)
include hbc

/-- R137: a rejection is counted, and flagged where the source's own rule did not reject. -/
theorem build_of_reject (h : rejectA cfg ch (chunkBc c) orbit ses ∨ rejectB cfg ch (chunkBc c) orbit ses)
    (prm : Params) : build cfg prm ch c orbit ses =
      if rejectA cfg ch (chunkBc c) orbit ses then ses.incRej ch else (ses.incRej ch).flag .clarify := by
  rcases build_cases cfg prm ch c orbit ses with
    ⟨h0, -⟩ | ⟨-, hge, -⟩ | ⟨-, -, hA, hb⟩ | ⟨-, -, hA, -, hb⟩ | ⟨-, -, hA, hB, -⟩ | ⟨-, -, hA, hB, -⟩
  · exact absurd h0 hpay
  · omega
  · rw [hb, if_pos hA]
  · rw [hb, if_neg hA]
  · exact absurd h (not_or.mpr ⟨hA, hB⟩)
  · exact absurd h (not_or.mpr ⟨hA, hB⟩)

/-- R138: a corrected point past the last orbit. -/
theorem build_of_late (hA : ¬ rejectA cfg ch (chunkBc c) orbit ses) (hB : ¬ rejectB cfg ch (chunkBc c) orbit ses)
    (hT : (2 ^ 32 * 3564 : Int) ≤ (orbit.toNat * 3564 + chunkBc c : Int) - cfg.offset ch) (prm : Params) :
    build cfg prm ch c orbit ses = ses.flag .timerange := by
  rcases build_cases cfg prm ch c orbit ses with
    ⟨h0, -⟩ | ⟨-, hge, -⟩ | ⟨-, -, hA', -⟩ | ⟨-, -, -, hB', -⟩ | ⟨-, -, -, -, -, hb⟩ | ⟨-, -, -, -, key, hkey, -⟩
  · exact absurd h0 hpay
  · omega
  · exact absurd hA' hA
  · exact absurd hB' hB
  · exact hb
  · have horbit := key.orbit.isLt
    have hkbc := key.bc.isLt
    unfold Key.time at hkey
    omega

end

/-- Settles O40: the one outcome of BUILD that no check takes, on a chunk made of the bc and the payload. -/
theorem buildCorrectsTheKey : Obligations.BuildCorrectsTheKey := by
  intro cfg prm ch bc pay orbit ses hl hbc hpay hlt off tc hA hB hT
  have hoff : cfg.offset ch = off := by cases ch <;> rfl
  have hchunkBc : chunkBc (pay * 2 ^ 12 + bc) = bc := chunkBc_mk (by omega) pay
  have hchunkPay : chunkPay (cfg.width ch) (pay * 2 ^ 12 + bc) = pay :=
    chunkPay_mk (cfg.legal_width hl ch).1 (by omega) hlt
  obtain ⟨key, hkey, hbuild⟩ := build_eq_merge (cfg := cfg) prm (ch := ch) (c := pay * 2 ^ 12 + bc) (orbit := orbit)
    (ses := ses) (by rwa [hchunkPay]) (by rwa [hchunkBc]) (by rwa [hchunkBc, rejectA, hoff])
    (by rw [hchunkBc, rejectB, hoff]; exact not_lt.mpr hB) (by rwa [hchunkBc, hoff])
  refine ⟨key, ?_, by rwa [hchunkPay] at hbuild⟩
  rw [hchunkBc, hoff] at hkey
  exact_mod_cast hkey

/-- Settles O41: each check of BUILD in turn, on a chunk made of the bc and the payload. -/
theorem buildDropsAndRejects : Obligations.BuildDropsAndRejects := by
  intro cfg prm ch bc pay orbit ses hl hbc hlt off tc rejA rejB after
  have hoff : cfg.offset ch = off := by cases ch <;> rfl
  have hchunkBc : chunkBc (pay * 2 ^ 12 + bc) = bc := chunkBc_mk hbc pay
  have hchunkPay : chunkPay (cfg.width ch) (pay * 2 ^ 12 + bc) = pay :=
    chunkPay_mk (cfg.legal_width hl ch).1 hbc hlt
  have hA : rejectA cfg ch (chunkBc (pay * 2 ^ 12 + bc)) orbit ses ↔ rejA := by rw [hchunkBc, rejectA, hoff]
  have hB : rejectB cfg ch (chunkBc (pay * 2 ^ 12 + bc)) orbit ses ↔ rejB := by rw [hchunkBc, rejectB, hoff]
  refine ⟨fun h0 => ?_, fun h0 hge => ?_, fun h0 hin hrej => ?_, fun h0 hin hnA hnB hT => ?_⟩
  · exact build_of_pay_zero (by rwa [hchunkPay]) prm
  · exact build_of_bc_ge (by rwa [hchunkPay]) (by rwa [hchunkBc]) prm
  · have h : after = _ := build_of_reject (by rwa [hchunkPay]) (by rwa [hchunkBc]) (by rwa [hA, hB]) prm
    rw [h, Session.incRej_eq]
    by_cases hrA : rejA
    · rw [if_pos (hA.mpr hrA), if_pos hrA, BitVec.or_zero]
    · rw [if_neg (mt hA.mp hrA), if_neg hrA]
      rfl
  · exact build_of_late (by rwa [hchunkPay]) (by rwa [hchunkBc]) (by rwa [hA]) (by rwa [hB])
      (by rwa [hchunkBc, hoff]) prm

end Sys2Proof.Machine
end

section
/-! PROOFS of the luminosity accumulator's statements (44_lumi_accumulator.md R151 to R157): the counts of a chunk, the
sample of a frame start, the gate, and the independence from the digit path. -/

namespace Sys2Proof.Machine

/-! ## The counts of a chunk (R151, R153) -/

/-- R153: a match is a bit of the payload, below the chunk's width, that the mask shares. -/
theorem patternMatches_iff {N : Nat} (hN : 13 ≤ N) (m : Mask96) (c : Chunk) :
    patternMatches m (N - 12) (chunkPay N c) = true ↔
      ∃ i, i + 12 < N ∧ c.testBit (i + 12) = true ∧ m.value.getLsbD i = true := by
  have hbit : ∀ i, (chunkPay N c &&& (m.value.toNat % 2 ^ (N - 12))).testBit i = true ↔
      i + 12 < N ∧ c.testBit (i + 12) = true ∧ m.value.getLsbD i = true := fun i => by
    have hlt : i < N - 12 ↔ i + 12 < N := by omega
    rw [chunkPay_eq hN, Nat.testBit_and, show (4096 : Nat) = 2 ^ 12 from rfl, Nat.testBit_mod_two_pow,
      Nat.testBit_mod_two_pow, Nat.testBit_div_two_pow, BitVec.testBit_toNat]
    simp only [Bool.and_eq_true, decide_eq_true_eq, hlt]
    tauto
  simp only [← hbit, patternMatches, bne_iff_ne]
  constructor
  · intro hne
    by_contra hnone
    exact hne (Nat.zero_of_testBit_eq_false fun i => by simpa using not_exists.mp hnone i)
  · rintro ⟨i, hi⟩ h0
    simp [h0] at hi

/-- R45: a counter wraps exactly where it held all ones. -/
theorem count_wraps_iff (x : Word) : x + 1#32 = 0#32 ↔ x = 0xFFFFFFFF#32 := by bv_omega

/-- R45, R151: LUMI_COUNT sets CNTOVF exactly where a count that it advances wraps. -/
theorem lumiCount_hasFlag_cntovf (cfg : CfgRegs) (c : Chunk) (ses : Session) :
    (lumiCount cfg c ses).hasFlag .cntovf = true ↔ ses.hasFlag .cntovf = true ∨
      (patternMatches cfg.lmaskA (cfg.width .ir - 12) (chunkPay (cfg.width .ir) c) = true ∧
        ses.lcntA = 0xFFFFFFFF#32) ∨
      (patternMatches cfg.lmaskB (cfg.width .ir - 12) (chunkPay (cfg.width .ir) c) = true ∧
        ses.lcntB = 0xFFFFFFFF#32) := by
  unfold lumiCount
  dsimp only
  split <;> split <;> simp [*, count_wraps_iff, or_assoc]

/-- Settles O44: bit by bit, a pattern's match is a shared bit, and each count is advanced by its own pattern. -/
theorem lumiCountsPatterns : Obligations.LumiCountsPatterns := by
  intro cfg c ses hl hit after
  have hmatch : ∀ m, patternMatches m (cfg.width .ir - 12) (chunkPay (cfg.width .ir) c) = true ↔ hit m :=
    fun m => patternMatches_iff (cfg.legal_width hl .ir).1 m c
  have hA : after.lcntA = _ := lumiCount_lcntA cfg ses c
  have hB : after.lcntB = _ := lumiCount_lcntB cfg ses c
  have hframe : after = { ses with lcntA := after.lcntA, lcntB := after.lcntB, ierr := after.ierr } := by
    obtain ⟨a, b, e, h⟩ : ∃ a b e, after = _ := lumiCount_frame cfg c ses
    rw [h]
  have hovf := lumiCount_hasFlag_cntovf cfg c ses
  simp only [hmatch] at hovf
  exact ⟨hframe, fun h => hA.trans (if_pos ((hmatch _).mpr h)), fun h => hA.trans (if_neg (mt (hmatch _).mp h)),
    fun h => hB.trans (if_pos ((hmatch _).mpr h)), fun h => hB.trans (if_neg (mt (hmatch _).mp h)),
    fun b hb => lumiCount_hasFlag hb cfg c ses, hovf⟩

/-! ## Luminosity off, and the class-record channel (R152) -/

/-- R152: no count, the samples that `base` has, and its LUMIFULL. -/
def LumiQuiet (base ses : Session) : Prop :=
  ses.lumiPart = (0#32, 0#32, base.lumi) ∧ ses.hasFlag .lumifull = base.hasFlag .lumifull

/-- A write of the session that leaves the luminosity part and LUMIFULL alone keeps the luminosity quiet. -/
theorem LumiQuiet.of_frame {base ses ses' : Session} (h : LumiQuiet base ses) (hpart : ses'.lumiPart = ses.lumiPart)
    (hflag : ses'.hasFlag .lumifull = ses.hasFlag .lumifull) : LumiQuiet base ses' :=
  ⟨hpart.trans h.1, hflag.trans h.2⟩

@[simp] theorem Session.setChan_lumiPart (ch : Channel) (c : ChanState) (ses : Session) :
    (ses.setChan ch c).lumiPart = ses.lumiPart := by
  simp [Session.lumiPart]

/-- R152, R155, R170: with luminosity off no chunk reaches LUMI_COUNT and no sample is emitted; the rest of the datapath
clears the counts at most. -/
theorem lumiQuiet_sessionClosed {cfg : CfgRegs} (hoff : cfg.lumiEn = false) (prm : Params) (base : Session) :
    SessionClosed cfg prm (LumiQuiet base) where
  flag b hb ses h := h.of_frame rfl (by
    have hne : IErrBit.lumifull ≠ b := fun e => absurd (e ▸ hb) (by decide)
    simp [hne])
  chunks ch _ :=
    { flag := fun _ b hb ses h => h.of_frame rfl (by simp [(ne_of_mem_buildFlags hb (c := .lumifull) (by decide)).symm])
      lcntA := fun _ hen => by simp [hoff] at hen
      lcntB := fun _ hen => by simp [hoff] at hen
      rej := fun _ ses h => h.of_frame (by simp [Session.lumiPart]) (by simp)
      dup := fun _ ses h => h.of_frame (by simp [Session.lumiPart]) (by simp)
      fillHalf := fun _ _ _ _ _ h _ _ _ => h
      newKey := fun _ _ _ _ h _ _ _ _ => h }
  unpacked ch _ _ _ h := h.of_frame (Session.setChan_lumiPart ch _ _) (by simp)
  noRemnant ch _ h := h.of_frame (Session.setChan_lumiPart ch _ _) (by simp)
  padding _ _ _ h := h
  startOrbit _ _ _ h := h
  openFrame ch _ _ _ h := h.of_frame (Session.setChan_lumiPart ch _ _) (by simp)
  lastOrbit ch _ _ _ h := h.of_frame (Session.setChan_lumiPart ch _ _) (by simp [Session.setLastOrbit])
  emit hen := by simp [hoff] at hen
  noCounts _ h := ⟨congrArg (fun p => (0#32, 0#32, p.2.2)) h.1, h.2⟩
  unkCh ses h := h.of_frame (by simp [Session.lumiPart]) (by simp)

/-- Settles O50: with luminosity off the datapath keeps the luminosity quiet; and a class-record packet either leaves the
session alone or is processed on its own channel, which has no part in the luminosity. -/
theorem lumiOffLeavesNoTrace : Obligations.LumiOffLeavesNoTrace := by
  intro i s t ha h
  refine ⟨fun hoff hi hA hB => ?_, ?_⟩
  · obtain rfl : execState i s = t := by simpa [exec_eq] using h
    obtain ⟨hpart, hflag⟩ := (lumiQuiet_sessionClosed hoff s.params s.ses).execState ha hi
      ⟨by simp [Session.lumiPart, hA, hB], rfl⟩
    simp only [Session.lumiPart, Prod.mk.injEq] at hpart
    obtain ⟨hcntA, hcntB, hlumi⟩ := hpart
    exact ⟨hcntA, hcntB, hlumi, hflag⟩
  · rintro pad herr len link seq orbit trig data rfl hch
    have hpart : t.ses.lumiPart = s.ses.lumiPart := by
      rcases exec_pkt_ses hch h with hses | hses <;> rw [hses]
      exact processPacket_cl_lumiPart _ _ _ _ _ _ _ _
    simpa [Session.lumiPart] using hpart

/-! ## The frame start of the interaction-record channel (R155 to R157, R166) -/

/-- R155: the samples after the frame that is open is closed with luminosity on. -/
def emittedLumi (cfg : CfgRegs) (prm : Params) (ses : Session) : List LumiSample :=
  if cfg.lumiEn && ses.ir.fopen then (lumiEmit prm ses).lumi else ses.lumi

section
variable (cfg : CfgRegs) (prm : Params) (seq : BitVec 16) (orbit trig : Word) (pad : Bool) (ses : Session)

/-- R155, R166: a frame start clears the counts, and emits the sample of an open frame with luminosity on. -/
theorem frameStart_ir_lumiPart :
    (frameStart cfg prm .ir orbit ses).lumiPart = (0#32, 0#32, emittedLumi cfg prm ses) := by
  unfold frameStart emittedLumi
  dsimp only
  split <;> rfl

/-- R155, R166: the luminosity part after the first steps of an interaction-record packet. -/
theorem packetHead_ir_lumiPart : (packetHead cfg prm .ir seq orbit trig pad ses).lumiPart =
    if cfg.isFrameStart trig seq then (0#32, 0#32, emittedLumi cfg prm ses) else ses.lumiPart := by
  have hlatch : emittedLumi cfg prm (latchOrbit orbit (latchPadding pad ses)) = emittedLumi cfg prm ses := by
    simp [emittedLumi, lumiEmit_lumi]
  rw [packetHead, Session.setLastOrbit, Session.setChan_lumiPart, frameStep]
  split
  · rw [frameStart_ir_lumiPart, hlatch]
  · split <;> simp [Session.lumiPart]

/-- R112, R169: a packet without data is its first steps. -/
theorem processPacket_nil (ch : Channel) : processPacket cfg prm ch seq orbit trig pad [] ses =
    packetHead cfg prm ch seq orbit trig pad ses := rfl

end

/-- Settles O47: a packet without data is its first steps, whose effect on each part of the session is known. -/
theorem frameStartEmitsSample : Obligations.FrameStartEmitsSample := by
  intro pad link seq orbit trig s ha hch htrig hseq
  let head := packetHead s.cfg s.params .ir seq orbit trig pad s.ses
  have hexec : exec (.pkt pad false 0#16 link seq orbit trig []) s =
      .next (State.retire (4 + dataWords 0#16) { s with ses := head }) := by
    rw [exec_pkt_processed pad 0#16 link seq orbit trig [] s .ir ha hch (.inl rfl),
      show payloadBytes 0#16 [] = [] from rfl, processPacket_nil]
  have hstart : s.cfg.isFrameStart trig seq = true := by simp [CfgRegs.isFrameStart, htrig, hseq]
  have hpart : head.lumiPart = _ := packetHead_ir_lumiPart s.cfg s.params seq orbit trig pad s.ses
  have hir : head.ir = _ := packetHead_chan_same s.cfg s.params .ir seq orbit trig pad s.ses
  have hcl : head.cl = s.ses.cl := packetHead_chan_other s.cfg s.params .ir seq orbit trig pad s.ses
    (ch' := .cl) (by decide)
  have hmap : head.map = s.ses.map := packetHead_map s.cfg s.params .ir seq orbit trig pad s.ses
  have hflag : ∀ b, head.hasFlag b = _ := packetHead_hasFlag s.cfg s.params .ir seq orbit trig pad s.ses
  have hfull : head.hasFlag .lumifull = (s.ses.hasFlag .lumifull ||
      (s.cfg.lumiEn && s.ses.ir.fopen && decide (s.ses.lumi.length = s.params.lumiCap.toNat))) := by
    simp [hflag, hstart]
  simp only [Session.lumiPart, hstart, if_true, emittedLumi, lumiEmit_lumi, Prod.mk.injEq] at hpart
  rw [hstart, if_pos rfl] at hir
  obtain ⟨hcntA, hcntB, hlumi⟩ := hpart
  refine ⟨_, hexec, ?_⟩
  simp only [State.retire_ses]
  refine ⟨hcntA, hcntB, by rw [hir], by rw [hir], by rw [hir], by rw [hir], hcl, hmap, fun b hmix hnotfull => ?_,
    fun hoff => ?_, fun hon hcap => ?_, fun hon hcap => ?_⟩
  · simp [hflag, hstart, hmix, hnotfull]
  · simp [hlumi, hfull, hoff]
  · simp [hlumi, hfull, hon, hcap]
  · simp [hlumi, hfull, hcap, hon]

/-! ## Independence from the digit path (R154) -/

/-- The configuration `cfg` with the digit path of `d`: its enable and its offsets (R25, R28). -/
def CfgRegs.withDigitPath (cfg d : CfgRegs) : CfgRegs :=
  { cfg with digitsEn := d.digitsEn, offC := d.offC, lat1 := d.lat1, lat2 := d.lat2 }

@[simp] theorem CfgRegs.withDigitPath_lumiEn (cfg d : CfgRegs) : (cfg.withDigitPath d).lumiEn = cfg.lumiEn := rfl
@[simp] theorem CfgRegs.withDigitPath_width_ir (cfg d : CfgRegs) :
    (cfg.withDigitPath d).width .ir = cfg.width .ir := rfl
@[simp] theorem CfgRegs.withDigitPath_isFrameStart (cfg d : CfgRegs) (trig : Word) (seq : BitVec 16) :
    (cfg.withDigitPath d).isFrameStart trig seq = cfg.isFrameStart trig seq := rfl
@[simp] theorem lumiCount_withDigitPath (cfg d : CfgRegs) (c : Chunk) (ses : Session) :
    lumiCount (cfg.withDigitPath d) c ses = lumiCount cfg c ses := rfl

/-- Two channel states hold the same frame fields and remnant exactly where they differ in the counts of BUILD alone. -/
theorem ChanState.held_eq_iff {c c' : ChanState} :
    c'.held = c.held ↔ ∃ r n, c' = { c with rej := r, dup := n } := by
  constructor
  · intro h
    cases c
    cases c'
    cases h
    exact ⟨_, _, rfl⟩
  · rintro ⟨r, n, rfl⟩
    rfl

/-- R154: two sessions that agree on all that the luminosity of an interaction-record packet depends on: the counts and
samples, the padding latch, and the channel's frame fields and remnant. -/
structure LumiAgree (ses ses' : Session) : Prop where
  lumiPart : ses'.lumiPart = ses.lumiPart
  wLatched : ses'.wLatched = ses.wLatched
  w16 : ses'.w16 = ses.w16
  held : ses'.ir.held = ses.ir.held

/-- LUMI_COUNT emits no sample (R151). -/
theorem lumiCount_lumi (cfg : CfgRegs) (c : Chunk) (ses : Session) : (lumiCount cfg c ses).lumi = ses.lumi := by
  obtain ⟨_, _, _, h⟩ := lumiCount_frame cfg c ses
  rw [h]

/-- R154: BUILD has no part in the luminosity of a chunk. -/
theorem dispatchChunk_ir_lumiPart (cfg : CfgRegs) (prm : Params) (orbit : Word) (ses : Session) (c : Chunk) :
    (dispatchChunk cfg prm .ir orbit ses c).lumiPart =
      if cfg.lumiEn then (lumiCount cfg c ses).lumiPart else ses.lumiPart := by
  simp only [Session.lumiPart, dispatchChunk_lcntA, dispatchChunk_lcntB, dispatchChunk_lumi, true_and, lumiCount_lumi]
  split <;> rfl

section
variable {cfg d : CfgRegs} {prm prm' : Params} {ses ses' : Session}

/-- R151, R154: LUMI_COUNT reads nothing of the session but the counts, and nothing of the digit path. -/
theorem LumiAgree.lumiCount (h : LumiAgree ses ses') (c : Chunk) :
    (lumiCount (cfg.withDigitPath d) c ses').lumiPart = (lumiCount cfg c ses).lumiPart := by
  have hpart := h.lumiPart
  simp only [Session.lumiPart, Prod.mk.injEq] at hpart
  simp only [lumiCount_withDigitPath, Session.lumiPart, lumiCount_lcntA, lumiCount_lcntB, lumiCount_lumi, hpart]

theorem LumiAgree.dispatchChunk (h : LumiAgree ses ses') (orbit : Word) (c : Chunk) :
    LumiAgree (dispatchChunk cfg prm .ir orbit ses c) (dispatchChunk (cfg.withDigitPath d) prm' .ir orbit ses' c) where
  lumiPart := by
    rw [dispatchChunk_ir_lumiPart, dispatchChunk_ir_lumiPart, h.lumiCount, h.lumiPart, CfgRegs.withDigitPath_lumiEn]
  wLatched := by simpa using h.wLatched
  w16 := by simpa using h.w16
  held := (dispatchChunk_held _ _ _ _ _ _ .ir).trans (h.held.trans (dispatchChunk_held _ _ _ _ _ _ .ir).symm)

theorem LumiAgree.setRemnant (h : LumiAgree ses ses') (val cnt : Nat) :
    LumiAgree (ses.setRemnant .ir val cnt) (ses'.setRemnant .ir val cnt) where
  lumiPart := h.lumiPart
  wLatched := h.wLatched
  w16 := h.w16
  held := by
    obtain ⟨r, n, hir⟩ := ChanState.held_eq_iff.mp h.held
    rw [Session.setRemnant, Session.setChan_ir_ir, Session.chan_ir, hir]
    rfl

/-- R154: equal remnants are cut into equal chunks. -/
theorem LumiAgree.unpackWord (h : LumiAgree ses ses') (orbit : Word) (w : Word80) :
    LumiAgree (unpackWord cfg prm .ir orbit ses w) (unpackWord (cfg.withDigitPath d) prm' .ir orbit ses' w) := by
  obtain ⟨r, n, hir⟩ := ChanState.held_eq_iff.mp h.held
  unfold Machine.unpackWord
  rw [Session.chan_ir, Session.chan_ir, hir, CfgRegs.withDigitPath_width_ir]
  exact List.foldl_rel (h.setRemnant _ _) fun c _ _ _ hx => hx.dispatchChunk orbit c

/-- R154: equal group sizes assemble equal words. -/
theorem LumiAgree.packetBody (h : LumiAgree ses ses') (orbit : Word) (bytes : List Byte) :
    LumiAgree (packetBody cfg prm .ir orbit bytes ses)
      (packetBody (cfg.withDigitPath d) prm' .ir orbit bytes ses') := by
  have hbytes : ses'.groupBytes = ses.groupBytes := by rw [Session.groupBytes, h.w16, Session.groupBytes]
  unfold Machine.packetBody
  rw [hbytes]
  refine List.foldl_rel ?_ fun w _ _ _ hx => hx.unpackWord orbit w
  split
  · exact ⟨h.lumiPart, h.wLatched, h.w16, h.held⟩
  · exact h

/-- R155: the sample that is emitted reads the counts, the frame fields and the room in the buffer. -/
theorem LumiAgree.emittedLumi (h : LumiAgree ses ses') (hcap : prm'.lumiCap = prm.lumiCap) :
    emittedLumi (cfg.withDigitPath d) prm' ses' = emittedLumi cfg prm ses := by
  obtain ⟨r, n, hir⟩ := ChanState.held_eq_iff.mp h.held
  have hpart := h.lumiPart
  simp only [Session.lumiPart, Prod.mk.injEq] at hpart
  simp only [Machine.emittedLumi, lumiEmit_lumi, hpart, hcap, hir, CfgRegs.withDigitPath_lumiEn]

theorem LumiAgree.packetHead (h : LumiAgree ses ses') (hcap : prm'.lumiCap = prm.lumiCap) (seq : BitVec 16)
    (orbit trig : Word) (pad : Bool) : LumiAgree (packetHead cfg prm .ir seq orbit trig pad ses)
      (packetHead (cfg.withDigitPath d) prm' .ir seq orbit trig pad ses') where
  lumiPart := by
    rw [packetHead_ir_lumiPart, packetHead_ir_lumiPart, h.emittedLumi hcap, h.lumiPart,
      CfgRegs.withDigitPath_isFrameStart]
  wLatched := by simp
  w16 := by simp [h.wLatched, h.w16]
  held := by
    obtain ⟨r, n, hir⟩ := ChanState.held_eq_iff.mp h.held
    rw [← Session.chan_ir, ← Session.chan_ir, packetHead_chan_same, packetHead_chan_same, Session.chan_ir,
      Session.chan_ir, hir, CfgRegs.withDigitPath_isFrameStart]
    split <;> rfl

theorem LumiAgree.processPacket (h : LumiAgree ses ses') (hcap : prm'.lumiCap = prm.lumiCap) (seq : BitVec 16)
    (orbit trig : Word) (pad : Bool) (bytes : List Byte) :
    LumiAgree (processPacket cfg prm .ir seq orbit trig pad bytes ses)
      (processPacket (cfg.withDigitPath d) prm' .ir seq orbit trig pad bytes ses') :=
  (h.packetHead hcap seq orbit trig pad).packetBody orbit bytes

end

/-- R185, R203: a packet with HERR in an open interval leaves the session alone. -/
theorem exec_pkt_herr_ses {pad : Bool} {len link seq : BitVec 16} {orbit trig : Word} {data : List Word} {s t : State}
    (ha : s.engine = .active) (h : exec (.pkt pad true len link seq orbit trig data) s = .next t) :
    t.ses = s.ses := by
  obtain rfl : execState _ s = t := by simpa [exec_eq] using h
  simp [execState, pktOp, ha]

/-- Settles O45: an interaction-record packet takes two sessions that agree on all that the luminosity depends on to two
such sessions, step by step, whatever the digit path does beside it. -/
theorem luminosityIgnoresDigitPath : Obligations.LuminosityIgnoresDigitPath := by
  intro pad herr len link seq orbit trig data s s' t t' ha ha' hch hcfg hcap hir hlatched hw16 hA hB hlumi h h'
  have hagree : LumiAgree s.ses s'.ses :=
    ⟨by simp [Session.lumiPart, hA, hB, hlumi], hlatched, hw16, ChanState.held_eq_iff.mpr hir⟩
  have hdigit : s.cfg.withDigitPath s'.cfg = s'.cfg := hcfg.symm
  have hch' : s'.cfg.chan link = some .ir := hdigit ▸ hch
  have hpart : t'.ses.lumiPart = t.ses.lumiPart := by
    cases herr with
    | true => rw [exec_pkt_herr_ses ha h, exec_pkt_herr_ses ha' h', hagree.lumiPart]
    | false =>
      rw [exec_pkt_processed pad len link seq orbit trig data s .ir ha hch (.inl rfl)] at h
      rw [exec_pkt_processed pad len link seq orbit trig data s' .ir ha' hch' (.inl rfl)] at h'
      cases h
      cases h'
      have hend := hagree.processPacket (cfg := s.cfg) (d := s'.cfg) hcap seq orbit trig pad (payloadBytes len data)
      rw [hdigit] at hend
      exact hend.lumiPart
  simpa [Session.lumiPart] using hpart

end Sys2Proof.Machine
end

section
/-! PROOFS of the frame orchestrator's statements (45_frame_orchestrator.md R161 to R173, R175, R184): the routing of a
packet, a packet that is not processed, what a processed one leaves of its channel, the reset of the remnant at a frame
start, and the records that END makes of the last remnants. -/

namespace Sys2Proof.Machine

/-! ## The routing of a packet (R161, R162) -/

/-- R161: the channel of a packet by arithmetic on its code, LINK_ID[11:8]. -/
theorem CfgRegs.chan_eq (cfg : CfgRegs) (link : BitVec 16) : cfg.chan link =
    if link.toNat / 2 ^ 8 % 2 ^ 4 = cfg.irCode.toNat then some .ir
    else if link.toNat / 2 ^ 8 % 2 ^ 4 = cfg.clCode.toNat then some .cl
    else none := by
  simp only [CfgRegs.chan, ← BitVec.toNat_inj, BitVec.extractLsb'_toNat, Nat.shiftRight_eq_div_pow]

/-- R185: a packet without HERR in an open interval runs the datapath on the session, and beside it only
advances CPOS. -/
theorem exec_pkt_of_active (pad : Bool) (len link seq : BitVec 16) (orbit trig : Word) (data : List Word) {s : State}
    (ha : s.engine = .active) : exec (.pkt pad false len link seq orbit trig data) s =
      .next (State.retire (4 + dataWords len) { s with
        ses := pktDatapath s.cfg s.params link seq orbit trig pad (payloadBytes len data) s.ses }) := by
  rw [exec_eq]
  simp [execState, pktOp, ha]

/-- R162: the whole effect of a packet of neither channel on the session. -/
theorem Session.incUnkCh_flag_unkch (ses : Session) : ses.incUnkCh.flag .unkch =
    { ses with
      unkCh := ses.unkCh + 1#32
      ierr := if ses.unkCh = 0xFFFFFFFF#32 then ses.ierr ||| 0x408#11 else ses.ierr ||| 0x008#11 } := by
  unfold Session.incUnkCh Session.noteWrap
  simp only [wraps_iff]
  split <;> simp [Session.flag, IErrBit.index, BitVec.or_assoc]

/-- Settles O25: a packet of neither channel only counts and flags, and the class-record channel is skipped with digits
off. -/
theorem pktNotProcessed : Obligations.PktNotProcessed := by
  intro pad len link seq orbit trig data s code after ha
  rw [exec_pkt_of_active pad len link seq orbit trig data ha, CfgRegs.chan_eq, pktDatapath, CfgRegs.chan_eq]
  refine ⟨fun hir hcl => ?_, fun hir hcl hd => ?_⟩
  · rw [if_neg hir, if_neg hcl]
    exact ⟨rfl, by rw [Session.incUnkCh_flag_unkch]; rfl⟩
  · rw [if_neg hir, if_pos hcl, hd]
    exact ⟨rfl, rfl⟩

/-! ## What a processed packet leaves of its channel (R166, R168, R124) -/

/-- R123: successive words leave fewer bits than a chunk, and no bit above them. -/
theorem unpackAll_remnant_lt {N : Nat} (ws : List Word80) {val cnt : Nat} (hcnt : cnt < N) (hval : val < 2 ^ cnt) :
    (unpackAll N ws val cnt).2.2 < N ∧ (unpackAll N ws val cnt).2.1 < 2 ^ (unpackAll N ws val cnt).2.2 := by
  induction ws generalizing val cnt with
  | nil => exact ⟨hcnt, hval⟩
  | cons w ws ih =>
    obtain ⟨hcnt', hval'⟩ := unpack_remnant_lt (N := N) (by omega) hval w
    exact ih hcnt' hval'

/-- R169: the chunks of a payload do not touch what their channel holds, so it holds the remnant of the whole word
stream. -/
theorem packetBody_held {cfg : CfgRegs} (hl : cfg.legal = true) (prm : Params) (ch : Channel) (orbit : Word)
    (bytes : List Byte) {ses : Session} (hfit : (ses.chan ch).RemnantFits)
    (hshort : (ses.chan ch).remCnt.toNat < cfg.width ch) :
    let cut := unpackAll (cfg.width ch) (assemble ses.groupBytes bytes).1 (ses.chan ch).remVal.toNat
      (ses.chan ch).remCnt.toNat
    ((packetBody cfg prm ch orbit bytes ses).chan ch).held = ((ses.setRemnant ch cut.2.1 cut.2.2).chan ch).held := by
  intro cut
  rw [packetBody_eq hl prm ch orbit bytes hfit hshort,
    foldl_keeps _ (fun x : Session => (x.chan ch).held) fun x c => dispatchChunk_held cfg prm ch orbit x c ch]
  split <;> simp [cut]

/-- R111, R113, R117: how many words a payload is assembled to, and where it has a trailing partial group. -/
theorem assemble_groups (ses : Session) (bytes : List Byte) :
    (assemble ses.groupBytes bytes).1.length = (bytes.length + (ses.groupBytes - 1)) / ses.groupBytes ∧
      (assemble ses.groupBytes bytes).2 =
        decide (0 < bytes.length % ses.groupBytes ∧ bytes.length % ses.groupBytes < 10) := by
  have hW : 10 ≤ ses.groupBytes := by unfold Session.groupBytes; split <;> decide
  simp [assemble_eq hW _ bytes le_rfl]

/-- R124, R169: the payload of a packet leaves what lies above the last whole chunk of the remnant and the words above
it, and keeps its channel's frame fields. -/
theorem packetBody_chan_same {cfg : CfgRegs} (hl : cfg.legal = true) (prm : Params) (ch : Channel) (orbit : Word)
    (bytes : List Byte) {ses : Session} (hfit : (ses.chan ch).RemnantFits)
    (hshort : (ses.chan ch).remCnt.toNat < cfg.width ch) :
    let c := (packetBody cfg prm ch orbit bytes ses).chan ch
    let words := (assemble ses.groupBytes bytes).1
    let W := ses.groupBytes
    let total := (ses.chan ch).remCnt.toNat + 80 * ((bytes.length + (W - 1)) / W)
    c.fopen = (ses.chan ch).fopen ∧ c.frameOrbit = (ses.chan ch).frameOrbit ∧ c.lastOrbit = (ses.chan ch).lastOrbit ∧
      c.remCnt.toNat = total % cfg.width ch ∧
      c.remVal.toNat = ((ses.chan ch).remVal.toNat + wordStream words * 2 ^ (ses.chan ch).remCnt.toNat) /
        2 ^ (total / cfg.width ch * cfg.width ch) := by
  intro c words W total
  have hN := (cfg.legal_width hl ch).2
  have hheld : c.held = _ := packetBody_held hl prm ch orbit bytes hfit hshort
  obtain ⟨hcnt, hval⟩ := unpackAll_remnant_lt words hshort hfit
  rw [unpackAll_eq words _ hshort, (assemble_groups ses bytes).1] at hheld hcnt hval
  dsimp only at hcnt hval
  simp only [ChanState.held, Session.setRemnant_chan_same, Prod.mk.injEq] at hheld
  obtain ⟨hopen, hframe, hlast, hremVal, hremCnt⟩ := hheld
  refine ⟨hopen, hframe, hlast, ?_, ?_⟩
  · rw [hremCnt, BitVec.toNat_ofNat, Nat.mod_eq_of_lt (by omega)]
  · rw [hremVal, BitVec.toNat_ofNat,
      Nat.mod_eq_of_lt (hval.trans_le (Nat.pow_le_pow_right (by decide) (by omega)))]

/-! ## A processed packet (R163 to R169, R208) -/

section
variable {cfg : CfgRegs} (prm : Params) (ch : Channel) (seq : BitVec 16) (orbit trig : Word) (pad : Bool)
  (bytes : List Byte) (ses : Session)

/-- R163, R169: the payload is assembled in the padding format that the packet finds latched or latches. -/
theorem packetHead_groupBytes :
    (packetHead cfg prm ch seq orbit trig pad ses).groupBytes = (latchPadding pad ses).groupBytes := by
  simp [Session.groupBytes]

/-- R208: where a processed packet sets an error bit that is none of its chunks' nor of the sample's. -/
theorem processPacket_hasFlag {b : IErrBit} (hb : b ∉ buildFlags) (hovf : b ≠ .cntovf) (hfull : b ≠ .lumifull) :
    (processPacket cfg prm ch seq orbit trig pad bytes ses).hasFlag b =
      (ses.hasFlag b || (decide (b = .padmix) && (ses.wLatched && pad != ses.w16)) ||
        (decide (b = .noframe) && (!cfg.isFrameStart trig seq && !(ses.chan ch).fopen)) ||
        (decide (b = .partialWord) && decide (0 < bytes.length % (latchPadding pad ses).groupBytes ∧
          bytes.length % (latchPadding pad ses).groupBytes < 10))) := by
  rw [processPacket, packetBody_hasFlag hb hovf, packetHead_hasFlag, packetHead_groupBytes, (assemble_groups _ bytes).2]
  simp [hfull]

variable {ses}

/-- R124, R166, R168: the packet's channel after it. A frame start opens the frame and empties the remnant; the
payload's words then go above the remnant, and what lies above the last whole chunk is left. -/
theorem processPacket_chan_same (hl : cfg.legal = true) (hproc : ch = .ir ∨ cfg.digitsEn = true)
    (hshort : RemnantsShort cfg ses) :
    let c := (processPacket cfg prm ch seq orbit trig pad bytes ses).chan ch
    let start := cfg.isFrameStart trig seq
    let W := (latchPadding pad ses).groupBytes
    let cnt := if start then 0 else (ses.chan ch).remCnt.toNat
    let bits := (if start then 0 else (ses.chan ch).remVal.toNat) + wordStream (assemble W bytes).1 * 2 ^ cnt
    let total := cnt + 80 * ((bytes.length + (W - 1)) / W)
    c.fopen = (start || (ses.chan ch).fopen) ∧
      c.frameOrbit = (if start then orbit else (ses.chan ch).frameOrbit) ∧ c.lastOrbit = orbit ∧
      c.remCnt.toNat = total % cfg.width ch ∧
      c.remVal.toNat = bits / 2 ^ (total / cfg.width ch * cfg.width ch) := by
  obtain ⟨hfit, hcnt⟩ := (remnantsShort_sessionClosed hl prm).packetHead hproc seq orbit trig pad hshort ch
  have hbody := packetBody_chan_same hl prm ch orbit bytes hfit hcnt
  rw [packetHead_groupBytes, packetHead_chan_same] at hbody
  unfold processPacket
  cases hs : cfg.isFrameStart trig seq <;> simpa [hs] using hbody

end

/-- Settles O26: each part of the session is what the packet's first steps make of it, and then its payload. -/
theorem pktProcessed : Obligations.PktProcessed := by
  intro pad len link seq orbit trig data s ch code ha hinv hdata hcode start w16 W words cnt bits total N
  obtain ⟨hl, hshort⟩ := hinv.short ha
  have hch : s.cfg.chan link = some ch := by
    rw [CfgRegs.chan_eq]
    rcases hcode with ⟨hir, rfl⟩ | ⟨hir, hcl, rfl, -⟩
    · exact if_pos hir
    · rw [if_neg hir, if_pos hcl]
  have hproc : ch = .ir ∨ s.cfg.digitsEn = true := hcode.imp And.right fun ⟨_, _, _, hd⟩ => hd
  have hlen : (payloadBytes len data).length = len.toNat := payloadBytes_length hdata
  have hW : (latchPadding pad s.ses).groupBytes = W := by rw [Session.groupBytes, latchPadding_w16]
  have hN : s.cfg.width ch = N := by cases ch <;> rfl
  have hflag := fun b => processPacket_hasFlag (cfg := s.cfg) s.params ch seq orbit trig pad (payloadBytes len data)
    s.ses (b := b)
  have hchan := processPacket_chan_same s.params ch seq orbit trig pad (payloadBytes len data) hl hproc hshort
  rw [hW, hlen, hN] at hchan
  rw [hW, hlen] at hflag
  obtain ⟨hopen, hframe, hlast, hremCnt, hremVal⟩ := hchan
  refine ⟨hch, _, exec_pkt_processed pad len link seq orbit trig data s ch ha hch hproc, rfl, ?_⟩
  simp only [State.retire_ses]
  refine ⟨by simp [processPacket], by simp [processPacket, w16], by simp [processPacket], by simp [processPacket],
    by simp [processPacket], ?_, ?_, ?_, ?_, hopen, hframe, hlast, hremCnt, hremVal,
    fun ch' hne => processPacket_chan_other _ _ _ _ _ _ _ _ hne⟩
  · simp [hflag .padmix (by decide) (by decide) (by decide)]
  · rw [hflag .noframe (by decide) (by decide) (by decide), show s.cfg.isFrameStart trig seq = start from rfl]
    simp
  · simp [hflag .partialWord (by decide) (by decide) (by decide)]
  · simp [hflag .unkch (by decide) (by decide) (by decide)]

/-! ## A frame start forgets the remnant (R166, R175) -/

section
variable (ch : Channel) (val cnt : Nat) (ses : Session)

theorem latchPadding_setRemnant (pad : Bool) :
    latchPadding pad (ses.setRemnant ch val cnt) = (latchPadding pad ses).setRemnant ch val cnt := by
  unfold latchPadding
  simp only [Session.setRemnant_wLatched, Session.setRemnant_w16]
  split
  · split
    · rfl
    · rw [Session.flag_setRemnant]
  · cases ch <;> rfl

theorem latchOrbit_setRemnant (orbit : Word) :
    latchOrbit orbit (ses.setRemnant ch val cnt) = (latchOrbit orbit ses).setRemnant ch val cnt := by
  unfold latchOrbit
  rw [Session.setRemnant_ioLatched]
  split
  · rfl
  · cases ch <;> rfl

theorem lumiEmit_ir_setRemnant (prm : Params) :
    lumiEmit prm (ses.setRemnant .ir val cnt) = (lumiEmit prm ses).setRemnant .ir val cnt := by
  unfold lumiEmit
  rw [Session.setRemnant_lumi]
  dsimp only
  split <;> rfl

/-- R166: FRAME_START empties the remnant, and nothing that it does before reads it. -/
theorem frameStart_setRemnant (cfg : CfgRegs) (prm : Params) (orbit : Word) :
    frameStart cfg prm ch orbit (ses.setRemnant ch val cnt) = frameStart cfg prm ch orbit ses := by
  unfold frameStart
  cases ch with
  | ir =>
    rw [show (ses.setRemnant .ir val cnt).ir.fopen = ses.ir.fopen from rfl, lumiEmit_ir_setRemnant]
    dsimp only
    split <;> rfl
  | cl => rfl

/-- R175: the first steps of a frame-start packet leave the same session whatever remnant its channel held. -/
theorem packetHead_setRemnant_of_frameStart {cfg : CfgRegs} {seq : BitVec 16} {trig : Word}
    (hstart : cfg.isFrameStart trig seq = true) (prm : Params) (orbit : Word) (pad : Bool) :
    packetHead cfg prm ch seq orbit trig pad (ses.setRemnant ch val cnt) =
      packetHead cfg prm ch seq orbit trig pad ses := by
  simp only [packetHead, frameStep, hstart, if_true, latchPadding_setRemnant, latchOrbit_setRemnant,
    frameStart_setRemnant]

end

/-- Settles O46: the remnant is gone after the packet's first steps, before its payload is cut. -/
theorem frameStartForgetsRemnant : Obligations.FrameStartForgetsRemnant := by
  intro pad len link seq orbit trig data s ch val cnt ha hch hproc htrig hseq
  have hstart : s.cfg.isFrameStart trig seq = true := by simp [CfgRegs.isFrameStart, htrig, hseq]
  rw [exec_pkt_processed pad len link seq orbit trig data s ch ha hch hproc,
    exec_pkt_processed pad len link seq orbit trig data { s with ses := s.ses.setRemnant ch val cnt } ch ha hch hproc]
  simp only [processPacket, packetHead_setRemnant_of_frameStart ch val cnt s.ses hstart]

/-! ## The records of END (R171, R172) -/

/-- R131, R139: two sessions with the same records: the digits, the counts of both channels, what BUILD reads beside
them, and every error bit but those of the luminosity and of a wrap. -/
structure RecordsAgree (base ses : Session) : Prop where
  map : ses.map = base.map
  intervalOrbit : ses.intervalOrbit = base.intervalOrbit
  counts : ∀ ch, (ses.chan ch).counts = (base.chan ch).counts
  flags : ∀ b, b ≠ .cntovf → b ≠ .lumifull → ses.hasFlag b = base.hasFlag b

section
variable {base ses : Session}

theorem RecordsAgree.flag (h : RecordsAgree base ses) (b : IErrBit) : RecordsAgree (base.flag b) (ses.flag b) where
  map := h.map
  intervalOrbit := h.intervalOrbit
  counts ch := by simpa using h.counts ch
  flags c hovf hfull := by simp [h.flags c hovf hfull]

/-- Writing a channel on both sides with the same counts keeps the records. -/
theorem RecordsAgree.setChan (h : RecordsAgree base ses) (ch : Channel) {c c' : ChanState}
    (hc : c'.counts = c.counts) : RecordsAgree (base.setChan ch c) (ses.setChan ch c') where
  map := by simpa using h.map
  intervalOrbit := by simpa using h.intervalOrbit
  counts ch' := by
    by_cases hch : ch' = ch
    · rw [hch, Session.chan_setChan_same, Session.chan_setChan_same, hc]
    · rw [Session.chan_setChan_other hch, Session.chan_setChan_other hch, h.counts ch']
  flags b hovf hfull := by simpa using h.flags b hovf hfull

/-- A remnant is no part of the records. -/
theorem RecordsAgree.setRemnant (h : RecordsAgree base ses) (ch : Channel) (val cnt : Nat) :
    RecordsAgree base (ses.setRemnant ch val cnt) := by
  have hset := h.setChan ch (c' := { ses.chan ch with remVal := BitVec.ofNat 78 val, remCnt := BitVec.ofNat 7 cnt })
    (h.counts ch)
  rwa [Session.setChan_chan] at hset

/-- R45: a wrap is no part of the records. -/
theorem RecordsAgree.noteWrap (h : RecordsAgree base ses) (c c' : Word) :
    RecordsAgree (base.noteWrap c) (ses.noteWrap c') where
  map := by simpa using h.map
  intervalOrbit := by simpa using h.intervalOrbit
  counts ch := by simpa using h.counts ch
  flags b hovf hfull := by simpa [hovf] using h.flags b hovf hfull

theorem RecordsAgree.incRej (h : RecordsAgree base ses) (ch : Channel) :
    RecordsAgree (base.incRej ch) (ses.incRej ch) := by
  obtain ⟨hrej, hdup⟩ := Prod.mk.inj (h.counts ch)
  exact (h.setChan ch (by simp only [ChanState.counts, hrej, hdup])).noteWrap _ _

theorem RecordsAgree.incDup (h : RecordsAgree base ses) (ch : Channel) :
    RecordsAgree (base.incDup ch) (ses.incDup ch) := by
  obtain ⟨hrej, hdup⟩ := Prod.mk.inj (h.counts ch)
  exact (h.setChan ch (by simp only [ChanState.counts, hrej, hdup])).noteWrap _ _

theorem RecordsAgree.withMap (h : RecordsAgree base ses) (m : List (Key × Entry)) :
    RecordsAgree { base with map := m } { ses with map := m } where
  map := rfl
  intervalOrbit := h.intervalOrbit
  counts
    | .ir => h.counts .ir
    | .cl => h.counts .cl
  flags := h.flags

theorem RecordsAgree.merge (h : RecordsAgree base ses) (prm : Params) (ch : Channel) (key : Key) (pay : Nat) :
    RecordsAgree (merge prm ch key pay base) (merge prm ch key pay ses) := by
  unfold Machine.merge
  rw [h.map]
  split
  · split
    · exact (h.incDup ch).flag .dup
    · exact h.withMap _
  · split
    · exact h.flag .mapfull
    · exact h.withMap _

/-- R131: BUILD on two sessions with the same records takes the same branch and leaves the same records. -/
theorem RecordsAgree.build (h : RecordsAgree base ses) (cfg : CfgRegs) (prm : Params) (ch : Channel) (c : Chunk)
    (orbit : Word) : RecordsAgree (build cfg prm ch c orbit base) (build cfg prm ch c orbit ses) := by
  unfold Machine.build
  rw [h.intervalOrbit]
  dsimp only
  split
  · exact h
  split
  · exact h.flag .bcrange
  split
  · split
    · exact h.incRej ch
    · exact (h.incRej ch).flag .clarify
  split
  · exact h.flag .timerange
  · exact h.merge prm ch _ _

/-- R151: counting for the luminosity is no part of the records. -/
theorem RecordsAgree.lumiCount (h : RecordsAgree base ses) (cfg : CfgRegs) (c : Chunk) :
    RecordsAgree base (lumiCount cfg c ses) := by
  have hflag : ∀ b, b ≠ .cntovf → (Machine.lumiCount cfg c ses).hasFlag b = ses.hasFlag b :=
    fun b hovf => lumiCount_hasFlag hovf cfg c ses
  obtain ⟨a, b, e, heq⟩ := lumiCount_frame cfg c ses
  rw [heq] at hflag ⊢
  refine ⟨h.map, h.intervalOrbit, fun ch => ?_, fun b hovf hfull => (hflag b hovf).trans (h.flags b hovf hfull)⟩
  cases ch with
  | ir => exact h.counts .ir
  | cl => exact h.counts .cl

/-- R155: the final sample is no part of the records. -/
theorem RecordsAgree.lumiEmit (h : RecordsAgree base ses) (prm : Params) :
    RecordsAgree base (lumiEmit prm ses) where
  map := by simpa using h.map
  intervalOrbit := by simpa using h.intervalOrbit
  counts ch := by simpa using h.counts ch
  flags b hovf hfull := by simpa [lumiEmit_hasFlag, hfull] using h.flags b hovf hfull

/-- R170: what DISPATCH_CHUNK does to the records is BUILD's part alone. -/
theorem RecordsAgree.dispatchChunk (h : RecordsAgree base ses) (cfg : CfgRegs) (prm : Params) (ch : Channel)
    (orbit : Word) (c : Chunk) :
    RecordsAgree (if cfg.digitsEn then Machine.build cfg prm ch c orbit base else base)
      (dispatchChunk cfg prm ch orbit ses c) := by
  unfold Machine.dispatchChunk
  have hcounted : RecordsAgree base (if ch = .ir ∧ cfg.lumiEn then Machine.lumiCount cfg c ses else ses) := by
    split
    · exact h.lumiCount cfg c
    · exact h
  dsimp only
  split
  · exact hcounted.build cfg prm ch c orbit
  · exact hcounted

/-- R171: the record of the remnant `r` that a channel held: one chunk at its LAST_ORBIT. -/
def recordRemnant (cfg : CfgRegs) (prm : Params) (ch : Channel) (r : ChanState) (ses : Session) : Session :=
  if cfg.digitsEn && r.remCnt != 0#7 then build cfg prm ch r.remVal.toNat r.lastOrbit ses else ses

/-- R171: what FLUSH does to the records is the record of its channel's remnant. -/
theorem RecordsAgree.flush (h : RecordsAgree base ses) (cfg : CfgRegs) (prm : Params) (ch : Channel) :
    RecordsAgree (recordRemnant cfg prm ch (ses.chan ch) base) (flush cfg prm ch ses) := by
  unfold Machine.flush recordRemnant
  by_cases hcnt : (ses.chan ch).remCnt = 0#7
  · simpa [hcnt] using h
  · simpa [hcnt] using (h.setRemnant ch 0 0).dispatchChunk cfg prm ch (ses.chan ch).lastOrbit
      (ses.chan ch).remVal.toNat

end

/-- R172: what END does to the records is the record of both remnants, the interaction-record channel's first. -/
theorem endIntervalOps_recordsAgree (cfg : CfgRegs) (prm : Params) (ses : Session) :
    RecordsAgree (recordRemnant cfg prm .cl ses.cl (recordRemnant cfg prm .ir ses.ir ses))
      (endIntervalOps cfg prm ses) := by
  have hir : RecordsAgree (recordRemnant cfg prm .ir ses.ir ses) (flush cfg prm .ir ses) :=
    RecordsAgree.flush ⟨rfl, rfl, fun _ => rfl, fun _ _ _ => rfl⟩ cfg prm .ir
  have hcl := hir.flush cfg prm .cl
  rw [flush_chan_other cfg prm .ir ses (ch' := .cl) (by decide)] at hcl
  unfold endIntervalOps
  dsimp only
  split
  · exact hcl.lumiEmit prm
  · exact hcl

/-- Settles O23: END runs the flushes and the final sample on the session. -/
theorem endFlushesTheRecords : Obligations.EndFlushesTheRecords := by
  intro s ha record after
  have hend : exec .endInterval s =
      .next (State.retire 1 { s with ses := endIntervalOps s.cfg s.params s.ses, engine := .done }) := by
    rw [exec_eq]
    simp [execState, endOp, ha]
  obtain ⟨hmap, -, hcounts, hflags⟩ : RecordsAgree after (endIntervalOps s.cfg s.params s.ses) :=
    endIntervalOps_recordsAgree s.cfg s.params s.ses
  exact ⟨_, hend, hmap, fun ch => Prod.mk.inj (hcounts ch), hflags⟩

end Sys2Proof.Machine
end

section
/-! PROOFS of the command step's statements (46_commands.md R181, R191, R192, R194, R195): the one command that a step
runs, the engine's state after it, the words that it consumes and the responses that it pushes. -/

namespace Sys2Proof.Machine

/-! ## The engine's state after an operation (R23, R192) -/

/-- R183: BEGIN in an open interval is refused; else the configuration decides. -/
theorem beginOp_engine (s : State) : (beginOp s).engine =
    if s.engine = .active ∨ s.cfg.legal = true then .active else .aborted := by
  rcases beginOp_cases s with ⟨ha, h⟩ | ⟨_, hl, h⟩ | ⟨ha, hl, h⟩ <;> rw [h]
  · simp [ha]
  · simp [hl]
  · simp [ha, hl]

/-- R184: END ends an open interval and nothing else. -/
theorem endOp_engine (s : State) : (endOp s).engine = if s.engine = .active then .done else s.engine := by
  rcases endOp_cases s with ⟨ha, h⟩ | ⟨ha, h⟩ | ⟨ha | ha, h⟩ <;> simp [h, ha]

/-- R185, R203: a packet with HERR aborts an open interval and nothing else. -/
theorem pktOp_herr_engine (pad : Bool) (len link seq : BitVec 16) (orbit trig : Word) (data : List Word) (s : State) :
    (pktOp pad true len link seq orbit trig data s).engine = if s.engine = .active then .aborted else s.engine := by
  rcases pktOp_cases pad true len link seq orbit trig data s with
    ⟨ha, _, h⟩ | ⟨_, hherr, _⟩ | ⟨ha, h⟩ | ⟨ha | ha, h⟩
  · simp [h, ha]
  · cases hherr
  all_goals simp [h, ha]

/-- R191: an illegal header word aborts an open interval and nothing else. -/
theorem State.illCmd_engine (s : State) : s.illCmd.engine = if s.engine = .active then .aborted else s.engine := by
  unfold State.illCmd
  by_cases ha : s.engine = .active <;> simp [ha]

/-- An operation that leaves only an open interval changes STATE only there. -/
theorem active_of_left {e e' : EngineState} (h : (if e = .active then e' else e) ≠ e) : e = .active :=
  by_contra fun ha => h (if_neg ha)

/-- R183: where BEGIN changes STATE no interval was open, and the configuration decides what it changes to. -/
theorem beginOp_changes_engine {s : State} (h : (beginOp s).engine ≠ s.engine) : s.engine ≠ .active ∧
    (s.cfg.legal = true → (beginOp s).engine = .active) ∧ (¬ s.cfg.legal = true → (beginOp s).engine = .aborted) := by
  have ha : s.engine ≠ .active := fun ha => h (by rw [beginOp_engine, ha]; rfl)
  exact ⟨ha, fun hl => by simp [beginOp_engine, hl], fun hl => by simp [beginOp_engine, ha, hl]⟩

/-- Settles O14: of the commands that write STATE, each does so in the states that its operation leaves. -/
theorem onlyTheseChangeTheEngineState : Obligations.OnlyTheseChangeTheEngineState := by
  intro s t h hne
  rcases step_cases h with ⟨hp, rfl⟩ | ⟨hp, i, rest, hd, he⟩ | ⟨hp, hd, rfl⟩
  · exact .inl ⟨hp, rfl⟩
  · obtain rfl : execState i { s with input := rest } = t := by simpa [exec_eq] using he
    refine .inr ⟨hp, ?_⟩
    rcases writers_of_engine hne with rfl | rfl | rfl | ⟨pad, len, link, seq, orbit, trig, data, rfl⟩
    · have hbegin := beginOp_changes_engine hne
      rw [CfgRegs.legal_iff] at hbegin
      exact .inr (.inl ⟨rest, hd, hbegin⟩)
    · have hend := endOp_engine { s with input := rest }
      have ha := active_of_left (hend ▸ hne)
      exact .inr (.inr (.inl ⟨rest, hd, ha, hend.trans (if_pos ha)⟩))
    · exact .inl ⟨rest, hd, rfl⟩
    · have hpkt := pktOp_herr_engine pad len link seq orbit trig data { s with input := rest }
      have ha := active_of_left (hpkt ▸ hne)
      exact .inr (.inr (.inr (.inl ⟨pad, len, link, seq, orbit, trig, data, rest, hd, ha, hpkt.trans (if_pos ha)⟩)))
  · have hill := State.illCmd_engine { s with input := s.input.tail }
    have ha := active_of_left (hill ▸ hne)
    exact .inr ⟨hp, .inr (.inr (.inr (.inr ⟨hd, ha, hill.trans (if_pos ha)⟩)))⟩

/-! ## The words that a step consumes (R22, R195) -/

/-- R82, R88: a decoded command takes as many words of the stream as its length says, and at least its header. -/
theorem decode_consumes {ws rest : List Word} {i : Instr} (hd : decode ws = .ok (i, rest)) :
    ws.length = i.length + rest.length ∧ 0 < i.length := by
  obtain ⟨hw, heq⟩ := decodedWordsAreTheEncoding _ _ _ hd
  obtain ⟨hlen, h, ws', henc, -⟩ := encode_length_header i hw
  exact ⟨by rw [heq, List.length_append, hlen], by rw [← hlen, henc]; exact Nat.succ_pos _⟩

/-- R89: an illegal header word is a word of the stream. -/
theorem exists_cons_of_illegal {ws : List Word}
    (hd : decode ws = .error .unassignedOpcode ∨ decode ws = .error .reservedField) : ∃ h rest, ws = h :: rest := by
  cases ws with
  | nil => simp [decode] at hd
  | cons h rest => exact ⟨h, rest, rfl⟩

/-- Settles O13: every command but SRST advances CPOS by its length, which is what decoding it takes off the stream. -/
theorem cposCountsConsumedWords : Obligations.CposCountsConsumedWords := by
  intro s t hp h
  rcases step_cases h with ⟨hp', _⟩ | ⟨_, i, rest, hd, he⟩ | ⟨_, hd, rfl⟩
  · simp [hp] at hp'
  · obtain rfl : execState i { s with input := rest } = t := by simpa [exec_eq] using he
    by_cases hi : i = .srst
    · subst hi
      exact .inl ⟨rest, hd, rfl⟩
    · obtain ⟨hlen, hpos⟩ := decode_consumes hd
      have hdiff : s.input.length - rest.length = i.length := by omega
      right
      rw [execState_input, execState_cpos hi, hdiff]
      exact ⟨by simp only; omega, rfl⟩
  · obtain ⟨w, rest, hin⟩ := exists_cons_of_illegal hd
    exact .inr (by simp [hin])

/-! ## The responses that a step pushes (R194) -/

theorem digitResponse_length (idx : Word) (s : State) : (digitResponse idx s).length = 8 := by
  unfold digitResponse
  split <;> simp [digitWords]

theorem sampleResponse_length (idx : Word) (s : State) : (sampleResponse idx s).length = 6 := by
  unfold sampleResponse
  split <;> simp [sampleWords]

/-- R187: CSRR pushes one word, the value of the register or 0. -/
theorem csrRead_resp (csr : BitVec 8) (s : State) : (csrRead csr s).resp = s.resp ++ [(s.readCsr csr).getD 0#32] := by
  rcases csrRead_cases csr s with ⟨r, hr, h⟩ | ⟨hr, h⟩ <;> simp [h, hr, State.readCsr]

/-- R194: how many words a command pushes. -/
def responseWords : Instr → Nat
  | .csrr _ => 1
  | .rddig _ => 8
  | .rdlumi _ => 6
  | .nop | .beginInterval | .endInterval | .csrw _ _ | .pkt _ _ _ _ _ _ _ _ | .srst => 0

/-- R67, R194: every command pushes its words behind those pushed before. -/
theorem execState_resp (i : Instr) (s : State) :
    ∃ ws, (execState i s).resp = s.resp ++ ws ∧ ws.length = responseWords i := by
  cases i
  case csrr csr => exact ⟨_, csrRead_resp csr s, rfl⟩
  case rddig idx => exact ⟨_, rfl, digitResponse_length idx s⟩
  case rdlumi idx => exact ⟨_, rfl, sampleResponse_length idx s⟩
  all_goals exact ⟨[], by simp [execState], rfl⟩

/-- Settles O18: a step pushes what its one command pushes, and an illegal header word pushes nothing. -/
theorem responsesPerCommand : Obligations.ResponsesPerCommand := by
  intro s t hp h
  rcases step_cases h with ⟨hp', _⟩ | ⟨_, i, rest, hd, he⟩ | ⟨_, hd, rfl⟩
  · simp [hp] at hp'
  · obtain rfl : execState i { s with input := rest } = t := by simpa [exec_eq] using he
    obtain ⟨ws, hresp, hlen⟩ := execState_resp i { s with input := rest }
    refine ⟨ws, hresp, ?_⟩
    rw [hd, hlen]
    cases i <;> rfl
  · refine ⟨[], by simp, ?_⟩
    rcases hd with hd | hd <;> rw [hd] <;> rfl

/-! ## The step and the illegal command (R181, R191) -/

/-- Settles O7: the three outcomes of decoding, with no reset pending. -/
theorem stepRunsOneCommand : Obligations.StepRunsOneCommand := by
  refine fun s hp => ⟨fun i rest hd => step_of_decode hp hd, step_of_illegal hp, fun hd t ht => ?_⟩
  rcases step_cases ht with ⟨hp', _⟩ | ⟨_, i, rest, hok, _⟩ | ⟨_, hill, _⟩
  · simp [hp] at hp'
  · simp [hok] at hd
  · rcases hill with hill | hill <;> simp [hill] at hd

/-- Settles O8: the step runs ILLCMD, whose abort depends on STATE alone. -/
theorem illegalCommandEffect : Obligations.IllegalCommandEffect := by
  intro s hp hd
  rw [step_of_illegal hp hd]
  refine ⟨fun ha => ?_, fun ha => ?_⟩
  · simp only [State.illCmd, State.gflag_engine, ha, if_true]
    rfl
  · simp only [State.illCmd, State.gflag_engine, ha, if_false]
    rfl

end Sys2Proof.Machine
end

section
/-! PROOFS of the statements about NOP, BEGIN, END and the packets that have no datapath (46_commands.md R182 to R185;
44_lumi_accumulator.md R158, 45_frame_orchestrator.md R171, R172). -/

namespace Sys2Proof.Machine

/-! ## NOP and BEGIN (R182, R183) -/

/-- Settles O20: NOP is nothing but its retirement. -/
theorem nopAdvancesCpos : Obligations.NopAdvancesCpos := fun s => exec_eq .nop s

/-- Settles O21: each of BEGIN's three cases is the one that the state and the configuration select. -/
theorem beginEffect : Obligations.BeginEffect := by
  intro s legal
  have hlegal : s.cfg.legal = true ↔ legal := s.cfg.legal_iff
  rw [exec_eq, execState]
  rcases beginOp_cases s with ⟨ha, h⟩ | ⟨ha, hl, h⟩ | ⟨ha, hl, h⟩ <;> rw [h]
  · exact ⟨fun _ => rfl, fun hna => absurd ha hna, fun hna => absurd ha hna⟩
  · exact ⟨fun ha' => absurd ha' ha, fun _ _ => rfl, fun _ hnl => absurd (hlegal.mp hl) hnl⟩
  · exact ⟨fun ha' => absurd ha' ha, fun _ hl' => by simp [hlegal.mpr hl'] at hl, fun _ _ => rfl⟩

/-! ## END and PKT without the datapath (R184, R185, R192) -/

theorem endOp_of_aborted {s : State} (h : s.engine = .aborted) : endOp s = s := by simp [endOp, h]

theorem endOp_of_idle_or_done {s : State} (h : s.engine = .idle ∨ s.engine = .done) : endOp s = s.gflag .seq := by
  rcases h with h | h <;> simp [endOp, h]

section
variable (pad herr : Bool) (len link seq : BitVec 16) (orbit trig : Word) (data : List Word) {s : State}

theorem pktOp_of_aborted (h : s.engine = .aborted) : pktOp pad herr len link seq orbit trig data s = s := by
  simp [pktOp, h]

theorem pktOp_of_idle_or_done (h : s.engine = .idle ∨ s.engine = .done) :
    pktOp pad herr len link seq orbit trig data s = s.gflag .seq := by
  rcases h with h | h <;> simp [pktOp, h]

theorem pktOp_herr_of_active (h : s.engine = .active) :
    pktOp pad true len link seq orbit trig data s = s.abort .hdrErr := by
  simp [pktOp, h]

end

/-- Settles O24: the operations of END and PKT in each state, and then CPOS. -/
theorem ignoredOrAborted : Obligations.IgnoredOrAborted := by
  intro pad herr len link seq orbit trig data s after
  simp only [exec_eq, execState]
  refine ⟨fun ha => ?_, fun hid => ?_, fun ha hherr => ?_⟩
  · rw [endOp_of_aborted ha, pktOp_of_aborted pad herr len link seq orbit trig data ha]
    exact ⟨rfl, rfl⟩
  · rw [endOp_of_idle_or_done hid, pktOp_of_idle_or_done pad herr len link seq orbit trig data hid]
    exact ⟨rfl, rfl⟩
  · rw [hherr, pktOp_herr_of_active pad len link seq orbit trig data ha]
    rfl

/-! ## END of an open interval (R158, R171, R172) -/

section
variable (cfg : CfgRegs) (prm : Params) (ses : Session)

/-- R158, R171: FLUSH counts the remnant of the interaction-record channel, as one chunk, where there is one and
luminosity is on. -/
theorem flush_ir_lcntA : (flush cfg prm .ir ses).lcntA =
    if (cfg.lumiEn && ses.ir.remCnt != 0#7) &&
        patternMatches cfg.lmaskA (cfg.width .ir - 12) (chunkPay (cfg.width .ir) ses.ir.remVal.toNat)
    then ses.lcntA + 1#32 else ses.lcntA := by
  unfold flush
  by_cases hcnt : ses.ir.remCnt = 0#7
  · simp [hcnt]
  · cases hl : cfg.lumiEn <;> simp [hcnt, hl, dispatchChunk_lcntA, lumiCount_lcntA]

theorem flush_ir_lcntB : (flush cfg prm .ir ses).lcntB =
    if (cfg.lumiEn && ses.ir.remCnt != 0#7) &&
        patternMatches cfg.lmaskB (cfg.width .ir - 12) (chunkPay (cfg.width .ir) ses.ir.remVal.toNat)
    then ses.lcntB + 1#32 else ses.lcntB := by
  unfold flush
  by_cases hcnt : ses.ir.remCnt = 0#7
  · simp [hcnt]
  · cases hl : cfg.lumiEn <;> simp [hcnt, hl, dispatchChunk_lcntB, lumiCount_lcntB]

/-- R152: the class-record channel is not counted. -/
theorem flush_cl_lcntA : (flush cfg prm .cl ses).lcntA = ses.lcntA := by
  unfold flush
  split
  · rfl
  · simp [dispatchChunk_lcntA]

theorem flush_cl_lcntB : (flush cfg prm .cl ses).lcntB = ses.lcntB := by
  unfold flush
  split
  · rfl
  · simp [dispatchChunk_lcntB]

/-- R208: FLUSH sets only the bits of BUILD and MERGE and CNTOVF. -/
theorem flush_hasFlag {b : IErrBit} (hb : b ∉ buildFlags) (hovf : b ≠ .cntovf) (ch : Channel) :
    (flush cfg prm ch ses).hasFlag b = ses.hasFlag b := by
  unfold flush
  split
  · rfl
  · rw [dispatchChunk_hasFlag hb hovf, Session.hasFlag_setRemnant]

/-- R37, R171: FLUSH keeps both channels' frame fields. -/
theorem flush_frame (ch ch' : Channel) : ((flush cfg prm ch ses).chan ch').fopen = (ses.chan ch').fopen ∧
    ((flush cfg prm ch ses).chan ch').frameOrbit = (ses.chan ch').frameOrbit := by
  by_cases hch : ch' = ch
  · subst hch
    have hheld := flush_held cfg prm ch' ses
    simp only [ChanState.held, Prod.mk.injEq] at hheld
    obtain ⟨hopen, hframe, -⟩ := hheld
    exact ⟨hopen, hframe⟩
  · rw [flush_chan_other cfg prm ch ses hch]
    exact ⟨rfl, rfl⟩

end

/-- R171: the session that END leaves to the final sample. -/
def flushBoth (cfg : CfgRegs) (prm : Params) (ses : Session) : Session := flush cfg prm .cl (flush cfg prm .ir ses)

/-- R172: END takes the final sample only of an open interaction-record frame, with luminosity on. -/
theorem endIntervalOps_eq (cfg : CfgRegs) (prm : Params) (ses : Session) : endIntervalOps cfg prm ses =
    if cfg.lumiEn && ses.ir.fopen then lumiEmit prm (flushBoth cfg prm ses) else flushBoth cfg prm ses := by
  have hopen : (flushBoth cfg prm ses).ir.fopen = ses.ir.fopen :=
    ((flush_frame cfg prm _ .cl .ir).1).trans (flush_frame cfg prm ses .ir .ir).1
  rw [← hopen]
  rfl

/-- R158: what the flushes leave of the luminosity, which the final sample shows: the samples and the frame orbit as they
were, and the counts with the last chunk's. -/
theorem flushBoth_lumi (cfg : CfgRegs) (prm : Params) (ses : Session) :
    (flushBoth cfg prm ses).lumi = ses.lumi ∧ (flushBoth cfg prm ses).ir.frameOrbit = ses.ir.frameOrbit ∧
    (flushBoth cfg prm ses).lcntA = (flush cfg prm .ir ses).lcntA ∧
    (flushBoth cfg prm ses).lcntB = (flush cfg prm .ir ses).lcntB ∧
    (flushBoth cfg prm ses).hasFlag .lumifull = ses.hasFlag .lumifull :=
  ⟨by simp [flushBoth], ((flush_frame cfg prm _ .cl .ir).2).trans (flush_frame cfg prm ses .ir .ir).2,
    flush_cl_lcntA cfg prm _, flush_cl_lcntB cfg prm _,
    (flush_hasFlag cfg prm _ (by decide) (by decide) .cl).trans (flush_hasFlag cfg prm ses (by decide) (by decide) .ir)⟩

/-- R184: END of an open interval runs END_INTERVAL on the session and closes the interval. -/
theorem exec_end_of_active {s : State} (ha : s.engine = .active) : exec .endInterval s =
    .next (State.retire 1 { s with ses := endIntervalOps s.cfg s.params s.ses, engine := .done }) := by
  rw [exec_eq]
  simp [execState, endOp, ha]

/-- Settles O22: what the two flushes leave, and then the final sample where there is one. -/
theorem endClosesInterval : Obligations.EndClosesInterval := by
  intro s ha N pay flushed a b
  obtain ⟨hlumi, horbit, hA, hB, hfull⟩ := flushBoth_lumi s.cfg s.params s.ses
  have hcntA : (flushBoth s.cfg s.params s.ses).lcntA = a := hA.trans (flush_ir_lcntA _ _ _)
  have hcntB : (flushBoth s.cfg s.params s.ses).lcntB = b := hB.trans (flush_ir_lcntB _ _ _)
  have hemit := endIntervalOps_eq s.cfg s.params s.ses
  refine ⟨_, exec_end_of_active ha, rfl, fun ch => ?_, endIntervalOps_wLatched .., endIntervalOps_w16 ..,
    endIntervalOps_ioLatched .., endIntervalOps_intervalOrbit .., endIntervalOps_unkCh .., fun hno => ?_, fun hyes => ?_⟩
  · have hheld := endIntervalOps_held s.cfg s.params s.ses ch
    simp only [ChanState.held, Prod.mk.injEq] at hheld
    obtain ⟨hopen, hframe, hlast, -, hrem⟩ := hheld
    exact ⟨hrem, hopen, hframe, hlast⟩
  · rw [if_neg (by simp [hno])] at hemit
    simp only [State.retire_ses, hemit]
    exact ⟨hlumi, hcntA, hcntB, hfull⟩
  · rw [if_pos hyes] at hemit
    simp only [State.retire_ses, hemit, lumiEmit_lumi, lumiEmit_hasFlag, hlumi, horbit, hcntA, hcntB, hfull]
    refine ⟨rfl, rfl, fun hcap => ?_, fun hroom => ?_⟩
    · simp [hcap]
    · simp [hroom]

end Sys2Proof.Machine
end

section
/-! PROOFS of the register and readout commands' statements (46_commands.md R186 to R189, R193; 30_encoding.md R93):
what CSRW writes, what CSRR reads, and the words of RDDIG and RDLUMI. -/

namespace Sys2Proof.Machine

/-- A field of a word by arithmetic on the word's number. -/
theorem extractLsb'_eq_ofNat_div {w : Nat} (x : BitVec w) (k n : Nat) :
    x.extractLsb' k n = BitVec.ofNat n (x.toNat / 2 ^ k) := by
  rw [← Nat.shiftRight_eq_div_pow]
  rfl

/-! ## CSRW (R186, R193) -/

/-- R193: the field bits of a configuration register; other registers have none that CSRW writes. -/
def Csr.fieldMask : Csr → Word
  | .ctrl => 0x00000003#32
  | .npldIr | .npldCl => 0x0000007F#32
  | .offC | .lat1 | .lat2 => 0x0000FFFF#32
  | .chsel => 0x000000FF#32
  | .fsMask | .lmaskA0 | .lmaskA1 | .lmaskA2 | .lmaskB0 | .lmaskB1 | .lmaskB2 => 0xFFFFFFFF#32
  | .id | .status | .ierr | .gerr | .fatalCpos | .cpos | .intervalOrbit
  | .frameOrbitIr | .frameOrbitCl | .lastOrbitIr | .lastOrbitCl | .remCntIr | .remCntCl
  | .remValIr0 | .remValIr1 | .remValIr2 | .remValCl0 | .remValCl1 | .remValCl2
  | .rejIr | .rejCl | .dupIr | .dupCl | .unkCh | .lcntA | .lcntB
  | .digitCount | .lumiCount | .mapCap | .lumiCap => 0#32

/-- The indexes of `cfgFieldMasks` are those of configuration registers, with their field bits. -/
theorem exists_csr_of_mem_cfgFieldMasks {csr : BitVec 8} {mask : Word} (h : (csr, mask) ∈ cfgFieldMasks) :
    ∃ r, csrAt csr = some r ∧ r.cls = .cfg ∧ mask = r.fieldMask := by
  have key : ∀ p ∈ cfgFieldMasks, (csrAt p.1).map (fun r => (r.cls, r.fieldMask)) = some (.cfg, p.2) := by
    simp only [cfgFieldMasks, List.forall_mem_cons, List.not_mem_nil, false_implies, implies_true, and_true]
    and_intros <;> rfl
  obtain ⟨r, hr, hp⟩ := Option.map_eq_some_iff.mp (key _ h)
  obtain ⟨hcls, hmask⟩ := Prod.mk.inj hp
  exact ⟨r, hr, hcls, hmask.symm⟩

/-- Every index of class CFG is listed in `cfgFieldMasks`. -/
theorem exists_mask_of_cfg {csr : BitVec 8} (h : csrClass csr = .cfg) : ∃ mask, (csr, mask) ∈ cfgFieldMasks := by
  have hidx := (csrClass_cfg_iff csr).mp h
  have key : ∀ n, n ≤ 0x0E → 1 ≤ n → ∃ p ∈ cfgFieldMasks, p.1 = BitVec.ofNat 8 n := by decide
  obtain ⟨⟨_, mask⟩, hmem, rfl⟩ := key csr.toNat hidx.2 hidx.1
  exact ⟨mask, by simpa using hmem⟩

/-- The low `n` bits of a word by arithmetic. -/
theorem toNat_and_low (v : Word) {n : Nat} (hn : n ≤ 32) :
    (v &&& BitVec.ofNat 32 (2 ^ n - 1)).toNat = v.toNat % 2 ^ n := by
  have hlt : 2 ^ n - 1 < 2 ^ 32 :=
    (Nat.sub_lt (Nat.two_pow_pos n) Nat.one_pos).trans_le (Nat.pow_le_pow_right (by decide) hn)
  rw [BitVec.toNat_and, BitVec.toNat_ofNat, Nat.mod_eq_of_lt hlt, Nat.and_two_pow_sub_one_eq_mod]

/-- R193: a register of one field at bit 0 reads the low bits of what is written. -/
theorem setWidth_low_field (v : Word) {n : Nat} (hn : n ≤ 32) :
    (v.extractLsb' 0 n).setWidth 32 = v &&& BitVec.ofNat 32 (2 ^ n - 1) := by
  apply BitVec.eq_of_toNat_eq
  rw [toNat_and_low v hn, BitVec.toNat_setWidth_of_le hn, BitVec.extractLsb'_toNat, Nat.shiftRight_zero]

/-- R25, R193: the two enables of CTRL. -/
theorem ctrl_fields (v : Word) :
    (0#30 ++ BitVec.ofBool (v.getLsbD 1) ++ BitVec.ofBool (v.getLsbD 0) : Word) = v &&& 0x00000003#32 := by
  apply BitVec.eq_of_toNat_eq
  rw [show (0x00000003#32 : Word) = BitVec.ofNat 32 (2 ^ 2 - 1) from rfl, toNat_and_low v (by decide)]
  simp only [toNat_append_eq_add, BitVec.toNat_ofBool, BitVec.toNat_ofNat, BitVec.getLsbD, Nat.toNat_testBit]
  omega

/-- R30, R193: the two codes of CHSEL. -/
theorem chsel_fields (v : Word) :
    (0#24 ++ v.extractLsb' 4 4 ++ v.extractLsb' 0 4 : Word) = v &&& 0x000000FF#32 := by
  apply BitVec.eq_of_toNat_eq
  rw [show (0x000000FF#32 : Word) = BitVec.ofNat 32 (2 ^ 8 - 1) from rfl, toNat_and_low v (by decide)]
  simp only [toNat_append_eq_add, BitVec.extractLsb'_toNat, BitVec.toNat_ofNat, Nat.shiftRight_eq_div_pow]
  omega

/-- R193: a configuration register reads the field bits of what was written to it. -/
theorem Csr.value_write_same {r : Csr} (h : r.cls = .cfg) (v : Word) (s : State) :
    r.value { s with cfg := s.cfg.write v r } = v &&& r.fieldMask := by
  have hall : v &&& 0xFFFFFFFF#32 = v := BitVec.and_allOnes
  cases r
  case ctrl => exact ctrl_fields v
  case chsel => exact chsel_fields v
  case npldIr | npldCl => exact setWidth_low_field v (n := 7) (by decide)
  case offC | lat1 | lat2 => exact setWidth_low_field v (n := 16) (by decide)
  case fsMask | lmaskA0 | lmaskA1 | lmaskA2 | lmaskB0 | lmaskB1 | lmaskB2 => exact hall.symm
  all_goals cases h

/-- R193: a register other than the one written reads as before. -/
theorem Csr.value_write_other {r r' : Csr} (h : r' ≠ r) (v : Word) (s : State) :
    r'.value { s with cfg := s.cfg.write v r } = r'.value s := by
  by_cases hcls : r.cls = .cfg
  · cases r
    case ctrl | npldIr | npldCl | offC | lat1 | lat2 | fsMask | chsel
        | lmaskA0 | lmaskA1 | lmaskA2 | lmaskB0 | lmaskB1 | lmaskB2 =>
      cases r' <;> first | rfl | exact absurd rfl h
    all_goals cases hcls
  · rw [CfgRegs.write_other s.cfg v hcls]

/-- Only CPOS reads the position of the command (R22). -/
theorem Csr.value_retire {r : Csr} (h : r ≠ .cpos) (n : Nat) (s : State) : r.value (s.retire n) = r.value s := by
  cases r
  case cpos => exact absurd rfl h
  all_goals rfl

/-- R186: CSRW of a configuration register outside an open interval writes it. -/
theorem csrWrite_of_cfg {csr : BitVec 8} {r : Csr} (hr : csrAt csr = some r) (hcls : r.cls = .cfg) (v : Word)
    {s : State} (ha : s.engine ≠ .active) : csrWrite csr v s = { s with cfg := s.cfg.write v r } := by
  simp [csrWrite, hr, hcls, ha]

/-- R186: CSRW of an index that is no configuration register only sets GERR.BADCSR. -/
theorem csrWrite_of_not_cfg {csr : BitVec 8} (h : csrClass csr ≠ .cfg) (v : Word) (s : State) :
    csrWrite csr v s = s.gflag .badcsr := by
  rcases csrWrite_cases csr v s with ⟨r, hr, hcls, _⟩ | ⟨r, hr, hcls, _⟩ | ⟨_, heq⟩
  · exact absurd (by simp [csrClass, hr, hcls]) h
  · exact absurd (by simp [csrClass, hr, hcls]) h
  · exact heq

/-- R193: CSRW changes what no other index but that of CPOS reads. -/
theorem readCsr_write_other {csr c : BitVec 8} {r : Csr} (hr : csrAt csr = some r) (hc : c ≠ csr) (hcpos : c ≠ 0x14#8)
    (v : Word) (n : Nat) (s : State) :
    (State.retire n { s with cfg := s.cfg.write v r }).readCsr c = s.readCsr c := by
  unfold State.readCsr
  cases hr' : csrAt c with
  | none => rfl
  | some r' =>
    have hidx := csrAt_eq_some hr'
    have hne : r' ≠ r := fun h => hc (by rw [hidx, h, ← csrAt_eq_some hr])
    have hpos : r' ≠ .cpos := fun h => hcpos (by rw [hidx, h]; rfl)
    simp only [Option.map_some, Csr.value_retire hpos, Csr.value_write_other hne]

/-- Settles O28: what the written register and the others read after the write, and the indexes that are not written. -/
theorem csrwEffect : Obligations.CsrwEffect := by
  intro csr v s
  rw [exec_eq, execState]
  refine ⟨fun ha mask hmem => ?_, fun hno => ?_⟩
  · obtain ⟨r, hr, hcls, rfl⟩ := exists_csr_of_mem_cfgFieldMasks hmem
    have hpos : r ≠ .cpos := by rintro rfl; cases hcls
    rw [csrWrite_of_cfg hr hcls v ha]
    refine ⟨_, rfl, rfl, ?_, fun c hc hcpos => readCsr_write_other hr hc hcpos v 2 s⟩
    rw [State.readCsr, hr, Option.map_some, Csr.value_retire hpos, Csr.value_write_same hcls]
  · rw [csrWrite_of_not_cfg (fun hcls => (exists_mask_of_cfg hcls).elim hno) v s]
    rfl

/-! ## CSRR (R187) -/

/-- R31: the three words of a mask, from its low bits up. -/
theorem Mask96.value_words (m : Mask96) : m.value.setWidth 32 = m.w0 ∧
    BitVec.ofNat 32 (m.value.toNat / 2 ^ 32) = m.w1 ∧ BitVec.ofNat 32 (m.value.toNat / 2 ^ 64) = m.w2 := by
  have h0 := m.w0.isLt
  have h1 := m.w1.isLt
  have h2 := m.w2.isLt
  simp only [← BitVec.toNat_inj, Mask96.value, toNat_append_eq_add, BitVec.toNat_setWidth, BitVec.toNat_ofNat]
  omega

/-- R39: a word of a remnant's value as it is read out. -/
theorem remnant_word (x : BitVec 78) (k : Nat) :
    (x.setWidth 96).extractLsb' k 32 = BitVec.ofNat 32 (x.toNat / 2 ^ k) := by
  rw [extractLsb'_eq_ofNat_div, BitVec.toNat_setWidth_of_le (by decide)]

theorem remnant_low_word (x : BitVec 78) : (x.setWidth 96).extractLsb' 0 32 = x.setWidth 32 := by
  rw [remnant_word, pow_zero, Nat.div_one, BitVec.ofNat_toNat]

/-- R25: what CTRL reads. -/
theorem ctrl_reads (cfg : CfgRegs) : (0#30 ++ BitVec.ofBool cfg.lumiEn ++ BitVec.ofBool cfg.digitsEn : Word) =
    BitVec.ofNat 32 (cfg.digitsEn.toNat + 2 * cfg.lumiEn.toNat) := by
  cases cfg.digitsEn <;> cases cfg.lumiEn <;> rfl

/-- R30: what CHSEL reads. -/
theorem chsel_reads (cfg : CfgRegs) : (0#24 ++ cfg.clCode ++ cfg.irCode : Word) =
    BitVec.ofNat 32 (cfg.irCode.toNat + 16 * cfg.clCode.toNat) := by
  have hir := cfg.irCode.isLt
  have hcl := cfg.clCode.isLt
  simp only [← BitVec.toNat_inj, toNat_append_eq_add, BitVec.toNat_ofNat]
  omega

/-- Settles O29: the assigned indexes by the register map, and the numbers that the registers show. -/
theorem csrrEffect : Obligations.CsrrEffect := by
  intro csr s
  simp only [exec_eq, execState, ← csrAt_none_iff]
  refine ⟨fun hnone => ?_, fun hsome => ?_, fun p hp hcsr => ?_, fun p hp hcsr => ?_⟩
  · rw [csrRead, hnone]
    rfl
  · obtain ⟨r, hr⟩ := Option.ne_none_iff_exists'.mp hsome
    refine ⟨r.value s, by rw [State.readCsr, hr, Option.map_some], ?_⟩
    rw [csrRead, hr]
    rfl
  · subst hcsr
    revert p
    obtain ⟨hA0, hA1, hA2⟩ := s.cfg.lmaskA.value_words
    obtain ⟨hB0, hB1, hB2⟩ := s.cfg.lmaskB.value_words
    simp only [List.forall_mem_cons, List.not_mem_nil, false_implies, implies_true, and_true, BitVec.ofNat_toNat,
      BitVec.setWidth_eq, ← ctrl_reads, ← chsel_reads, hA0, hA1, hA2, hB0, hB1, hB2]
    and_intros <;> rfl
  · subst hcsr
    revert p
    simp only [List.forall_mem_cons, List.not_mem_nil, false_implies, implies_true, and_true, BitVec.ofNat_toNat,
      BitVec.setWidth_eq, ← remnant_word, ← remnant_low_word]
    and_intros <;> rfl

/-! ## RDDIG (R93, R188) -/

/-- R93: the words of a valid RDDIG response by arithmetic. -/
theorem digitWords_eq_ofNat (k : Key) (e : Entry) : digitWords k e =
    [BitVec.ofNat 32 (2 ^ 31 + e.iset.toNat * 2 ^ 30 + e.cset.toNat * 2 ^ 29 + k.bc.val), k.orbit,
      BitVec.ofNat 32 e.imask.toNat, BitVec.ofNat 32 (e.imask.toNat / 2 ^ 32),
      BitVec.ofNat 32 (e.imask.toNat / 2 ^ 64),
      BitVec.ofNat 32 e.cmask.toNat, BitVec.ofNat 32 (e.cmask.toNat / 2 ^ 32),
      BitVec.ofNat 32 (e.cmask.toNat / 2 ^ 64)] := by
  have hheader : (1#1 ++ BitVec.ofBool e.iset ++ BitVec.ofBool e.cset ++ 0#17 ++ BitVec.ofNat 12 k.bc.val : Word) =
      BitVec.ofNat 32 (2 ^ 31 + e.iset.toNat * 2 ^ 30 + e.cset.toNat * 2 ^ 29 + k.bc.val) := by
    have hbc := k.bc.isLt
    have hi := e.iset.toNat_le
    have hc := e.cset.toNat_le
    rw [← BitVec.toNat_inj, digitHeader_toNat, BitVec.toNat_ofNat]
    omega
  simp only [digitWords, hheader, extractLsb'_eq_ofNat_div, pow_zero, Nat.div_one]

/-- R188: RDDIG answers zero words outside DONE and past the last entry. -/
theorem digitResponse_of_no_entry {idx : Word} {s : State} (h : s.engine ≠ .done ∨ s.ses.map.length ≤ idx.toNat) :
    digitResponse idx s = List.replicate 8 0#32 := by
  unfold digitResponse
  split
  · next hd hentry =>
    obtain ⟨hlt, -⟩ := List.getElem?_eq_some_iff.mp hentry
    rcases h with h | h
    · exact absurd hd h
    · omega
  · rfl

/-- Settles O31: the response in and out of range, and then CPOS. -/
theorem rddigEffect : Obligations.RddigEffect := by
  intro idx s
  rw [exec_eq, execState]
  refine ⟨fun k e hd hentry => ?_, fun h => ?_⟩
  · have hresp : digitResponse idx s = digitWords k e := by simp [digitResponse, hd, hentry]
    rw [hresp, digitWords_eq_ofNat]
    rfl
  · rw [digitResponse_of_no_entry h]
    rfl

/-! ## RDLUMI (R93, R189) -/

/-- R189: RDLUMI answers zero words outside DONE and past the last sample. -/
theorem sampleResponse_of_no_sample {idx : Word} {s : State} (h : s.engine ≠ .done ∨ s.ses.lumi.length ≤ idx.toNat) :
    sampleResponse idx s = List.replicate 6 0#32 := by
  unfold sampleResponse
  split
  · next hd hsample =>
    obtain ⟨hlt, -⟩ := List.getElem?_eq_some_iff.mp hsample
    rcases h with h | h
    · exact absurd hd h
    · omega
  · rfl

/-- Settles O33: the response in and out of range, and then CPOS. -/
theorem rdlumiEffect : Obligations.RdlumiEffect := by
  intro idx s
  rw [exec_eq, execState]
  refine ⟨fun x hd hsample => ?_, fun h => ?_⟩
  · have hresp : sampleResponse idx s = sampleWords x := by simp [sampleResponse, hd, hsample]
    rw [hresp]
    rfl
  · rw [sampleResponse_of_no_sample h]
    rfl

end Sys2Proof.Machine
end

section
/-! PROOFS of the exceptions' statements (60_exceptions.md R203 to R210): the causes of the GERR bits, the sticky bits, and
the ways into ABORTED and out of it. -/

namespace Sys2Proof.Machine

/-! ## The GERR bits that an operation sets (R210) -/

@[simp] theorem State.hasGflag_retire (n : Nat) (b : GErrBit) (s : State) : (s.retire n).hasGflag b = s.hasGflag b := rfl

@[simp] theorem State.hasGflag_respPush (ws : List Word) (b : GErrBit) (s : State) :
    (s.respPush ws).hasGflag b = s.hasGflag b := rfl

/-- R34, R66: no GERR bit depends on the words that are still to come. -/
@[simp] theorem State.hasGflag_input (ws : List Word) (b : GErrBit) (s : State) :
    State.hasGflag b { s with input := ws } = s.hasGflag b := rfl

/-- R183: BEGIN sets SEQ where an interval is open. -/
theorem beginOp_hasGflag (b : GErrBit) (s : State) :
    (beginOp s).hasGflag b = true ↔ s.hasGflag b = true ∨ (b = .seq ∧ s.engine = .active) := by
  rcases beginOp_cases s with ⟨ha, h⟩ | ⟨ha, -, h⟩ | ⟨ha, -, h⟩ <;> rw [h]
  · simp [ha]
  · simp [ha, State.hasGflag]
  · simp [ha, State.hasGflag]

/-- R184: END sets SEQ in IDLE and DONE. -/
theorem endOp_hasGflag (b : GErrBit) (s : State) :
    (endOp s).hasGflag b = true ↔ s.hasGflag b = true ∨ (b = .seq ∧ (s.engine = .idle ∨ s.engine = .done)) := by
  rcases endOp_cases s with ⟨ha, h⟩ | ⟨ha, h⟩ | ⟨ha, h⟩ <;> rw [h]
  · simp [ha, State.hasGflag]
  · simp [ha]
  · simp [ha]

/-- R185: PKT sets SEQ in IDLE and DONE. -/
theorem pktOp_hasGflag (pad herr : Bool) (len link seq : BitVec 16) (orbit trig : Word) (data : List Word) (b : GErrBit)
    (s : State) : (pktOp pad herr len link seq orbit trig data s).hasGflag b = true ↔
      s.hasGflag b = true ∨ (b = .seq ∧ (s.engine = .idle ∨ s.engine = .done)) := by
  rcases pktOp_cases pad herr len link seq orbit trig data s with
    ⟨ha, -, h⟩ | ⟨ha, -, h⟩ | ⟨ha, h⟩ | ⟨ha, h⟩ <;> rw [h]
  · simp [ha, State.hasGflag]
  · simp [ha, State.hasGflag]
  · simp [ha]
  · simp [ha]

/-- R186: CSRW sets CFGLOCK for a configuration register of an open interval, BADCSR for every other index. -/
theorem csrWrite_hasGflag (csr : BitVec 8) (v : Word) (b : GErrBit) (s : State) :
    (csrWrite csr v s).hasGflag b = true ↔ s.hasGflag b = true ∨
      (b = .cfglock ∧ s.engine = .active ∧ csrClass csr = .cfg) ∨ (b = .badcsr ∧ csrClass csr ≠ .cfg) := by
  rcases csrWrite_cases csr v s with ⟨r, hr, hcfg, ha, h⟩ | ⟨r, hr, hcfg, ha, h⟩ | ⟨hcls, h⟩ <;> rw [h]
  · simp [csrClass, hr, hcfg, ha]
  · simp [csrClass, hr, hcfg, ha, State.hasGflag]
  · simp [hcls]

/-- R187: CSRR sets BADCSR for an index without a register. -/
theorem csrRead_hasGflag (csr : BitVec 8) (b : GErrBit) (s : State) :
    (csrRead csr s).hasGflag b = true ↔ s.hasGflag b = true ∨ (b = .badcsr ∧ csrAt csr = none) := by
  rcases csrRead_cases csr s with ⟨r, hr, h⟩ | ⟨hr, h⟩ <;> rw [h] <;> simp [hr]

/-- Settles O15: every command sets the bits that its operation sets, and an illegal header word sets ILLCMD. -/
theorem causesOfGlobalErrors : Obligations.CausesOfGlobalErrors := by
  intro s t hp hns h
  simp only [← csrClass_cfg_iff, ← csrAt_none_iff]
  rcases step_cases h with ⟨hp', _⟩ | ⟨_, i, rest, hd, he⟩ | ⟨_, hd, rfl⟩
  · simp [hp] at hp'
  · obtain rfl : execState i { s with input := rest } = t := by simpa [exec_eq] using he
    cases i with
    | srst => exact absurd hd (hns rest)
    | beginInterval => simp [execState, hd, beginOp_hasGflag]
    | endInterval => simp [execState, hd, endOp_hasGflag]
    | csrw csr v => simp [execState, hd, csrWrite_hasGflag]
    | csrr csr => simp [execState, hd, csrRead_hasGflag]
    | pkt pad herr len link seq orbit trig data => simp [execState, hd, pktOp_hasGflag]
    | _ => simp [execState, hd]
  · rcases hd with hd | hd <;> simp [hd]

/-! ## The sticky bits (R209) -/

/-- R208, R209: the datapath of PKT and END only ever sets bits of IERR. -/
theorem hasFlag_sessionClosed (cfg : CfgRegs) (prm : Params) (b : IErrBit) :
    SessionClosed cfg prm (fun ses => ses.hasFlag b = true) where
  flag _ _ _ h := by simp [h]
  chunks _ _ :=
    { flag := fun _ _ _ _ h => by simp [h]
      lcntA := fun _ _ _ h => by simp [h]
      lcntB := fun _ _ _ h => by simp [h]
      rej := fun _ _ h => by simp [h]
      dup := fun _ _ h => by simp [h]
      fillHalf := fun _ _ _ _ _ h _ _ _ => h
      newKey := fun _ _ _ _ h _ _ _ _ => h }
  unpacked _ _ _ _ h := by simp [h]
  noRemnant _ _ h := by simp [h]
  padding _ _ _ h := h
  startOrbit _ _ _ h := h
  openFrame _ _ _ _ h := by simp [h]
  lastOrbit _ _ _ _ h := by simp [h, Session.setLastOrbit]
  emit _ _ h := by simp [h, lumiEmit_hasFlag]
  noCounts _ h := h
  unkCh _ h := by simp [h]

/-- R184, R185, R192: outside an open interval no command but BEGIN and SRST writes the session. -/
theorem execState_ses_of_not_active {i : Instr} {s : State} (ha : s.engine ≠ .active) (hb : i ≠ .beginInterval)
    (hi : i ≠ .srst) : (execState i s).ses = s.ses := by
  cases i with
  | srst => exact absurd rfl hi
  | beginInterval => exact absurd rfl hb
  | endInterval =>
    rcases endOp_cases s with ⟨ha', _⟩ | ⟨_, h⟩ | ⟨_, h⟩
    · exact absurd ha' ha
    all_goals simp [execState, h]
  | pkt pad herr len link seq orbit trig data =>
    rcases pktOp_cases pad herr len link seq orbit trig data s with
      ⟨ha', _⟩ | ⟨ha', _⟩ | ⟨_, h⟩ | ⟨_, h⟩
    · exact absurd ha' ha
    · exact absurd ha' ha
    all_goals simp [execState, h]
  | _ => simp [execState]

/-- R209: no command but BEGIN and SRST clears a bit of IERR. -/
theorem execState_keeps_hasFlag {i : Instr} {s : State} (hb : i ≠ .beginInterval) (hi : i ≠ .srst) {b : IErrBit}
    (h : s.ses.hasFlag b = true) : (execState i s).ses.hasFlag b = true := by
  by_cases ha : s.engine = .active
  · exact (hasFlag_sessionClosed s.cfg s.params b).execState ha hi h
  · rwa [execState_ses_of_not_active ha hb hi]

/-- Settles O17: each bit of GERR stays by its causes, of which its own old value is one; the bits of IERR stay command by
command, and an illegal header word does not write the session. -/
theorem errorBitsAreSticky : Obligations.ErrorBitsAreSticky := by
  intro s t hp hns h
  obtain ⟨hillcmd, hseq, hcfglock, hbadcsr⟩ := causesOfGlobalErrors s t hp hns h
  refine ⟨fun b hb => ?_, fun hnb b hb => ?_⟩
  · cases b with
    | illcmd => exact hillcmd.mpr (.inl hb)
    | seq => exact hseq.mpr (.inl hb)
    | cfglock => exact hcfglock.mpr (.inl hb)
    | badcsr => exact hbadcsr.mpr (.inl hb)
  · rcases step_cases h with ⟨hp', _⟩ | ⟨_, i, rest, hd, he⟩ | ⟨_, _, rfl⟩
    · simp [hp] at hp'
    · obtain rfl : execState i { s with input := rest } = t := by simpa [exec_eq] using he
      exact execState_keeps_hasFlag (fun hi => hnb rest (hi ▸ hd)) (fun hi => hns rest (hi ▸ hd)) hb
    · simpa using hb

/-! ## Into ABORTED (R203, R206) -/

/-- R183, R203: a BEGIN that ends in ABORTED cleared the session and then refused the configuration, unless ABORTED was
there before. -/
theorem beginOp_of_aborted {s : State} (h : (beginOp s).engine = .aborted) :
    s.engine ≠ .active ∧ beginOp s = s.clearSession.abort .cfgInvalid := by
  rcases beginOp_cases s with ⟨ha, h'⟩ | ⟨_, _, h'⟩ | ⟨ha, _, h'⟩
  · simp [h', ha] at h
  · simp [h'] at h
  · exact ⟨ha, h'⟩

/-- R191, R203: an illegal header word of an open interval sets ILLCMD and aborts. -/
theorem State.illCmd_of_active {s : State} (ha : s.engine = .active) :
    s.illCmd = ((s.gflag .illcmd).abort .illCmd).retire 1 := by
  simp [State.illCmd, ha]

/-- Settles O34: of the commands that write STATE, BEGIN and a packet with HERR can leave ABORTED, as the illegal header
word can, and what each leaves is an abort. -/
theorem abortsArePrecise : Obligations.AbortsArePrecise := by
  intro s t hp hna h hab
  have hne : t.engine ≠ s.engine := hab ▸ hna.symm
  rcases step_cases h with ⟨hp', _⟩ | ⟨_, i, rest, _, he⟩ | ⟨_, _, rfl⟩
  · simp [hp] at hp'
  · obtain rfl : execState i { s with input := rest } = t := by simpa [exec_eq] using he
    rcases writers_of_engine hne with rfl | rfl | rfl | ⟨pad, len, link, seq, orbit, trig, data, rfl⟩
    · obtain ⟨ha, hbegin⟩ := beginOp_of_aborted hab
      rw [execState, hbegin]
      exact ⟨rfl, rfl, rfl, rfl, .inr (.inr ⟨rfl, ha, rfl, rfl⟩)⟩
    · have hend := endOp_engine { s with input := rest }
      have ha := active_of_left (hend ▸ hne)
      cases hab.symm.trans (hend.trans (if_pos ha))
    · cases hab
    · have ha := active_of_left (pktOp_herr_engine pad len link seq orbit trig data { s with input := rest } ▸ hne)
      rw [execState, pktOp_herr_of_active pad len link seq orbit trig data ha]
      exact ⟨rfl, rfl, rfl, rfl, .inl ⟨rfl, ha, rfl, rfl⟩⟩
  · have ha := active_of_left (State.illCmd_engine { s with input := s.input.tail } ▸ hne)
    rw [State.illCmd_of_active ha]
    exact ⟨rfl, rfl, rfl, rfl, .inr (.inl ⟨rfl, ha, rfl, rfl⟩)⟩

/-! ## Out of ABORTED (R205) -/

/-- R183, R205: a BEGIN that takes the engine from ABORTED to another state opened a new interval. -/
theorem beginOp_leaves_aborted {s : State} (ha : s.engine = .aborted) (h : (beginOp s).engine ≠ .aborted) :
    beginOp s = { s.clearSession with engine := .active } := by
  rcases beginOp_cases s with ⟨ha', _⟩ | ⟨_, _, h'⟩ | ⟨_, _, h'⟩
  · cases ha.symm.trans ha'
  · exact h'
  · simp [h'] at h

/-- Settles O35: the other writers of STATE, END, a packet with HERR and an illegal header word, need an open interval. -/
theorem leavingAborted : Obligations.LeavingAborted := by
  intro s t ha h hab
  rcases step_cases h with ⟨hp, rfl⟩ | ⟨hp, i, rest, hd, he⟩ | ⟨_, _, rfl⟩
  · exact ⟨rfl, rfl, rfl, .inr ⟨rfl, .inl hp⟩⟩
  · obtain rfl : execState i { s with input := rest } = t := by simpa [exec_eq] using he
    rcases writers_of_engine (ha ▸ hab) with rfl | rfl | rfl | ⟨pad, len, link, seq, orbit, trig, data, rfl⟩
    · rw [execState, beginOp_leaves_aborted (s := { s with input := rest }) ha hab]
      exact ⟨rfl, rfl, rfl, .inl ⟨rfl, hp, rest, hd⟩⟩
    · exact absurd ((endOp_engine _).trans (by simp [ha])) hab
    · exact ⟨rfl, rfl, rfl, .inr ⟨rfl, .inr ⟨rest, hd⟩⟩⟩
    · exact absurd ((pktOp_herr_engine pad len link seq orbit trig data _).trans (by simp [ha])) hab
  · exact absurd ((State.illCmd_engine _).trans (by simp [ha])) hab

end Sys2Proof.Machine
end

section
/-! PROOFS of the statements about resets and waits (70_reset_and_hazards.md R231, R232, R241): the stream that ends inside
a command, the two resets, and the invariants of the reset state. -/

namespace Sys2Proof.Machine

/-! ## A stream that ends inside a command (R66, R241) -/

/-- R89: the header word of a well-formed command is legal, since the command's words decode. -/
theorem headerLegal_of_encode {i : Instr} {h : Word} {ws : List Word} (hw : i.wellFormed = true)
    (henc : encode i = h :: ws) : headerLegal h = true := by
  by_contra hl
  have hok : decode (h :: ws) = .ok (i, []) := by simpa [henc] using decodeEncodeRoundTrip i [] hw
  rcases decode_of_not_legal (eq_false_of_ne_true hl) ws with hd | hd <;> simp [hok] at hd

/-- R82, R241: a header word with too few of its command's words behind it waits for the others, because it says alone how
many it needs. -/
theorem decode_of_cut {i : Instr} {h : Word} {rest : List Word} (hw : i.wellFormed = true)
    (hpre : h :: rest <+: encode i) (hne : h :: rest ≠ encode i) : decode (h :: rest) = .error .truncated := by
  obtain ⟨hlen, h', ws, henc, hhdr⟩ := encode_length_header i hw
  obtain rfl : h = h' := (List.cons_prefix_cons.mp (henc ▸ hpre)).1
  have hshort : (h :: rest).length < i.length :=
    hlen ▸ lt_of_le_of_ne hpre.length_le fun heq => hne (hpre.eq_of_length heq)
  refine (decode_reads_headerLength rest (headerLegal_of_encode hw henc)).2 ?_
  rw [hhdr]
  exact Nat.lt_sub_of_add_lt hshort

/-- R66: with no reset pending and no word supplied, a step waits for a header. -/
theorem step_of_no_word {s : State} (hr : s.resetPin = false) (hin : s.input = []) :
    step s = .fault .waitingForHeader := by
  simp [step, hr, hin, decode]

/-- R241: with no reset pending, a step waits where the stream ends inside a command. -/
theorem step_of_truncated {s : State} (hr : s.resetPin = false) (hd : decode s.input = .error .truncated) :
    step s = .fault .waitingForOperand := by
  simp [step, hr, hd]

/-- Settles O9: with no word there is no header, and a cut command's header waits for the words that have not arrived. -/
theorem cutStreamIsStuck : Obligations.CutStreamIsStuck := by
  intro s i ws hr hw hpre hne hin
  cases ws with
  | nil => exact step_of_no_word hr hin
  | cons h rest => exact step_of_truncated hr (hin ▸ decode_of_cut hw hpre hne)

/-! ## The two resets (R190, R231, R232) -/

/-- R231: with the reset input set, a step is the hardware reset, whatever the stream holds. -/
theorem step_of_resetPin {s : State} (hr : s.resetPin = true) : step s = .next s.hwReset := by
  simp [step, hr]

/-- Settles O11: SRST is the reset of the fields, and the hardware reset is the same one with its input released. -/
theorem bothResets : Obligations.BothResets := fun s =>
  ⟨⟨s.resetFields, exec_eq .srst s, rfl, rfl, rfl, rfl, rfl, rfl, rfl, rfl, rfl⟩,
    fun hr => ⟨s.hwReset, step_of_resetPin hr, rfl, rfl, rfl, rfl, rfl, rfl, rfl, rfl, rfl⟩⟩

/-! ## The reset state (R232) -/

/-- What survives every way a step can change the state survives a reset, and so holds of the reset state. -/
theorem StepClosed.holds_at_reset {I : State → Prop} (hI : StepClosed I) (prm : Params) (words : List Word) (rst : Bool) :
    I (Engine.reset.withArgs prm words rst) :=
  hI.reset (Engine.reset.withArgs prm words rst) _ rfl rfl rfl rfl rfl rfl

/-- Settles O60: each invariant was shown to survive a reset. -/
theorem resetMeetsTheInvariants : Obligations.ResetMeetsTheInvariants := by
  intro prm words rst
  obtain ⟨hmap, hentry⟩ := mapInv_stepClosed.holds_at_reset prm words rst
  obtain ⟨habort, hbound⟩ := lifecycleInv_stepClosed.holds_at_reset prm words rst
  exact ⟨remnantInv_stepClosed.holds_at_reset prm words rst, hmap, hentry,
    maskWidthInv_stepClosed.holds_at_reset prm words rst,
    (State.intervalInv_iff _).mpr (intervalOk_stepClosed.holds_at_reset prm words rst),
    lumiInv_stepClosed.holds_at_reset prm words rst, gateInv_stepClosed.holds_at_reset prm words rst, habort, hbound⟩

end Sys2Proof.Machine
end
